-- ==== Sys2Proof/Word.lean ====
section
/-! DEFINITION. The word types of MOE (00_scope.md R8, 10_state.md R33): bytes, byte strings and 32-bit
register words. Nothing else stands here; every operation on them is in a file under Machine/. -/

namespace Sys2Proof

/-- An unsigned 8-bit value (00_scope.md R8). -/
abbrev Byte := BitVec 8

/-- A finite sequence of bytes, index 0 first (00_scope.md R8). A *Block* is a `Bytes` of length S. -/
abbrev Bytes := List Byte

/-- A 32-bit register value or command word (10_state.md R33, 30_encoding.md R140). -/
abbrev Word := BitVec 32

end Sys2Proof
end

