-- ==== Sys2Proof/Syntax.lean ====
section
/-! DEFINITION. The names of MOE: the closed sets of modes and paddings, the nine commands of
30_encoding.md R141 (one constructor of `Instr` per row of the opcode table), the error codes of
60_exceptions.md R401 and the registers of 10_state.md R33. -/

namespace Sys2Proof

/-- The seven chaining modes (30_encoding.md R143). -/
inductive Mode where
  | ecb | cbc | pcbc | cfb | ofb | ctr | randomDelta
deriving DecidableEq, Repr, Inhabited

/-- The four padding kinds (30_encoding.md R144). -/
inductive PaddingKind where
  | zeros | pkcs7 | ansiX923 | iso10126
deriving DecidableEq, Repr, Inhabited

/-- The direction of a stream or of a message (30_encoding.md R145). -/
inductive Direction where
  | enc | dec
deriving DecidableEq, Repr, Inhabited

/-- The nine commands (30_encoding.md R141). MODE is kept as the 3-bit field a word carries, because
43_commands.md R330 gives the value 7 an effect of its own (BAD_CMD); every value of PAD and DIR names
a kind and a direction (R144, R145). -/
inductive Instr where
  /-- 0x00, 43_commands.md R333 -/
  | nop
  /-- 0x01, 43_commands.md R330 -/
  | ctxInit (mode : BitVec 3) (pad : PaddingKind)
  /-- 0x02, 43_commands.md R331 -/
  | ctxClear
  /-- 0x03, 43_commands.md R332 -/
  | setKey
  /-- 0x10, 43_commands.md R334 -/
  | encrypt
  /-- 0x11, 43_commands.md R335 -/
  | decrypt
  /-- 0x20, 43_commands.md R336 -/
  | streamBegin (dir : Direction)
  /-- 0x21, 43_commands.md R337 -/
  | streamUpdate
  /-- 0x22, 43_commands.md R338 -/
  | streamFinal
deriving DecidableEq, Repr

/-- The error codes of STATUS.ECODE (60_exceptions.md R401). Codes 14 and 15 are never reported, so
they have no constructor. -/
inductive ErrorCode where
  | none | badCmd | noContext | ctxLocked | streamState | noKey | keyError | ivLength
  | deltaLength | length | addrRange | overlap | capacity | busError
deriving DecidableEq, Repr, Inhabited

/-- The registers of the window, by name (10_state.md R33). `reserved` stands for every reserved
offset. -/
inductive Reg where
  | cmd | status | irqEn | ctxCfg | srcAddr | srcLen | dstAddr | dstCap | outLen
  | ivLen | deltaLen | keyLen | blkSz | hwCfg | blkIdxLo | blkIdxHi | holdLen
  | ivWord (k : Fin 8) | deltaWord (k : Fin 8) | keyWord (k : Fin 16)
  | reserved
deriving DecidableEq, Repr

end Sys2Proof
end

