-- ==== Sys2Proof/WellFormed.lean ====
section
/-! DEFINITION. Which terms of `Instr` are commands (30_encoding.md R143, R146): the one field value the
fields of R140 can carry and no command has is MODE = 7. -/

namespace Sys2Proof

/-- MODE names one of the seven modes (30_encoding.md R143: 7 is reserved). -/
def Instr.modeDefined : Instr → Bool
  | .ctxInit mode _ => mode != 7
  | .nop => true
  | .ctxClear => true
  | .setKey => true
  | .encrypt => true
  | .decrypt => true
  | .streamBegin _ => true
  | .streamUpdate => true
  | .streamFinal => true

/-- A term of `Instr` that some legal command word carries (30_encoding.md R146). -/
def Instr.wellFormed (i : Instr) : Bool := i.modeDefined

end Sys2Proof
end

