-- ==== Sys2Proof/Decode.lean ====
section
/-! DEFINITION. The decoder of command words and, after it, the encoder, both written from
30_encoding.md R140-R148. A command is one 32-bit word; no memory holds it, so there is no byte order
to read it in (20_memory.md R102). The decoder is total: every word is a command or is rejected by
name, and every rejected word is performed as BAD_CMD (30_encoding.md R146). -/

namespace Sys2Proof

/-- Why a word is illegal (30_encoding.md R146). -/
inductive DecodeError where
  /-- OP is not in the map of R141 -/
  | unknownOpcode
  /-- a bit that R142 says must be 0 is 1 -/
  | reservedBits
  /-- OP = CTX_INIT and MODE = 7 -/
  | reservedMode
deriving DecidableEq, Repr

/-- OP, bits 7:0 (30_encoding.md R140). -/
def opField (w : Word) : BitVec 8 := w.extractLsb' 0 8

/-- MODE, bits 10:8 (30_encoding.md R140). -/
def modeField (w : Word) : BitVec 3 := w.extractLsb' 8 3

/-- PAD, bits 13:12 (30_encoding.md R140). -/
def padField (w : Word) : BitVec 2 := w.extractLsb' 12 2

/-- DIR, bit 16 (30_encoding.md R140). -/
def dirField (w : Word) : BitVec 1 := w.extractLsb' 16 1

/-- The mode numbers of 30_encoding.md R143; 7 is reserved. -/
def Mode.ofBits (b : BitVec 3) : Option Mode :=
  match b.toNat with
  | 0 => some .ecb
  | 1 => some .cbc
  | 2 => some .pcbc
  | 3 => some .cfb
  | 4 => some .ofb
  | 5 => some .ctr
  | 6 => some .randomDelta
  | _ => none

/-- The number of a mode (30_encoding.md R143). -/
def Mode.bits : Mode → BitVec 3
  | .ecb => 0
  | .cbc => 1
  | .pcbc => 2
  | .cfb => 3
  | .ofb => 4
  | .ctr => 5
  | .randomDelta => 6

/-- The padding numbers of 30_encoding.md R144. -/
def PaddingKind.ofBits (b : BitVec 2) : PaddingKind :=
  match b.toNat with
  | 0 => .zeros
  | 1 => .pkcs7
  | 2 => .ansiX923
  | _ => .iso10126

/-- The number of a padding kind (30_encoding.md R144). -/
def PaddingKind.bits : PaddingKind → BitVec 2
  | .zeros => 0
  | .pkcs7 => 1
  | .ansiX923 => 2
  | .iso10126 => 3

/-- DIR: 0 is encrypt, 1 is decrypt (30_encoding.md R145). -/
def Direction.ofBits (b : BitVec 1) : Direction := if b = 0 then .enc else .dec

/-- The bit of a direction (30_encoding.md R145). -/
def Direction.bits : Direction → BitVec 1
  | .enc => 0
  | .dec => 1

/-- The fields a word of this opcode may use, as a mask of the bits that may be nonzero
(30_encoding.md R142); `none` where OP is not in the map of R141. -/
def allowedBits (op : BitVec 8) : Option Word :=
  match op.toNat with
  | 0x00 => some 0x000000FF
  | 0x01 => some 0x000037FF
  | 0x02 => some 0x000000FF
  | 0x03 => some 0x000000FF
  | 0x10 => some 0x000000FF
  | 0x11 => some 0x000000FF
  | 0x20 => some 0x000100FF
  | 0x21 => some 0x000000FF
  | 0x22 => some 0x000000FF
  | _ => none

/-- The command a legal word names, its reserved bits aside (30_encoding.md R141). -/
def commandOf (w : Word) : Except DecodeError Instr :=
  match (opField w).toNat with
  | 0x00 => .ok .nop
  | 0x01 =>
    if modeField w = 7 then .error .reservedMode
    else .ok (.ctxInit (modeField w) (PaddingKind.ofBits (padField w)))
  | 0x02 => .ok .ctxClear
  | 0x03 => .ok .setKey
  | 0x10 => .ok .encrypt
  | 0x11 => .ok .decrypt
  | 0x20 => .ok (.streamBegin (Direction.ofBits (dirField w)))
  | 0x21 => .ok .streamUpdate
  | 0x22 => .ok .streamFinal
  | _ => .error .unknownOpcode

/-- Every word is one of the nine commands or illegal (30_encoding.md R146). -/
def decode (w : Word) : Except DecodeError Instr :=
  match allowedBits (opField w) with
  | none => .error .unknownOpcode
  | some mask => if w &&& ~~~mask = 0 then commandOf w else .error .reservedBits

/-- The host's reading of the opcode table: a word of `nbits` bits numbered as the table numbers them.
A command is one 32-bit word, and the bits above `nbits` are 0. -/
def decodeTableWord (nbits w : Nat) : Option Instr :=
  if nbits ≤ 32 ∧ w < 2 ^ nbits then
    match decode (BitVec.ofNat 32 w) with
    | .ok i => some i
    | .error _ => none
  else none

/-- `OP | MODE<<8 | PAD<<12 | DIR<<16` (30_encoding.md R148). -/
def commandWord (op : Word) (mode : BitVec 3) (pad : BitVec 2) (dir : BitVec 1) : Word :=
  op ||| (mode.zeroExtend 32 <<< 8) ||| (pad.zeroExtend 32 <<< 12) ||| (dir.zeroExtend 32 <<< 16)

/-- The canonical word of a command (30_encoding.md R148). -/
def encode : Instr → Word
  | .nop => commandWord 0x00 0 0 0
  | .ctxInit mode pad => commandWord 0x01 mode pad.bits 0
  | .ctxClear => commandWord 0x02 0 0 0
  | .setKey => commandWord 0x03 0 0 0
  | .encrypt => commandWord 0x10 0 0 0
  | .decrypt => commandWord 0x11 0 0 0
  | .streamBegin dir => commandWord 0x20 0 0 dir.bits
  | .streamUpdate => commandWord 0x21 0 0 0
  | .streamFinal => commandWord 0x22 0 0 0

end Sys2Proof
end

