-- ==== Sys2Proof/Config.lean ====
section
/-! DEFINITION. What one MOE and its platform fix, and the free values of the spec. Every entry is an
uninterpreted constant: nothing in Lean can say what it is (00_scope.md R6 and R7, 10_state.md R65,
93_implementation_defined.md U1-U28). The record `Params` holds them together so that the machine can be
read with any other choice of them, and `Config.chip` is the one the machine runs with. -/

namespace Sys2Proof

namespace Config

/-- S is 4·(sizeIndex + 1): a multiple of 4 with 4 ≤ S ≤ 32 (00_scope.md R6). -/
opaque sizeIndex : Fin 8

/-- `SetKey : Bytes → Option KeySched` (00_scope.md R7). A key schedule is a byte string of unknown
format. DEDUCED, log 1. -/
opaque setKey : Bytes → Option Bytes

/-- `Enc : KeySched → Block → Block` (00_scope.md R7), before its result is cut to a block
(`Params.enc`). -/
opaque encRaw : Bytes → Bytes → Bytes

/-- `Dec : KeySched → Block → Block` (00_scope.md R7), before its result is cut to a block
(`Params.dec`). -/
opaque decRaw : Bytes → Bytes → Bytes

/-- The free bytes: entropy draws and every byte the spec leaves unspecified (00_scope.md R10,
93_implementation_defined.md U1-U3, U5, U6). -/
opaque freeByte : Nat → Byte

/-- The free values of st.BLKIDX after a bus error (43_commands.md R339). -/
opaque freeIndex : Nat → BitVec 64

/-- MMIO_BASE (00_scope.md R6). -/
opaque mmioBase : Nat

/-- NUM_LANES - 1 (00_scope.md R6: NUM_LANES ≥ 1). -/
opaque extraLanes : Nat

/-- CHUNK_CEIL - 1, in blocks (00_scope.md R6: CHUNK_CEIL ≥ 1). -/
opaque extraChunkBlocks : Nat

/-- STREAM_CHUNK, in bytes (00_scope.md R6). -/
opaque streamChunk : Nat

/-- DIRECT_THRESHOLD, in bytes (00_scope.md R6). -/
opaque directThreshold : Nat

end Config

/-- The parameters of the step relation (00_scope.md R6, R7, 10_state.md R65). -/
structure Params where
  sizeIndex : Fin 8
  setKey : Bytes → Option Bytes
  encRaw : Bytes → Bytes → Bytes
  decRaw : Bytes → Bytes → Bytes
  freeByte : Nat → Byte
  freeIndex : Nat → BitVec 64
  mmioBase : Nat
  extraLanes : Nat
  extraChunkBlocks : Nat
  streamChunk : Nat
  directThreshold : Nat

/-- The parameters of the machine that `step` runs: the uninterpreted constants above. -/
def Config.chip : Params where
  sizeIndex := Config.sizeIndex
  setKey := Config.setKey
  encRaw := Config.encRaw
  decRaw := Config.decRaw
  freeByte := Config.freeByte
  freeIndex := Config.freeIndex
  mmioBase := Config.mmioBase
  extraLanes := Config.extraLanes
  extraChunkBlocks := Config.extraChunkBlocks
  streamChunk := Config.streamChunk
  directThreshold := Config.directThreshold

/-- `S`, the block size in bytes (00_scope.md R6). -/
def Params.S (P : Params) : Nat := 4 * (P.sizeIndex.val + 1)

/-- `SMAX`, fixed (00_scope.md R6). -/
def SMAX : Nat := 32

/-- `MAXKEY`, fixed (00_scope.md R6). -/
def MAXKEY : Nat := 64

/-- The number of DMA addresses, 2^ADDR_BITS with ADDR_BITS = 32 (00_scope.md R6, 20_memory.md R100). -/
def addressLimit : Nat := 4294967296

/-- `NUM_LANES` (00_scope.md R6). -/
def Params.numLanes (P : Params) : Nat := P.extraLanes + 1

/-- `CHUNK_CEIL`, in blocks (00_scope.md R6). -/
def Params.chunkCeil (P : Params) : Nat := P.extraChunkBlocks + 1

end Sys2Proof
end

