-- ==== Sys2Proof/Machine/State.lean ====
section
/-! DEFINITION. The state of MOE and of the agents around it, as plain data (10_state.md, 00_scope.md R5),
and the state after reset (70_reset_and_hazards.md R450). A byte or element the spec calls "no value" is
`none`: absent is the spec's own state for it (10_state.md R64). -/

namespace Sys2Proof.Machine

/-- The DMA byte space as (address, byte) cells in canonical form (20_memory.md R100; the form is
`Memory.wf` in Machine/Memory.lean). -/
abbrev Memory := List Host.Cell

/-- A staging window of `n` bytes; a byte never written since reset is `none` (10_state.md R51-R53, R64). -/
abbrev Window (n : Nat) := Vector (Option Byte) n

/-- The operands of a command, sampled at issue (10_state.md R62, 43_commands.md R320). -/
structure Latch where
  word : Word
  srcAddr : Word
  srcLen : Word
  dstAddr : Word
  dstCap : Word
  ivLen : Word
  deltaLen : Word
  keyLen : Word
  iv : Window 32
  delta : Window 32
  key : Window 64
deriving DecidableEq, Repr

/-- The context elements that hold a value while st.CTX_VALID is true (10_state.md R55). `iv` is
st.CTX_IV, `ivp` st.CTX_IVP; `delta` is present in RandomDelta. -/
structure Context where
  mode : Mode
  pad : PaddingKind
  ivp : Bool
  iv : Bytes
  delta : Option Bytes
deriving DecidableEq, Repr

/-- What the outside world does next: a host access, the engine controller's turn, or a reset
(00_scope.md R5, 60_exceptions.md R405, 70_reset_and_hazards.md R450). -/
inductive Event where
  /-- a host read of `bytes` bytes at offset `off` of the register window -/
  | regRead (off : BitVec 12) (bytes : Nat)
  /-- a host write of `bytes` bytes at offset `off` of the register window -/
  | regWrite (off : BitVec 12) (bytes : Nat) (value : Word)
  /-- a host read of one byte of memory -/
  | memRead (addr : Word)
  /-- a host write of one byte of memory -/
  | memWrite (addr : Word) (value : Byte)
  /-- the engine controller's turn: the perform of the command in flight, if there is one -/
  | engine
  /-- the platform drives the reset input -/
  | reset
deriving DecidableEq, Repr

/-- The memory agent's answer for a range that a command accesses (20_memory.md R105, R108). -/
inductive MemAnswer where
  /-- ordinary memory, and the access is done -/
  | admits
  /-- the access is refused: a bus error (R108) -/
  | refuses
  /-- the range has read or write side effects: no meaning (R105) -/
  | sideEffects
deriving DecidableEq, Repr, Inhabited

/-- What a host read returned. -/
inductive Answer where
  | word (w : Word)
  | byte (b : Byte)
deriving DecidableEq, Repr

/-- What has no value (10_state.md R51-R53, R57, R64). -/
inductive Absent where
  | ivWindow | deltaWindow | keyWindow | ctxDelta | keySchedule | prev
deriving DecidableEq, Repr

/-- Why the machine stops. -/
inductive Fault where
  /-- Raised by a read of a window word, or by CTX_INIT, SET_KEY or a data command, when it would use a
  value that is not there (10_state.md R51-R53, R64; 93_implementation_defined.md U7, U8). Safe: the
  chip's value there is unspecified. -/
  | noValue (what : Absent)
  /-- Raised by a meaning when no command is in flight: the engine controller then has no step
  (43_commands.md R321). No step reaches it. Safe. -/
  | noCommandInFlight
deriving DecidableEq, Repr

/-- Why the model gives a run no meaning. -/
inductive Refusal where
  /-- An instruction whose meaning is not written. Raised only by `exec`'s arms. Safe. -/
  | notModelled (mnemonic : String)
  /-- Raised by a host access to the register window that is not 32 bits wide or not word-aligned
  (10_state.md R34; 93_implementation_defined.md U9). Safe. -/
  | registerAccess
  /-- Raised by a host write to a byte of the source or write range of the command in flight
  (20_memory.md R110 part 4; 93_implementation_defined.md U13). Safe. -/
  | hostWriteInFlight
  /-- Raised by a data command, or a reset that abandons one, whose ranges have side effects (20_memory.md R105;
  93_implementation_defined.md U14). Safe. -/
  | sideEffectMemory
deriving DecidableEq, Repr

/-- The whole state. -/
structure State where
  /-- STATUS.DONE (10_state.md R36) -/
  done : Bool
  /-- STATUS.ERR (10_state.md R36) -/
  err : Bool
  /-- STATUS.ECODE (10_state.md R36) -/
  ecode : ErrorCode
  /-- STATUS.REJ (10_state.md R36) -/
  rej : Bool
  /-- IRQ_EN.DONE_IE (10_state.md R37) -/
  doneIe : Bool
  /-- SRC_ADDR (10_state.md R39) -/
  srcAddr : Word
  /-- SRC_LEN (10_state.md R40) -/
  srcLen : Word
  /-- DST_ADDR (10_state.md R41) -/
  dstAddr : Word
  /-- DST_CAP (10_state.md R42) -/
  dstCap : Word
  /-- OUT_LEN (10_state.md R43) -/
  outLen : Word
  /-- IVLEN (10_state.md R44) -/
  ivLen : Word
  /-- DELTALEN (10_state.md R45) -/
  deltaLen : Word
  /-- KEYLEN (10_state.md R46) -/
  keyLen : Word
  /-- the IV window (10_state.md R51) -/
  iv : Window 32
  /-- the DELTA window (10_state.md R52) -/
  delta : Window 32
  /-- the KEY window (10_state.md R53) -/
  key : Window 64
  /-- st.CTX_VALID, CTX_MODE, CTX_PAD, CTX_IVP, CTX_IV, CTX_DELTA (10_state.md R55): `none` while
  CTX_VALID is false, when the elements hold no value -/
  ctx : Option Context
  /-- st.KS (10_state.md R56) -/
  ks : Option Bytes
  /-- st.PREV (10_state.md R57): `none` outside its span -/
  prev : Option Bytes
  /-- st.BLKIDX (10_state.md R63) -/
  blkIdx : BitVec 64
  /-- st.STREAM_OPEN (10_state.md R60) -/
  streamOpen : Bool
  /-- st.STREAM_DIR (10_state.md R60) -/
  streamDir : Direction
  /-- st.HOLD (10_state.md R61) -/
  hold : Bytes
  /-- st.PENDING (10_state.md R62) -/
  pending : Option Latch
  /-- the memory agent's contents (20_memory.md R100) -/
  mem : Memory
  /-- The model's own: how many free values have been taken (log 4). -/
  free : Nat
  /-- The model's own: the memory agent's answers for the DMA ranges still to come, first to last; a range past
  the end of the list is admitted (log 11). -/
  busAnswers : List MemAnswer
  /-- The model's own: what the outside world does from here on, first to last (log 6). -/
  events : List Event
  /-- The model's own: what the last host read returned (log 7). -/
  answer : Option Answer
deriving DecidableEq, Repr

/-- The machine right after reset (70_reset_and_hazards.md R450). Memory lists nothing, and no event is
waiting (log 5, log 6). -/
def State.reset : State where
  done := false
  err := false
  ecode := .none
  rej := false
  doneIe := false
  srcAddr := 0
  srcLen := 0
  dstAddr := 0
  dstCap := 0
  outLen := 0
  ivLen := 0
  deltaLen := 0
  keyLen := 0
  iv := Vector.replicate 32 none
  delta := Vector.replicate 32 none
  key := Vector.replicate 64 none
  ctx := none
  ks := none
  prev := none
  blkIdx := 0
  streamOpen := false
  streamDir := .enc
  hold := []
  pending := none
  mem := []
  free := 0
  busAnswers := []
  events := []
  answer := none

end Sys2Proof.Machine
end

