-- ==== Sys2Proof/Machine/Flags.lean ====
section
/-! DEFINITION. The flags and the words they are read in: ECODE's numbers, STATUS, CTX_CFG and the
interrupt line (10_state.md R36, R38; 60_exceptions.md R401, R410). MOE has no other flags (10_state.md
R32). BUSY, CTX_VALID, KEY_VALID, STREAM_OPEN and STREAM_DIR mirror other state and are computed. -/

namespace Sys2Proof

/-- The number of an error code (60_exceptions.md R401). -/
def ErrorCode.code : ErrorCode → BitVec 4
  | .none => 0
  | .badCmd => 1
  | .noContext => 2
  | .ctxLocked => 3
  | .streamState => 4
  | .noKey => 5
  | .keyError => 6
  | .ivLength => 7
  | .deltaLength => 8
  | .length => 9
  | .addrRange => 10
  | .overlap => 11
  | .capacity => 12
  | .busError => 13

namespace Machine

/-- STATUS.BUSY: a command is in flight (10_state.md R62). -/
def State.busy (s : State) : Bool := s.pending.isSome

/-- `st.CTX_VALID`, mirrored by STATUS.CTX_VALID (10_state.md R36, R55). -/
def State.ctxValid (s : State) : Bool := s.ctx.isSome

/-- STATUS.KEY_VALID: `st.KS ≠ none` (10_state.md R36, R56). -/
def State.keyValid (s : State) : Bool := s.ks.isSome

/-- STATUS.STREAM_DIR: an open decrypt stream (10_state.md R36; 90_conflicts.md C7). -/
def State.decryptStream (s : State) : Bool := s.streamOpen && (s.streamDir == .dec)

/-- A flag at bit `k` of a word. -/
def flagAt (k : Nat) (b : Bool) : Word := if b then 1#32 <<< k else 0#32

/-- What a read of STATUS returns (10_state.md R36). -/
def statusWord (s : State) : Word :=
  flagAt 0 s.busy ||| flagAt 1 s.done ||| flagAt 2 s.err
    ||| (s.ecode.code.zeroExtend 32 <<< 4) ||| flagAt 8 s.rej ||| flagAt 16 s.ctxValid
    ||| flagAt 17 s.keyValid ||| flagAt 18 s.streamOpen ||| flagAt 19 s.decryptStream

/-- What a read of CTX_CFG returns (10_state.md R38). -/
def ctxCfgWord (s : State) : Word :=
  match s.ctx with
  | none => 0
  | some c => c.mode.bits.zeroExtend 32 ||| (c.pad.bits.zeroExtend 32 <<< 4) ||| flagAt 8 c.ivp

/-- `IRQ = STATUS.DONE AND IRQ_EN.DONE_IE` (60_exceptions.md R410). -/
def State.irq (s : State) : Bool := s.done && s.doneIe

end Machine

end Sys2Proof
end

