-- ==== Sys2Proof/Machine/Memory.lean ====
section
/-! DEFINITION. The DMA byte space: one byte read and written, then ranges of bytes built from them
(20_memory.md R100, R101). Every byte is addressable; an unlisted byte reads as `Memory.unlisted`. -/

namespace Sys2Proof.Machine

/-- What a byte that nothing has written reads as. DESIGN CHOICE, log 5: 95_test_vectors.md section 3
says "Memory bytes not mentioned are 00 at the start". -/
def Memory.unlisted : Byte := 0

/-- The canonical form from address `lo` on: addresses strictly rising, no entry equal to what an
unlisted byte reads as. -/
def Memory.wfFrom (lo : Nat) : Memory → Bool
  | [] => true
  | (a, b) :: rest => decide (lo ≤ a) && (b != Memory.unlisted) && Memory.wfFrom (a + 1) rest

/-- The canonical form. -/
def Memory.wf (m : Memory) : Bool := Memory.wfFrom 0 m

/-- Every listed byte has a DMA address (20_memory.md R100). -/
def Memory.inSpace (m : Memory) : Bool := m.all fun c => decide (c.1 < addressLimit)

/-- One byte. -/
def Memory.read : Memory → Nat → Byte
  | [], _ => Memory.unlisted
  | (k, b) :: rest, a => if k = a then b else Memory.read rest a

/-- The cells with `v` put at `a`, or with `a` taken out where `v` is what an unlisted byte reads as. -/
def Memory.write : Memory → Nat → Byte → Memory
  | [], a, v => if v = Memory.unlisted then [] else [(a, v)]
  | (k, b) :: rest, a, v =>
    if a < k then (if v = Memory.unlisted then (k, b) :: rest else (a, v) :: (k, b) :: rest)
    else if a = k then (if v = Memory.unlisted then rest else (a, v) :: rest)
    else (k, b) :: Memory.write rest a v

/-- `MemRead(addr, n)`: the bytes at `addr … addr+n-1` (00_scope.md R10, 20_memory.md R101). -/
def Memory.readRange (m : Memory) (a n : Nat) : Bytes :=
  (List.range n).map fun i => m.read (a + i)

/-- `MemWrite(addr, n, v)`: byte `k` of `v` at `addr + k` (00_scope.md R10, 20_memory.md R101). -/
def Memory.writeRange (m : Memory) (a : Nat) : Bytes → Memory
  | [] => m
  | b :: rest => Memory.writeRange (m.write a b) (a + 1) rest

end Sys2Proof.Machine
end

