-- ==== Sys2Proof/Machine/Bytes.lean ====
section
/-! DEFINITION. Operations on byte strings (00_scope.md R9), the cipher functions on blocks (R7), and the
byte lanes of the register windows (20_memory.md R102). -/

namespace Sys2Proof.Machine

/-- `rep(n, v)` (00_scope.md R8). -/
def rep (n : Nat) (v : Byte) : Bytes := List.replicate n v

/-- `zeros(n)` (00_scope.md R8). -/
def zeros (n : Nat) : Bytes := rep n 0

/-- `x[a..b)` (00_scope.md R8). -/
def slice (x : Bytes) (a b : Nat) : Bytes := (x.take b).drop a

/-- `a ⊕ b`, byte by byte, of two sequences of equal length (00_scope.md R9). -/
def xorBytes (a b : Bytes) : Bytes := List.zipWith (· ^^^ ·) a b

/-- `trunc(n, x)` (00_scope.md R9). -/
def trunc (n : Nat) (x : Bytes) : Bytes := x.take n

/-- `zext_S(x)`: zeros at the high-index end (00_scope.md R9). -/
def zext (size : Nat) (x : Bytes) : Bytes := x ++ zeros (size - x.length)

/-- `BE(x)`: the big-endian unsigned integer of a byte string (00_scope.md R9). -/
def bigEndian (x : Bytes) : Nat := x.foldl (fun acc b => acc * 256 + b.toNat) 0

/-- `toBE_n(v)` (00_scope.md R9). -/
def toBigEndian : Nat → Nat → Bytes
  | 0, _ => []
  | n + 1, v => toBigEndian n (v / 256) ++ [BitVec.ofNat 8 v]

/-- The consecutive slices of length `size`, at most `fuel` of them. -/
def segmentsUpTo (size : Nat) : Nat → Bytes → List Bytes
  | 0, _ => []
  | fuel + 1, x =>
    if x = [] then [] else x.take size :: segmentsUpTo size fuel (x.drop size)

/-- `segments(x)`: consecutive slices of length S, the last one shorter when |x| is no multiple of S;
on a multiple of S it is `blocks(x)` (00_scope.md R9). -/
def segments (size : Nat) (x : Bytes) : List Bytes := segmentsUpTo size x.length x

/-- A byte string cut or zero-filled to exactly `size` bytes. -/
def fitBlock (size : Nat) (x : Bytes) : Bytes := zext size (x.take size)

/-- `Enc(k, b)`: a block for every block (00_scope.md R7, "block-sized in/out"). -/
def encWith (P : Params) (k b : Bytes) : Bytes := fitBlock P.S (P.encRaw k b)

/-- `Dec(k, b)`: a block for every block (00_scope.md R7, "block-sized in/out"). -/
def decWith (P : Params) (k b : Bytes) : Bytes := fitBlock P.S (P.decRaw k b)

/-- `n` free bytes, the `t`-th draw first (00_scope.md R10). -/
def freeBytes (P : Params) (t n : Nat) : Bytes := (List.range n).map fun i => P.freeByte (t + i)

/-- Byte lane `j` of a word: bits 8·j+7 : 8·j (20_memory.md R102). -/
def byteLane (w : Word) (j : Nat) : Byte := w.extractLsb' (8 * j) 8

/-- The word whose byte lanes are `b0` (least significant) to `b3` (20_memory.md R102). -/
def wordOfLanes (b0 b1 b2 b3 : Byte) : Word := b3 ++ b2 ++ b1 ++ b0

/-- Byte `j` of a window, `none` where it holds no value (10_state.md R51). -/
def windowByte {n : Nat} (w : Window n) (j : Nat) : Option Byte := (w[j]?).join

/-- Word `k` of a window (10_state.md R51): no value where one of its bytes holds none. -/
def windowWord {n : Nat} (w : Window n) (k : Nat) : Option Word :=
  match windowByte w (4 * k), windowByte w (4 * k + 1), windowByte w (4 * k + 2),
      windowByte w (4 * k + 3) with
  | some b0, some b1, some b2, some b3 => some (wordOfLanes b0 b1 b2 b3)
  | _, _, _, _ => none

/-- A window after a write of its word `k`, which sets all four of its bytes (10_state.md R51). -/
def setWindowWord {n : Nat} (w : Window n) (k : Nat) (v : Word) : Window n :=
  (((w.setIfInBounds (4 * k) (some (byteLane v 0))).setIfInBounds (4 * k + 1)
    (some (byteLane v 1))).setIfInBounds (4 * k + 2) (some (byteLane v 2))).setIfInBounds
    (4 * k + 3) (some (byteLane v 3))

/-- The bytes of a list that all hold a value. -/
def allPresent : List (Option Byte) → Option Bytes
  | [] => some []
  | none :: _ => none
  | some b :: rest => (allPresent rest).map (b :: ·)

/-- The first `n` bytes of a window; no value where one of them holds none (10_state.md R64). -/
def windowBytes {m : Nat} (w : Window m) (n : Nat) : Option Bytes := allPresent (w.toList.take n)

end Sys2Proof.Machine
end

