-- ==== Sys2Proof/Machine/Padding.lean ====
section
/-! DEFINITION. The padding unit: four schemes, applied and removed (40_padding.md R200-R212). The filler
of ISO10126 is an argument, `fill`, of which the first p-1 bytes are used; `fillerCount` says how many
draws that takes. -/

namespace Sys2Proof.Machine

/-- The pad length `p = S - (|M| mod S)` (40_padding.md R201). -/
def padLength (size len : Nat) : Nat := size - len % size

/-- 40_padding.md R205. -/
def padApplyZeros (size : Nat) (m : Bytes) : Bytes :=
  if m.length = 0 then zeros size
  else if m.length % size = 0 then m
  else m ++ zeros (padLength size m.length)

/-- 40_padding.md R202. -/
def padApplyPkcs7 (size : Nat) (m : Bytes) : Bytes :=
  m ++ rep (padLength size m.length) (BitVec.ofNat 8 (padLength size m.length))

/-- 40_padding.md R203. -/
def padApplyX923 (size : Nat) (m : Bytes) : Bytes :=
  m ++ zeros (padLength size m.length - 1) ++ [BitVec.ofNat 8 (padLength size m.length)]

/-- 40_padding.md R204: `fill i` is the i-th draw. -/
def padApplyIso (size : Nat) (fill : Nat → Byte) (m : Bytes) : Bytes :=
  m ++ (List.range (padLength size m.length - 1)).map fill
    ++ [BitVec.ofNat 8 (padLength size m.length)]

/-- `PadApply(k, M)` (40_padding.md R200). -/
def padApply (size : Nat) (k : PaddingKind) (fill : Nat → Byte) (m : Bytes) : Bytes :=
  match k with
  | .zeros => padApplyZeros size m
  | .pkcs7 => padApplyPkcs7 size m
  | .ansiX923 => padApplyX923 size m
  | .iso10126 => padApplyIso size fill m

/-- How many draws `PadApply` takes (40_padding.md R200, R204). -/
def fillerCount (size : Nat) (k : PaddingKind) (len : Nat) : Nat :=
  match k with
  | .iso10126 => padLength size len - 1
  | .zeros => 0
  | .pkcs7 => 0
  | .ansiX923 => 0

/-- `|PadApply(k, M)|` for `|M| = len` (40_padding.md R206). -/
def paddedLength (size : Nat) (k : PaddingKind) (len : Nat) : Nat :=
  match k with
  | .zeros => if len = 0 then size else size * ((len + size - 1) / size)
  | .pkcs7 => size * (len / size + 1)
  | .ansiX923 => size * (len / size + 1)
  | .iso10126 => size * (len / size + 1)

/-- `B[S-1]` as a count (40_padding.md R208). -/
def lastCount (size : Nat) (b : Bytes) : Nat := (b.getD (size - 1) 0).toNat

/-- How many zero bytes a block ends in (40_padding.md R211). -/
def trailingZeros (b : Bytes) : Nat := (b.reverse.takeWhile (· == 0)).length

/-- 40_padding.md R211. -/
def removeLastZeros (size : Nat) (b : Bytes) : Bytes := slice b 0 (size - trailingZeros b)

/-- 40_padding.md R208; a mismatch returns the block unchanged (R212). -/
def removeLastPkcs7 (size : Nat) (b : Bytes) : Bytes :=
  let p := lastCount size b
  if 1 ≤ p ∧ p ≤ size ∧ slice b (size - p) size = rep p (BitVec.ofNat 8 p) then slice b 0 (size - p)
  else b

/-- 40_padding.md R209; a mismatch returns the block unchanged (R212). -/
def removeLastX923 (size : Nat) (b : Bytes) : Bytes :=
  let p := lastCount size b
  if 1 ≤ p ∧ p ≤ size ∧ slice b (size - p) (size - 1) = zeros (p - 1) then slice b 0 (size - p)
  else b

/-- 40_padding.md R210. -/
def removeLastIso (size : Nat) (b : Bytes) : Bytes :=
  let p := lastCount size b
  if 1 ≤ p ∧ p ≤ size then slice b 0 (size - p) else b

/-- `RemoveLast(k, B)` (40_padding.md R207). -/
def removeLast (size : Nat) (k : PaddingKind) (b : Bytes) : Bytes :=
  match k with
  | .zeros => removeLastZeros size b
  | .pkcs7 => removeLastPkcs7 size b
  | .ansiX923 => removeLastX923 size b
  | .iso10126 => removeLastIso size b

/-- `PadRemove(k, P)`: the final block only (40_padding.md R207). -/
def padRemove (size : Nat) (k : PaddingKind) (p : Bytes) : Bytes :=
  if p = [] then []
  else slice p 0 (p.length - size) ++ removeLast size k (slice p (p.length - size) p.length)

end Sys2Proof.Machine
end

