-- ==== Sys2Proof/Machine/ModeDriver.lean ====
section
/-! DEFINITION. The mode drivers: fourteen block steps, one definition each, `Run`, and the whole-message
functions (41_mode_drivers.md R230-R254). A `Driver` is what a step reads besides its operands: the block
size, `E` and `D` under the key schedule, and the context. -/

namespace Sys2Proof.Machine

/-- What every block step of one command reads: S, `E`, `D` (00_scope.md R10) and the context elements
(10_state.md R55). -/
structure Driver where
  size : Nat
  enc : Bytes → Bytes
  dec : Bytes → Bytes
  mode : Mode
  pad : PaddingKind
  iv : Bytes
  delta : Bytes

/-- The driver of a context under a key schedule and, in RandomDelta, the delta. -/
def driverOf (P : Params) (ks : Bytes) (c : Context) (delta : Bytes) : Driver where
  size := P.S
  enc := encWith P ks
  dec := decWith P ks
  mode := c.mode
  pad := c.pad
  iv := c.iv
  delta := delta

/-- The padded modes: ECB, CBC, PCBC, RandomDelta (41_mode_drivers.md R230). -/
def padded : Mode → Bool
  | .ecb => true
  | .cbc => true
  | .pcbc => true
  | .cfb => false
  | .ofb => false
  | .ctr => false
  | .randomDelta => true

/-- The modes whose blocks are independent: ECB and CTR (41_mode_drivers.md R231). -/
def independent : Mode → Bool
  | .ecb => true
  | .cbc => false
  | .pcbc => false
  | .cfb => false
  | .ofb => false
  | .ctr => true
  | .randomDelta => false

/-- `Ctr(i)` (41_mode_drivers.md R246): the whole block is one big-endian counter. -/
def counterBlock (d : Driver) (i : Nat) : Bytes :=
  toBigEndian d.size ((bigEndian d.iv + i % 2 ^ 64) % 256 ^ d.size)

/-- 41_mode_drivers.md R233. -/
def ecbEncrypt (d : Driver) (prev x : Bytes) : Bytes × Bytes := (d.enc x, prev)

/-- 41_mode_drivers.md R234. -/
def ecbDecrypt (d : Driver) (prev x : Bytes) : Bytes × Bytes := (d.dec x, prev)

/-- 41_mode_drivers.md R235. -/
def cbcEncrypt (d : Driver) (prev x : Bytes) : Bytes × Bytes :=
  let y := d.enc (xorBytes x prev)
  (y, y)

/-- 41_mode_drivers.md R236. -/
def cbcDecrypt (d : Driver) (prev x : Bytes) : Bytes × Bytes := (xorBytes (d.dec x) prev, x)

/-- 41_mode_drivers.md R237. -/
def pcbcEncrypt (d : Driver) (prev x : Bytes) : Bytes × Bytes :=
  let y := d.enc (xorBytes x prev)
  (y, xorBytes x y)

/-- 41_mode_drivers.md R238. -/
def pcbcDecrypt (d : Driver) (prev x : Bytes) : Bytes × Bytes :=
  let y := xorBytes (d.dec x) prev
  (y, xorBytes y x)

/-- 41_mode_drivers.md R239. -/
def cfbEncrypt (d : Driver) (prev x : Bytes) : Bytes × Bytes :=
  let y := xorBytes x (trunc x.length (d.enc prev))
  (y, zext d.size y)

/-- 41_mode_drivers.md R240. -/
def cfbDecrypt (d : Driver) (prev x : Bytes) : Bytes × Bytes :=
  (xorBytes x (trunc x.length (d.enc prev)), zext d.size x)

/-- 41_mode_drivers.md R241. -/
def ofbEncrypt (d : Driver) (prev x : Bytes) : Bytes × Bytes :=
  let ks := d.enc prev
  (xorBytes x (trunc x.length ks), ks)

/-- 41_mode_drivers.md R242. -/
def ofbDecrypt (d : Driver) (prev x : Bytes) : Bytes × Bytes :=
  let ks := d.enc prev
  (xorBytes x (trunc x.length ks), ks)

/-- 41_mode_drivers.md R243. -/
def randomDeltaEncrypt (d : Driver) (prev x : Bytes) : Bytes × Bytes :=
  (d.enc (xorBytes x prev), xorBytes prev d.delta)

/-- 41_mode_drivers.md R244. -/
def randomDeltaDecrypt (d : Driver) (prev x : Bytes) : Bytes × Bytes :=
  (xorBytes (d.dec x) prev, xorBytes prev d.delta)

/-- 41_mode_drivers.md R245. -/
def ctrEncrypt (d : Driver) (prev : Bytes) (i : Nat) (x : Bytes) : Bytes × Bytes :=
  (xorBytes x (trunc x.length (d.enc (counterBlock d i))), prev)

/-- 41_mode_drivers.md R247. -/
def ctrDecrypt (d : Driver) (prev : Bytes) (i : Nat) (x : Bytes) : Bytes × Bytes :=
  (xorBytes x (trunc x.length (d.enc (counterBlock d i))), prev)

/-- `Step(mode, dir, prev, i, x)`: the output segment and the next chaining register
(41_mode_drivers.md R249). -/
def blockStep (d : Driver) (dir : Direction) (prev : Bytes) (i : Nat) (x : Bytes) : Bytes × Bytes :=
  match d.mode, dir with
  | .ecb, .enc => ecbEncrypt d prev x
  | .ecb, .dec => ecbDecrypt d prev x
  | .cbc, .enc => cbcEncrypt d prev x
  | .cbc, .dec => cbcDecrypt d prev x
  | .pcbc, .enc => pcbcEncrypt d prev x
  | .pcbc, .dec => pcbcDecrypt d prev x
  | .cfb, .enc => cfbEncrypt d prev x
  | .cfb, .dec => cfbDecrypt d prev x
  | .ofb, .enc => ofbEncrypt d prev x
  | .ofb, .dec => ofbDecrypt d prev x
  | .ctr, .enc => ctrEncrypt d prev i x
  | .ctr, .dec => ctrDecrypt d prev i x
  | .randomDelta, .enc => randomDeltaEncrypt d prev x
  | .randomDelta, .dec => randomDeltaDecrypt d prev x

/-- What a run leaves: the output, the chaining register and the next block position. -/
structure RunResult where
  out : Bytes
  prev : Bytes
  index : BitVec 64
deriving DecidableEq, Repr

/-- `Run(dir, prev, b, xs)`: strictly in order, the position counted modulo 2^64
(41_mode_drivers.md R249). -/
def run (d : Driver) (dir : Direction) (prev : Bytes) (b : BitVec 64) : List Bytes → RunResult
  | [] => ⟨[], prev, b⟩
  | x :: xs =>
    let first := blockStep d dir prev b.toNat x
    let rest := run d dir first.2 (b + 1) xs
    ⟨first.1 ++ rest.out, rest.prev, rest.index⟩

/-- The segments of a message to encrypt: padded first in a padded mode (41_mode_drivers.md R250). -/
def encSegments (d : Driver) (fill : Nat → Byte) (m : Bytes) : List Bytes :=
  if padded d.mode then segments d.size (padApply d.size d.pad fill m) else segments d.size m

/-- `EncMsg(M)` and the number of block positions it takes (41_mode_drivers.md R250). -/
def encMsg (d : Driver) (fill : Nat → Byte) (m : Bytes) : Bytes × BitVec 64 :=
  let r := run d .enc d.iv 0 (encSegments d fill m)
  (r.out, r.index)

/-- `DecMsg(C)` and the number of block positions it takes (41_mode_drivers.md R251). -/
def decMsg (d : Driver) (c : Bytes) : Bytes × BitVec 64 :=
  let r := run d .dec d.iv 0 (segments d.size c)
  (if padded d.mode then padRemove d.size d.pad r.out else r.out, r.index)

/-- How many draws `EncMsg` takes for a message of `len` bytes (40_padding.md R204, 41_mode_drivers.md
R230: only the padded modes pad). -/
def encDraws (d : Driver) (len : Nat) : Nat :=
  if padded d.mode then fillerCount d.size d.pad len else 0

end Sys2Proof.Machine
end

