-- ==== Sys2Proof/Machine/Scheduler.lean ====
section
/-! DEFINITION. The scheduler: slices, lanes and internal chunks of one `Run`, whose choices no result
depends on (42_scheduler_streaming.md R280-R285), and the stream computations with their withholding
rule (R288-R292). The commands use `run`, which R282 and R285 allow; `engineRun` is the scheduler's own
way to the same result. -/

namespace Sys2Proof.Machine

/-- A list cut into pieces of at most `size` elements, at most `fuel` of them. -/
def cutUpTo (size : Nat) : Nat → List Bytes → List (List Bytes)
  | 0, _ => []
  | fuel + 1, xs =>
    if xs = [] then [] else xs.take size :: cutUpTo size fuel (xs.drop size)

/-- Slices of at most `size` segments, in order (42_scheduler_streaming.md R281). -/
def cut (size : Nat) (xs : List Bytes) : List (List Bytes) := cutUpTo size xs.length xs

/-- One lane's work on its slice, given the absolute starting block index of the slice; a lane starts
from the shared chaining value and hands none on (42_scheduler_streaming.md R281). -/
def laneOutput (d : Driver) (dir : Direction) (prev : Bytes) (start : BitVec 64) (xs : List Bytes) :
    Bytes :=
  (run d dir prev start xs).out

/-- Each slice with its absolute starting block index (42_scheduler_streaming.md R281). -/
def withStarts (b : BitVec 64) : List (List Bytes) → List (BitVec 64 × List Bytes)
  | [] => []
  | xs :: rest => (b, xs) :: withStarts (b + BitVec.ofNat 64 xs.length) rest

/-- The lanes' results: slice `j` is written at its own place `j`, in the order in which the lanes
finish (42_scheduler_streaming.md R282, 20_memory.md R111). -/
def laneTable (d : Driver) (dir : Direction) (prev : Bytes) (jobs : List (BitVec 64 × List Bytes)) :
    List Nat → List Bytes → List Bytes
  | [], table => table
  | j :: order, table =>
    match jobs[j]? with
    | none => laneTable d dir prev jobs order table
    | some (start, xs) =>
      laneTable d dir prev jobs order (table.set j (laneOutput d dir prev start xs))

/-- The parallel path on given slices, with the lanes finishing in the given order; the outputs stand in
the original order (42_scheduler_streaming.md R281, R283). -/
def parallelRun (d : Driver) (dir : Direction) (prev : Bytes) (b : BitVec 64)
    (slices : List (List Bytes)) (order : List Nat) : Bytes :=
  (laneTable d dir prev (withStarts b slices) order (slices.map fun _ => [])).flatten

/-- The lane that works on slice `j` when slices are dealt round robin to the lanes
(42_scheduler_streaming.md R281: the split may be any the implementation chooses). -/
def laneOf (P : Params) (j : Nat) : Nat := j % P.numLanes

/-- One completion order: the lanes finish one after another, lane 0 with all its slices first. -/
def laneOrder (P : Params) (n : Nat) : List Nat :=
  (List.range P.numLanes).flatMap fun lane => (List.range n).filter fun j => laneOf P j == lane

/-- The sequential path cut into internal chunks; the chaining register and the position are carried
across chunk boundaries (42_scheduler_streaming.md R284, R285). -/
def chunkedRun (d : Driver) (dir : Direction) (prev : Bytes) (b : BitVec 64) :
    List (List Bytes) → RunResult
  | [] => ⟨[], prev, b⟩
  | xs :: rest =>
    let first := run d dir prev b xs
    let others := chunkedRun d dir first.prev first.index rest
    ⟨first.out ++ others.out, others.prev, others.index⟩

/-- Segments in one internal chunk of STREAM_CHUNK bytes, at least one (42_scheduler_streaming.md R285). -/
def chunkSegments (P : Params) : Nat := max 1 (P.streamChunk / P.S)

/-- The scheduler's path for one `Run` (42_scheduler_streaming.md R280, R284, R285): lanes for ECB and CTR,
one pass for inputs below DIRECT_THRESHOLD, chunks otherwise. ECB and CTR leave the chaining register as
it was and move the position past every segment (41_mode_drivers.md R233, R245, R249). -/
def engineRun (P : Params) (d : Driver) (dir : Direction) (prev : Bytes) (b : BitVec 64)
    (xs : List Bytes) : RunResult :=
  if independent d.mode then
    let slices := cut P.chunkCeil xs
    ⟨parallelRun d dir prev b slices (laneOrder P slices.length), prev,
      b + BitVec.ofNat 64 xs.length⟩
  else if xs.flatten.length < P.directThreshold then run d dir prev b xs
  else chunkedRun d dir prev b (cut (chunkSegments P) xs)

/-- The padded-decrypt class of streams (42_scheduler_streaming.md R288). -/
def paddedDecrypt (mode : Mode) (dir : Direction) : Bool := padded mode && (dir == .dec)

/-- The number of blocks processed now when `len` bytes are at hand (42_scheduler_streaming.md R290). -/
def blocksNow (size : Nat) (mode : Mode) (dir : Direction) (len : Nat) : Nat :=
  if paddedDecrypt mode dir then (if len = 0 then 0 else (len - 1) / size) else len / size

/-- The stream state that carries across commands (42_scheduler_streaming.md R286). -/
structure Carried where
  prev : Bytes
  index : BitVec 64
  hold : Bytes
deriving DecidableEq, Repr

/-- The start of every stream (42_scheduler_streaming.md R287). -/
def streamStart (d : Driver) : Carried := ⟨d.iv, 0, []⟩

/-- The update step on input `m`: the output and the carried state after it (42_scheduler_streaming.md
R290, R291). -/
def updateStep (d : Driver) (dir : Direction) (c : Carried) (m : Bytes) : Bytes × Carried :=
  let b := c.hold ++ m
  let n := blocksNow d.size d.mode dir b.length
  let r := run d dir c.prev c.index (segments d.size (slice b 0 (n * d.size)))
  (r.out, ⟨r.prev, r.index, slice b (n * d.size) b.length⟩)

/-- The bytes a plain padded encryption stream still processes at its end (42_scheduler_streaming.md
R292). -/
def finalTail (d : Driver) (fill : Nat → Byte) (c : Carried) : Bytes :=
  if d.pad = .zeros then
    if c.index = 0 ∧ c.hold = [] then zeros d.size
    else if c.hold = [] then []
    else c.hold ++ zeros (d.size - c.hold.length)
  else padApply d.size d.pad fill c.hold

/-- The final step: the output and the last block position; the commands check first that a
padded-decrypt stream holds nothing or one whole block (42_scheduler_streaming.md R292). -/
def finalStep (d : Driver) (dir : Direction) (fill : Nat → Byte) (c : Carried) : Bytes × BitVec 64 :=
  if paddedDecrypt d.mode dir then
    if c.hold = [] then ([], c.index)
    else
      let r := run d .dec c.prev c.index [c.hold]
      (removeLast d.size d.pad r.out, r.index)
  else if padded d.mode then
    let r := run d .enc c.prev c.index (segments d.size (finalTail d fill c))
    (r.out, r.index)
  else
    let r := run d dir c.prev c.index (if c.hold = [] then [] else [c.hold])
    (r.out, r.index)

/-- How many draws the final step takes (42_scheduler_streaming.md R292, 40_padding.md R204). -/
def finalDraws (d : Driver) (dir : Direction) (c : Carried) : Nat :=
  if paddedDecrypt d.mode dir then 0
  else if padded d.mode then fillerCount d.size d.pad c.hold.length
  else 0

/-- A whole stream: the updates' outputs in order, then the final step's (42_scheduler_streaming.md
R293). -/
def streamFrom (d : Driver) (dir : Direction) (fill : Nat → Byte) (c : Carried) :
    List Bytes → Bytes × BitVec 64
  | [] => finalStep d dir fill c
  | m :: ms =>
    let u := updateStep d dir c m
    let rest := streamFrom d dir fill u.2 ms
    (u.1 ++ rest.1, rest.2)

end Sys2Proof.Machine
end

