-- ==== Sys2Proof/Machine/Operands.lean ====
section
/-! DEFINITION. The operands of a command: what issue latches (10_state.md R62), the source and write
ranges (20_memory.md R106), the write bound (43_commands.md R322), and the conditions of the checks
(60_exceptions.md R401). -/

namespace Sys2Proof.Machine

/-- The operand registers and windows, sampled with a command word (43_commands.md R320). -/
def latchOf (s : State) (w : Word) : Latch where
  word := w
  srcAddr := s.srcAddr
  srcLen := s.srcLen
  dstAddr := s.dstAddr
  dstCap := s.dstCap
  ivLen := s.ivLen
  deltaLen := s.deltaLen
  keyLen := s.keyLen
  iv := s.iv
  delta := s.delta
  key := s.key

/-- An interval `[base, base + len)` of naturals (20_memory.md R106). -/
structure Range where
  base : Nat
  len : Nat
deriving DecidableEq, Repr

/-- An address lies in a range. -/
def Range.has (r : Range) (a : Nat) : Bool := decide (r.base ≤ a) && decide (a < r.base + r.len)

/-- The number of source bytes: L for ENCRYPT, DECRYPT and STREAM_UPDATE; the other commands have no
source range (20_memory.md R106). -/
def sourceCount (i : Instr) (l : Latch) : Nat :=
  match i with
  | .encrypt => l.srcLen.toNat
  | .decrypt => l.srcLen.toNat
  | .streamUpdate => l.srcLen.toNat
  | .nop => 0
  | .ctxInit _ _ => 0
  | .ctxClear => 0
  | .setKey => 0
  | .streamBegin _ => 0
  | .streamFinal => 0

/-- WLEN of ENCRYPT (43_commands.md R322). -/
def encryptBound (P : Params) (c : Context) (l : Latch) : Nat :=
  if padded c.mode then paddedLength P.S c.pad l.srcLen.toNat else l.srcLen.toNat

/-- WLEN of STREAM_UPDATE (43_commands.md R322). -/
def updateBound (P : Params) (c : Context) (s : State) (l : Latch) : Nat :=
  blocksNow P.S c.mode s.streamDir (s.hold.length + l.srcLen.toNat) * P.S

/-- WLEN of STREAM_FINAL (43_commands.md R322). -/
def finalBound (P : Params) (c : Context) (s : State) : Nat :=
  if padded c.mode = true ∧ s.streamDir = .enc then
    (if c.pad = .zeros ∧ s.hold = [] ∧ s.blkIdx ≠ 0 then 0 else P.S)
  else s.hold.length

/-- WLEN, the write bound of a command (43_commands.md R322). A command that needs a context and has none
fails with NO_CONTEXT and writes nothing. -/
def writeBound (P : Params) (i : Instr) (l : Latch) (s : State) : Nat :=
  match s.ctx with
  | none => 0
  | some c =>
    match i with
    | .encrypt => encryptBound P c l
    | .decrypt => l.srcLen.toNat
    | .streamUpdate => updateBound P c s l
    | .streamFinal => finalBound P c s
    | .nop => 0
    | .ctxInit _ _ => 0
    | .ctxClear => 0
    | .setKey => 0
    | .streamBegin _ => 0

/-- The source range of a command (20_memory.md R106). -/
def sourceRange (i : Instr) (l : Latch) : Range := ⟨l.srcAddr.toNat, sourceCount i l⟩

/-- The write range of a command (20_memory.md R106). -/
def writeRange (P : Params) (i : Instr) (l : Latch) (s : State) : Range :=
  ⟨l.dstAddr.toNat, writeBound P i l s⟩

/-- A range runs past the top of the address space (20_memory.md R106). -/
def Range.pastTop (r : Range) : Bool := decide (0 < r.len) && decide (addressLimit < r.base + r.len)

/-- Two nonempty ranges share an address (20_memory.md R107). -/
def Range.overlaps (r q : Range) : Bool :=
  decide (0 < r.len) && decide (0 < q.len) && decide (r.base < q.base + q.len)
    && decide (q.base < r.base + r.len)

/-- ADDR_RANGE (60_exceptions.md R401). -/
def addrRangeFails (P : Params) (i : Instr) (l : Latch) (s : State) : Bool :=
  (sourceRange i l).pastTop || (writeRange P i l s).pastTop

/-- OVERLAP (60_exceptions.md R401). -/
def overlapFails (P : Params) (i : Instr) (l : Latch) (s : State) : Bool :=
  (sourceRange i l).overlaps (writeRange P i l s)

/-- CAPACITY: the write bound exceeds DST_CAP (60_exceptions.md R401). -/
def capacityFails (P : Params) (i : Instr) (l : Latch) (s : State) : Bool :=
  decide (l.dstCap.toNat < writeBound P i l s)

/-- IV_LENGTH: IVLEN is neither 0 nor S in a mode that uses an IV (60_exceptions.md R401). -/
def ivLengthFails (P : Params) (m : Mode) (l : Latch) : Bool :=
  (m != .ecb) && (l.ivLen.toNat != 0) && (l.ivLen.toNat != P.S)

/-- DELTA_LENGTH: DELTALEN is not S in RandomDelta (60_exceptions.md R401). -/
def deltaLengthFails (P : Params) (m : Mode) (l : Latch) : Bool :=
  (m == .randomDelta) && (l.deltaLen.toNat != P.S)

/-- LENGTH at DECRYPT: a padded mode and L no multiple of S (43_commands.md R335). -/
def decryptLengthFails (P : Params) (c : Context) (l : Latch) : Bool :=
  padded c.mode && (l.srcLen.toNat % P.S != 0)

/-- LENGTH at STREAM_FINAL: a padded-decrypt stream that holds neither nothing nor a whole block
(43_commands.md R338). -/
def finalLengthFails (P : Params) (c : Context) (s : State) : Bool :=
  paddedDecrypt c.mode s.streamDir && (s.hold.length != 0) && (s.hold.length != P.S)

/-- An IV is latched: the mode uses one and IVLEN = S (43_commands.md R330). -/
def latchesIv (P : Params) (m : Mode) (l : Latch) : Bool := (m != .ecb) && (l.ivLen.toNat == P.S)

/-- The chaining value CTX_INIT latches: IV[0..S) or the zero block; no value where a byte of it was never
written (43_commands.md R330, 10_state.md R64). -/
def ivOperand (P : Params) (m : Mode) (l : Latch) : Option Bytes :=
  if latchesIv P m l then windowBytes l.iv P.S else some (zeros P.S)

/-- The delta CTX_INIT latches: DELTA[0..S) in RandomDelta, else none is written; no value where a byte of
it was never written (43_commands.md R330, 10_state.md R64). -/
def deltaOperand (P : Params) (m : Mode) (l : Latch) : Option (Option Bytes) :=
  if m = .randomDelta then (windowBytes l.delta P.S).map some else some none

/-- KEY[0..KEYLEN); no value where a byte of it was never written (43_commands.md R332). -/
def keyOperand (l : Latch) : Option Bytes := windowBytes l.key l.keyLen.toNat

end Sys2Proof.Machine
end

