-- ==== Sys2Proof/Machine/Ops.lean ====
section
/-! DEFINITION. The shared operations: issue, completion and failure (43_commands.md R320, R323,
60_exceptions.md R400-R403), the bus error (R339), the DMA transfer of a data command, the engine
controller's turn (R321), and reset (70_reset_and_hazards.md R450, R451). MOE has no trap to take and
none to return from (60_exceptions.md R400, R406): `fail` is its one way to report an error. -/

namespace Sys2Proof.Machine

/-- What a step or a meaning answers. -/
abbrev Result := Host.Outcome State Fault Refusal

/-- A command word latched into st.PENDING with its operands, and the completion flags cleared
(43_commands.md R320, second branch). -/
def accept (s : State) (w : Word) : State :=
  { s with pending := some (latchOf s w), done := false, err := false, ecode := .none }

/-- A host write of `w` to CMD (43_commands.md R320). -/
def issue (s : State) (w : Word) : State :=
  match s.pending with
  | some _ => { s with rej := true }
  | none => accept s w

/-- `complete(code)` with the command's output length (43_commands.md R323). -/
def complete (code : ErrorCode) (outLen : Nat) (s : State) : State :=
  { s with
    ecode := code
    err := code != .none
    outLen := if code = .none then BitVec.ofNat 32 outLen else 0
    done := true
    pending := none }

/-- `raise Error(code)`: the command ends with `complete(code)` and nothing else changes
(60_exceptions.md R400, R403). -/
def fail (code : ErrorCode) (s : State) : Result := .next (complete code 0 s)

/-- The perform of the command in flight; with none, the engine controller has no step
(43_commands.md R321). -/
def inFlight (s : State) (k : Latch → Result) : Result :=
  match s.pending with
  | none => .fault .noCommandInFlight
  | some l => k l

/-- The first check that fails, in the order given (60_exceptions.md R402). -/
def firstFailure : List (ErrorCode × Bool) → Option ErrorCode
  | [] => none
  | (code, fails) :: rest => if fails then some code else firstFailure rest

/-- Run the checks in order: the first failing one is reported, none evaluated after it
(60_exceptions.md R402); with all passed, `k`. -/
def withChecks (checks : List (ErrorCode × Bool)) (s : State) (k : Result) : Result :=
  match firstFailure checks with
  | some code => fail code s
  | none => k

/-- Check NO_CONTEXT, the first check of every data command after BAD_CMD (60_exceptions.md R401). -/
def withContext (s : State) (k : Context → Result) : Result :=
  match s.ctx with
  | none => fail .noContext s
  | some c => k c

/-- The driver of the context under st.KS; consuming an absent key schedule or delta is a fault
(10_state.md R64). -/
def withDriver (P : Params) (s : State) (c : Context) (k : Driver → Result) : Result :=
  match s.ks with
  | none => .fault (.noValue .keySchedule)
  | some ks =>
    match c.mode, c.delta with
    | .randomDelta, none => .fault (.noValue .ctxDelta)
    | _, delta => k (driverOf P ks c (delta.getD []))

/-- The carried state of the open stream; consuming an absent st.PREV is a fault (10_state.md R57, R64). -/
def withCarried (s : State) (k : Carried → Result) : Result :=
  match s.prev with
  | none => .fault (.noValue .prev)
  | some prev => k ⟨prev, s.blkIdx, s.hold⟩

/-- Close an open stream: st.STREAM_OPEN <- false, st.HOLD <- [], st.PREV holds no value
(43_commands.md R331, 42_scheduler_streaming.md R294). -/
def closeStream (s : State) : State :=
  if s.streamOpen then { s with streamOpen := false, hold := [], prev := none } else s

/-- `n` bytes from address `a` on take free values (93_implementation_defined.md `any value`). -/
def scramble (P : Params) (a n : Nat) (s : State) : State :=
  { s with mem := s.mem.writeRange a (freeBytes P s.free n), free := s.free + n }

/-- A bus error during a perform: the write range and st.BLKIDX hold unspecified values, an open stream
closes, and `complete(BUS_ERROR)` follows (43_commands.md R339). -/
def busError (P : Params) (l : Latch) (wlen : Nat) (s : State) : State :=
  let s1 := closeStream (scramble P l.dstAddr.toNat wlen s)
  complete .busError 0 { s1 with blkIdx := P.freeIndex s1.free, free := s1.free + 1 }

/-- The memory agent's answer for the next range, of `n` bytes; a range of no byte is not accessed and cannot be
refused (20_memory.md R108; log 11). -/
def nextAnswer (s : State) (n : Nat) : MemAnswer :=
  if n = 0 then .admits else s.busAnswers.headD .admits

/-- The answer for a range of `n` bytes is given. -/
def State.answered (s : State) (n : Nat) : State :=
  if n = 0 then s else { s with busAnswers := s.busAnswers.tail }

/-- Two answers together: side effects in either range leave the command without a meaning (20_memory.md R105);
otherwise a refusal in either is a bus error (R108). -/
def MemAnswer.both : MemAnswer → MemAnswer → MemAnswer
  | .sideEffects, _ => .sideEffects
  | .admits, .sideEffects => .sideEffects
  | .refuses, .sideEffects => .sideEffects
  | .refuses, .admits => .refuses
  | .refuses, .refuses => .refuses
  | .admits, .refuses => .refuses
  | .admits, .admits => .admits

/-- The memory agent's answer for a source range of `count` bytes and a write range of `wlen` bytes
(20_memory.md R105, R108; log 11, log 12). -/
def rangesAnswer (s : State) (count wlen : Nat) : MemAnswer :=
  (nextAnswer s count).both (nextAnswer (s.answered count) wlen)

/-- Both answers are given. -/
def State.rangesAnswered (s : State) (count wlen : Nat) : State := (s.answered count).answered wlen

/-- The output at DST_ADDR, and free values in the rest of the write range (43_commands.md R334, R335,
R337, R338). -/
def writeOutput (P : Params) (l : Latch) (wlen : Nat) (out : Bytes) (s : State) : State :=
  let rest := wlen - out.length
  { s with
    mem := s.mem.writeRange l.dstAddr.toNat (out ++ freeBytes P s.free rest)
    free := s.free + rest }

/-- The DMA transfer of a data command after its checks: MemRead of `count` bytes at SRC_ADDR, the
computation `body` of the output and of the state it leaves, MemWrite at DST_ADDR, completion; a refused
access is a bus error (43_commands.md R334, R335, R337, R338, R339). The engine may write every byte of the
write range, so that the memory agent answers for all `wlen` of them, also where the output is shorter. -/
def transfer (P : Params) (l : Latch) (count wlen : Nat) (body : Bytes → State → Bytes × State)
    (s : State) : Result :=
  let s1 := s.rangesAnswered count wlen
  match rangesAnswer s count wlen with
  | .sideEffects => .refused .sideEffectMemory
  | .refuses => .next (busError P l wlen s1)
  | .admits =>
    let work := body (s1.mem.readRange l.srcAddr.toNat count) s1
    .next (complete .none work.1.length (writeOutput P l wlen work.1 work.2))

/-- The engine controller's turn: the perform of the command in flight (43_commands.md R321), where an
illegal word fails with BAD_CMD (30_encoding.md R146); with no command in flight nothing happens. -/
def engineTurn (perform : Instr → State → Result) (s : State) : Result :=
  match s.pending with
  | none => .next s
  | some l =>
    match decode l.word with
    | .ok i => perform i s
    | .error _ => fail .badCmd s

/-- The legal command in flight, with its latch. -/
def legalInFlight (s : State) : Option (Instr × Latch) :=
  match s.pending with
  | none => none
  | some l =>
    match decode l.word with
    | .ok i => some (i, l)
    | .error _ => none

/-- An address lies in the write range of the command in flight (20_memory.md R106, R110). -/
def inWriteRange (P : Params) (s : State) (a : Nat) : Bool :=
  match legalInFlight s with
  | none => false
  | some (i, l) => (writeRange P i l s).has a

/-- An address lies in the source range of the command in flight (20_memory.md R106, R110). -/
def inSourceRange (s : State) (a : Nat) : Bool :=
  match legalInFlight s with
  | none => false
  | some (i, l) => (sourceRange i l).has a

/-- The bytes from address `a` on after an abandoned write: a byte of the range `keep` holds what it held,
every other byte takes a free value. -/
def abandonedBytes (P : Params) (keep : Range) (a n : Nat) (s : State) : Bytes :=
  (List.range n).map fun i =>
    if keep.has (a + i) then s.mem.read (a + i) else P.freeByte (s.free + i)

/-- A reset abandons the command in flight: its write range holds unspecified values, as far as it lies in
the address space, and its source range is not written (70_reset_and_hazards.md R451). -/
def abandon (P : Params) (s : State) : State :=
  match legalInFlight s with
  | none => s
  | some (i, l) =>
    let r := writeRange P i l s
    let n := min r.len (addressLimit - r.base)
    { s with
      mem := s.mem.writeRange r.base (abandonedBytes P (sourceRange i l) r.base n s)
      free := s.free + n }

/-- The effect of a reset: every register and internal element takes its reset value; memory, and what is not
MOE's, stay (70_reset_and_hazards.md R450, R451). -/
def resetAction (P : Params) (s : State) : State :=
  let s1 := abandon P s
  { State.reset with
    mem := s1.mem
    free := s1.free
    busAnswers := s1.busAnswers
    events := s1.events
    answer := s1.answer }

/-- The reset input as an event: refused where a range of the command it abandons has side effects, since the
engine may have accessed it (20_memory.md R105; log 12). -/
def hostReset (P : Params) (s : State) : Result :=
  match legalInFlight s with
  | none => .next (resetAction P s)
  | some (i, l) =>
    if rangesAnswer s (sourceCount i l) (writeBound P i l s) = .sideEffects then
      .refused .sideEffectMemory
    else .next (resetAction P s)

/-- A command word put where the next step performs it: issued into an idle engine, whose turn comes next
(43_commands.md R320, R321; log 17). -/
def placeCommand (s : State) (w : Word) : State :=
  { accept s w with events := .engine :: s.events }

end Sys2Proof.Machine
end

