-- ==== Sys2Proof/Machine/Control.lean ====
section
/-! DEFINITION. The context and key commands: NOP, CTX_INIT, CTX_CLEAR, SET_KEY (43_commands.md R330-R333).
Check 1 of every command, BAD_CMD, is the decoder's (30_encoding.md R146), MODE = 7 apart. -/

namespace Sys2Proof.Machine

/-- NOP (43_commands.md R333). -/
def execNop (s : State) : Result := inFlight s fun _ => .next (complete .none 0 s)

/-- CTX_INIT for a defined mode (43_commands.md R330). -/
def createContext (P : Params) (m : Mode) (pad : PaddingKind) (l : Latch) (s : State) : Result :=
  withChecks
    [(.ctxLocked, s.ctxValid), (.ivLength, ivLengthFails P m l),
      (.deltaLength, deltaLengthFails P m l)] s
    (match ivOperand P m l, deltaOperand P m l with
      | none, _ => .fault (.noValue .ivWindow)
      | some _, none => .fault (.noValue .deltaWindow)
      | some iv, some delta =>
        .next (complete .none 0
          { s with ctx := some ⟨m, pad, latchesIv P m l, iv, delta⟩ }))

/-- CTX_INIT under parameters `P` (43_commands.md R330). -/
def ctxInitWith (P : Params) (mode : BitVec 3) (pad : PaddingKind) (s : State) : Result :=
  inFlight s fun l =>
    match Mode.ofBits mode with
    | none => fail .badCmd s
    | some m => createContext P m pad l s

/-- CTX_INIT (43_commands.md R330). -/
def execCtxInit (mode : BitVec 3) (pad : PaddingKind) (s : State) : Result :=
  ctxInitWith Config.chip mode pad s

/-- CTX_CLEAR (43_commands.md R331). -/
def execCtxClear (s : State) : Result :=
  inFlight s fun _ => .next (complete .none 0 { closeStream s with ctx := none })

/-- SET_KEY under parameters `P` (43_commands.md R332). -/
def setKeyWith (P : Params) (s : State) : Result :=
  inFlight s fun l =>
    withChecks
      [(.streamState, s.streamOpen), (.keyError, decide (MAXKEY < l.keyLen.toNat))] s
      (match keyOperand l with
        | none => .fault (.noValue .keyWindow)
        | some key =>
          match P.setKey key with
          | none => fail .keyError s
          | some ks => .next (complete .none 0 { s with ks := some ks }))

/-- SET_KEY (43_commands.md R332). -/
def execSetKey (s : State) : Result := setKeyWith Config.chip s

end Sys2Proof.Machine
end

