-- ==== Sys2Proof/Machine/SingleShot.lean ====
section
/-! DEFINITION. The single-shot commands ENCRYPT and DECRYPT (43_commands.md R334, R335). -/

namespace Sys2Proof.Machine

/-- The free values that stand for the ISO10126 filler of a command: the next draws (40_padding.md R204). -/
def fillFrom (P : Params) (s : State) : Nat → Byte := fun i => P.freeByte (s.free + i)

/-- What ENCRYPT computes from the source bytes: the ciphertext, and st.BLKIDX (43_commands.md R334). -/
def encryptBody (P : Params) (d : Driver) (m : Bytes) (s : State) : Bytes × State :=
  let r := encMsg d (fillFrom P s) m
  (r.1, { s with blkIdx := r.2, free := s.free + encDraws d m.length })

/-- What DECRYPT computes from the source bytes: the plaintext, and st.BLKIDX (43_commands.md R335). -/
def decryptBody (d : Driver) (m : Bytes) (s : State) : Bytes × State :=
  let r := decMsg d m
  (r.1, { s with blkIdx := r.2 })

/-- ENCRYPT under parameters `P` (43_commands.md R334). -/
def encryptWith (P : Params) (s : State) : Result :=
  inFlight s fun l => withContext s fun c =>
    withChecks
      [(.streamState, s.streamOpen), (.noKey, !s.keyValid),
        (.addrRange, addrRangeFails P .encrypt l s), (.overlap, overlapFails P .encrypt l s),
        (.capacity, capacityFails P .encrypt l s)] s
      (withDriver P s c fun d =>
        transfer P l l.srcLen.toNat (encryptBound P c l) (encryptBody P d) s)

/-- ENCRYPT (43_commands.md R334). -/
def execEncrypt (s : State) : Result := encryptWith Config.chip s

/-- DECRYPT under parameters `P` (43_commands.md R335). -/
def decryptWith (P : Params) (s : State) : Result :=
  inFlight s fun l => withContext s fun c =>
    withChecks
      [(.streamState, s.streamOpen), (.noKey, !s.keyValid),
        (.length, decryptLengthFails P c l),
        (.addrRange, addrRangeFails P .decrypt l s), (.overlap, overlapFails P .decrypt l s),
        (.capacity, capacityFails P .decrypt l s)] s
      (withDriver P s c fun d =>
        transfer P l l.srcLen.toNat l.srcLen.toNat (decryptBody d) s)

/-- DECRYPT (43_commands.md R335). -/
def execDecrypt (s : State) : Result := decryptWith Config.chip s

end Sys2Proof.Machine
end

