-- ==== Sys2Proof/Machine/Streams.lean ====
section
/-! DEFINITION. The stream commands STREAM_BEGIN, STREAM_UPDATE and STREAM_FINAL (43_commands.md
R336-R338, 42_scheduler_streaming.md R286-R295). -/

namespace Sys2Proof.Machine

/-- STREAM_BEGIN (43_commands.md R336, 42_scheduler_streaming.md R287). -/
def execStreamBegin (dir : Direction) (s : State) : Result :=
  inFlight s fun _ => withContext s fun c =>
    withChecks [(.streamState, s.streamOpen), (.noKey, !s.keyValid)] s
      (.next (complete .none 0
        { s with
          streamOpen := true
          streamDir := dir
          prev := some c.iv
          blkIdx := 0
          hold := [] }))

/-- What STREAM_UPDATE computes from the chunk (42_scheduler_streaming.md R290, R291). -/
def updateBody (d : Driver) (carried : Carried) (m : Bytes) (s : State) : Bytes × State :=
  let u := updateStep d s.streamDir carried m
  (u.1, { s with prev := some u.2.prev, blkIdx := u.2.index, hold := u.2.hold })

/-- What STREAM_FINAL computes from the withheld bytes, and the stream closed
(42_scheduler_streaming.md R292). -/
def finalBody (P : Params) (d : Driver) (carried : Carried) (s : State) : Bytes × State :=
  let r := finalStep d s.streamDir (fillFrom P s) carried
  (r.1,
    { s with
      blkIdx := r.2
      hold := []
      streamOpen := false
      prev := none
      free := s.free + finalDraws d s.streamDir carried })

/-- STREAM_UPDATE under parameters `P` (43_commands.md R337). -/
def streamUpdateWith (P : Params) (s : State) : Result :=
  inFlight s fun l => withContext s fun c =>
    withChecks
      [(.streamState, !s.streamOpen),
        (.addrRange, addrRangeFails P .streamUpdate l s),
        (.overlap, overlapFails P .streamUpdate l s),
        (.capacity, capacityFails P .streamUpdate l s)] s
      (withDriver P s c fun d => withCarried s fun carried =>
        transfer P l l.srcLen.toNat (updateBound P c s l) (updateBody d carried) s)

/-- STREAM_UPDATE (43_commands.md R337). -/
def execStreamUpdate (s : State) : Result := streamUpdateWith Config.chip s

/-- STREAM_FINAL under parameters `P` (43_commands.md R338): no source range, so no OVERLAP check. -/
def streamFinalWith (P : Params) (s : State) : Result :=
  inFlight s fun l => withContext s fun c =>
    withChecks
      [(.streamState, !s.streamOpen), (.length, finalLengthFails P c s),
        (.addrRange, addrRangeFails P .streamFinal l s),
        (.capacity, capacityFails P .streamFinal l s)] s
      (withDriver P s c fun d => withCarried s fun carried =>
        transfer P l 0 (finalBound P c s) (fun _ s1 => finalBody P d carried s1) s)

/-- STREAM_FINAL (43_commands.md R338). -/
def execStreamFinal (s : State) : Result := streamFinalWith Config.chip s

end Sys2Proof.Machine
end

