-- ==== Sys2Proof/Machine/Dispatch.lean ====
section
/-! DEFINITION. The perform of a decoded command: one arm per constructor of `Instr` (43_commands.md R321). -/

namespace Sys2Proof.Machine

def exec (i : Instr) (s : State) : Host.Outcome State Fault Refusal :=
  match i with
  | .nop => Sys2Proof.Machine.execNop s
  | .ctxInit mode pad => Sys2Proof.Machine.execCtxInit mode pad s
  | .ctxClear => Sys2Proof.Machine.execCtxClear s
  | .setKey => Sys2Proof.Machine.execSetKey s
  | .encrypt => Sys2Proof.Machine.execEncrypt s
  | .decrypt => Sys2Proof.Machine.execDecrypt s
  | .streamBegin dir => Sys2Proof.Machine.execStreamBegin dir s
  | .streamUpdate => Sys2Proof.Machine.execStreamUpdate s
  | .streamFinal => Sys2Proof.Machine.execStreamFinal s

end Sys2Proof.Machine
end

