-- ==== Sys2Proof/Machine/HostPort.lean ====
section
/-! DEFINITION. The host's side: the register window by offset (10_state.md R33-R54), host accesses to
memory (20_memory.md R110), and one step of the whole machine as the outside world drives it
(00_scope.md R5, 60_exceptions.md R405). -/

namespace Sys2Proof.Machine

/-- The register at a word-aligned offset (10_state.md R33). -/
def regAt (off : BitVec 12) : Reg :=
  match off.toNat with
  | 0x000 => .cmd
  | 0x004 => .status
  | 0x008 => .irqEn
  | 0x00C => .ctxCfg
  | 0x010 => .srcAddr
  | 0x014 => .srcLen
  | 0x018 => .dstAddr
  | 0x01C => .dstCap
  | 0x020 => .outLen
  | 0x024 => .ivLen
  | 0x028 => .deltaLen
  | 0x02C => .keyLen
  | 0x030 => .blkSz
  | 0x034 => .hwCfg
  | 0x038 => .blkIdxLo
  | 0x03C => .blkIdxHi
  | 0x040 => .holdLen
  | n =>
    if 0x080 ≤ n ∧ n < 0x0A0 then .ivWord (Fin.ofNat 8 ((n - 0x080) / 4))
    else if 0x0A0 ≤ n ∧ n < 0x0C0 then .deltaWord (Fin.ofNat 8 ((n - 0x0A0) / 4))
    else if 0x0C0 ≤ n ∧ n < 0x100 then .keyWord (Fin.ofNat 16 ((n - 0x0C0) / 4))
    else .reserved

/-- The offset of a register; for the reserved ones the first of them (10_state.md R33). -/
def regOffset : Reg → BitVec 12
  | .cmd => 0x000
  | .status => 0x004
  | .irqEn => 0x008
  | .ctxCfg => 0x00C
  | .srcAddr => 0x010
  | .srcLen => 0x014
  | .dstAddr => 0x018
  | .dstCap => 0x01C
  | .outLen => 0x020
  | .ivLen => 0x024
  | .deltaLen => 0x028
  | .keyLen => 0x02C
  | .blkSz => 0x030
  | .hwCfg => 0x034
  | .blkIdxLo => 0x038
  | .blkIdxHi => 0x03C
  | .holdLen => 0x040
  | .ivWord k => BitVec.ofNat 12 (0x080 + 4 * k.val)
  | .deltaWord k => BitVec.ofNat 12 (0x0A0 + 4 * k.val)
  | .keyWord k => BitVec.ofNat 12 (0x0C0 + 4 * k.val)
  | .reserved => 0x044

/-- An access the bus interface takes: 32 bits wide at a word-aligned offset (10_state.md R34). -/
def wordAccess (off : BitVec 12) (bytes : Nat) : Bool := (bytes == 4) && (off.toNat % 4 == 0)

/-- The offset in the register window that a bus address names, where the platform places the window at
MMIO_BASE (10_state.md R33, 00_scope.md R6). -/
def windowOffset (P : Params) (addr : Nat) : Option (BitVec 12) :=
  if P.mmioBase ≤ addr ∧ addr < P.mmioBase + 4096 then some (BitVec.ofNat 12 (addr - P.mmioBase))
  else none

/-- What a register reads; `none` where it holds no value (10_state.md R33-R54). -/
def readReg (P : Params) (s : State) : Reg → Option Word
  | .cmd => some 0
  | .status => some (statusWord s)
  | .irqEn => some (flagAt 0 s.doneIe)
  | .ctxCfg => some (ctxCfgWord s)
  | .srcAddr => some s.srcAddr
  | .srcLen => some s.srcLen
  | .dstAddr => some s.dstAddr
  | .dstCap => some s.dstCap
  | .outLen => some s.outLen
  | .ivLen => some s.ivLen
  | .deltaLen => some s.deltaLen
  | .keyLen => some s.keyLen
  | .blkSz => some (BitVec.ofNat 32 P.S)
  | .hwCfg => some (BitVec.ofNat 32 (SMAX + 256 * MAXKEY))
  | .blkIdxLo => some (s.blkIdx.extractLsb' 0 32)
  | .blkIdxHi => some (s.blkIdx.extractLsb' 32 32)
  | .holdLen => some (BitVec.ofNat 32 (s.hold.length % 64))
  | .ivWord k => windowWord s.iv k.val
  | .deltaWord k => windowWord s.delta k.val
  | .keyWord _ => some 0
  | .reserved => some 0

/-- Which window a register without a value belongs to (10_state.md R64). -/
def absentOf : Reg → Absent
  | .deltaWord _ => .deltaWindow
  | .keyWord _ => .keyWindow
  | _ => .ivWindow

/-- A write of `v` to a register (10_state.md R34-R53): CMD issues, the W1C bits of STATUS clear, read-only
registers and bits keep their value. -/
def writeReg (s : State) (r : Reg) (v : Word) : State :=
  match r with
  | .cmd => issue s v
  | .status => { s with done := s.done && !v.getLsbD 1, rej := s.rej && !v.getLsbD 8 }
  | .irqEn => { s with doneIe := v.getLsbD 0 }
  | .ctxCfg => s
  | .srcAddr => { s with srcAddr := v }
  | .srcLen => { s with srcLen := v }
  | .dstAddr => { s with dstAddr := v }
  | .dstCap => { s with dstCap := v }
  | .outLen => s
  | .ivLen => { s with ivLen := v }
  | .deltaLen => { s with deltaLen := v }
  | .keyLen => { s with keyLen := v }
  | .blkSz => s
  | .hwCfg => s
  | .blkIdxLo => s
  | .blkIdxHi => s
  | .holdLen => s
  | .ivWord k => { s with iv := setWindowWord s.iv k.val v }
  | .deltaWord k => { s with delta := setWindowWord s.delta k.val v }
  | .keyWord k => { s with key := setWindowWord s.key k.val v }
  | .reserved => s

/-- A host read of the register window: no side effect (20_memory.md R105); a word without a value is a
fault (10_state.md R51, R64); another width or alignment is refused (R34). -/
def hostRegRead (P : Params) (off : BitVec 12) (bytes : Nat) (s : State) : Result :=
  if wordAccess off bytes then
    match readReg P s (regAt off) with
    | some w => .next { s with answer := some (.word w) }
    | none => .fault (.noValue (absentOf (regAt off)))
  else .refused .registerAccess

/-- A host write to the register window (10_state.md R34-R53). -/
def hostRegWrite (off : BitVec 12) (bytes : Nat) (v : Word) (s : State) : Result :=
  if wordAccess off bytes then .next (writeReg s (regAt off) v) else .refused .registerAccess

/-- A host read of one byte of memory: a free value inside the write range of the command in flight
(20_memory.md R110 part 3). -/
def hostMemRead (P : Params) (a : Word) (s : State) : Result :=
  if inWriteRange P s a.toNat then
    .next { s with answer := some (.byte (P.freeByte s.free)), free := s.free + 1 }
  else .next { s with answer := some (.byte (s.mem.read a.toNat)) }

/-- A host write of one byte of memory: refused inside the source or write range of the command in flight
(20_memory.md R110 part 4). -/
def hostMemWrite (P : Params) (a : Word) (b : Byte) (s : State) : Result :=
  if inSourceRange s a.toNat || inWriteRange P s a.toNat then .refused .hostWriteInFlight
  else .next { s with mem := s.mem.write a.toNat b }

/-- One event (00_scope.md R5). `perform` is the perform of a decoded command. -/
def runEvent (P : Params) (perform : Instr → State → Result) (e : Event) (s : State) : Result :=
  match e with
  | .regRead off bytes => hostRegRead P off bytes s
  | .regWrite off bytes v => hostRegWrite off bytes v s
  | .memRead a => hostMemRead P a s
  | .memWrite a b => hostMemWrite P a b s
  | .engine => engineTurn perform s
  | .reset => hostReset P s

/-- One step: the next event; with none left, the engine controller's turn (43_commands.md R321; log 6). -/
def stepWith (P : Params) (perform : Instr → State → Result) (s : State) : Result :=
  match s.events with
  | [] => engineTurn perform s
  | e :: rest => runEvent P perform e { s with events := rest }

end Sys2Proof.Machine
end

