-- ==== Sys2Proof/Machine/Step.lean ====
section
/-! DEFINITION. One step of the machine (00_scope.md R5, 43_commands.md R320, R321), and a command word put
where the next step performs it (log 17). -/

namespace Sys2Proof.Machine

/-- The next event, or the engine controller's turn. -/
def step (s : State) : Host.Outcome State Fault Refusal := stepWith Config.chip exec s

/-- The command word `w` issued into the engine, whose turn is next. -/
def State.withFetchWord (s : State) (nbits w : Nat) : State :=
  placeCommand s (BitVec.ofNat 32 (w % 2 ^ nbits))

end Sys2Proof.Machine
end

