-- ==== Sys2Proof/Machine/HostProgram.lean ====
section
/-! DEFINITION. Host programs: the operations and pseudo-instructions of 30_encoding.md R149 and R150 as
lists of events. WAIT is the engine's turn and the read of STATUS that then finds BUSY = 0, since the
perform is atomic (log 20). -/

namespace Sys2Proof.Machine.HostProgram

/-- `WR <REG>, <value>` (30_encoding.md R149). -/
def wr (r : Reg) (v : Word) : List Event := [.regWrite (regOffset r) 4 v]

/-- `RD <REG>` (30_encoding.md R149). -/
def rd (r : Reg) : List Event := [.regRead (regOffset r) 4]

/-- A command mnemonic stands for `WR CMD, <word>` (30_encoding.md R149). -/
def command (i : Instr) : List Event := wr .cmd (encode i)

/-- `WAIT` (30_encoding.md R150). -/
def wait : List Event := .engine :: rd .status

/-- `ACK` (30_encoding.md R150). -/
def ack : List Event := wr .status 0x00000102

/-- Word `k` of a byte string, missing bytes taken as 0 (30_encoding.md R150). -/
def packWord (x : Bytes) (k : Nat) : Word :=
  wordOfLanes (x.getD (4 * k) 0) (x.getD (4 * k + 1) 0) (x.getD (4 * k + 2) 0) (x.getD (4 * k + 3) 0)

/-- The writes of words 0 … ⌈n/4⌉-1 of a window. -/
def loadWords (reg : Nat → Reg) (x : Bytes) : List Event :=
  (List.range ((x.length + 3) / 4)).flatMap fun k => wr (reg k) (packWord x k)

/-- `LOADIV` (30_encoding.md R150). DESIGN CHOICE, unsafe (log 28): the spec names no word for the bytes beyond
the 32 of the window, and the model takes their word number modulo 8. -/
def loadIv (x : Bytes) : List Event :=
  wr .ivLen (BitVec.ofNat 32 x.length) ++ loadWords (fun k => .ivWord (Fin.ofNat 8 k)) x

/-- `LOADDELTA` (30_encoding.md R150). DESIGN CHOICE, unsafe (log 28): the spec names no word for the bytes
beyond the 32 of the window, and the model takes their word number modulo 8. -/
def loadDelta (x : Bytes) : List Event :=
  wr .deltaLen (BitVec.ofNat 32 x.length) ++ loadWords (fun k => .deltaWord (Fin.ofNat 8 k)) x

/-- `LOADKEY` (30_encoding.md R150). DESIGN CHOICE, unsafe (log 28): the spec names no word for the bytes beyond
the 64 of the window, and the model takes their word number modulo 16. -/
def loadKey (x : Bytes) : List Event :=
  wr .keyLen (BitVec.ofNat 32 x.length) ++ loadWords (fun k => .keyWord (Fin.ofNat 16 k)) x

/-- The four operand registers of a data command. -/
def operands (src len dst cap : Word) : List Event :=
  wr .srcAddr src ++ wr .srcLen len ++ wr .dstAddr dst ++ wr .dstCap cap

/-- `ENC src, len, dst, cap` (30_encoding.md R150). -/
def enc (src len dst cap : Word) : List Event := operands src len dst cap ++ command .encrypt ++ wait

/-- `DEC src, len, dst, cap` (30_encoding.md R150). -/
def dec (src len dst cap : Word) : List Event := operands src len dst cap ++ command .decrypt ++ wait

/-- `UPD src, len, dst, cap` (30_encoding.md R150). -/
def upd (src len dst cap : Word) : List Event :=
  operands src len dst cap ++ command .streamUpdate ++ wait

/-- `FIN dst, cap` (30_encoding.md R150). -/
def fin (dst cap : Word) : List Event :=
  wr .dstAddr dst ++ wr .dstCap cap ++ command .streamFinal ++ wait

/-- What `CHECK ok` expects of a read of STATUS: DONE = 1, ERR = 0, ECODE = 0 (30_encoding.md R150). -/
def checkOk (status : Word) : Bool :=
  status.getLsbD 1 && !status.getLsbD 2 && (status.extractLsb' 4 4 == 0)

end Sys2Proof.Machine.HostProgram
end

