-- ==== Sys2Proof/Safety.lean ====
section
/-! DEFINITION. What counts as a safe run, in the terms the statements use: the law of the cipher core, the
invariant every step keeps, the causes of the error codes in the spec's own arithmetic, and the records a
failed command leaves. -/

namespace Sys2Proof

/-- The law of the cipher core: for every key schedule that SetKey returns, Dec undoes Enc on blocks
(00_scope.md R7). A named hypothesis, never a fact about `Config.chip`. -/
def Params.CipherLaw (P : Params) : Prop :=
  ∀ key ks b, P.setKey key = some ks → b.length = P.S →
    Machine.decWith P ks (Machine.encWith P ks b) = b

namespace Machine

/-- A context as CTX_INIT makes it (43_commands.md R330): blocks are S bytes long, the delta is there
exactly in RandomDelta, no latched IV means the zero block, and ECB latches none. -/
structure Context.Ok (P : Params) (c : Context) : Prop where
  ivBlock : c.iv.length = P.S
  deltaBlock : ∀ d, c.delta = some d → d.length = P.S
  deltaMode : c.delta.isSome = true ↔ c.mode = .randomDelta
  noIv : c.ivp = false → c.iv = zeros P.S
  ecbNoIv : c.mode = .ecb → c.ivp = false

/-- How many bytes an open stream withholds (42_scheduler_streaming.md R290): fewer than a block, or up to
one block in a padded-decrypt stream, where nothing is held only before any byte has arrived. -/
def HoldOk (P : Params) (c : Context) (s : State) : Prop :=
  if paddedDecrypt c.mode s.streamDir = true then
    s.hold.length ≤ P.S ∧ (s.hold = [] → s.blkIdx = 0)
  else s.hold.length < P.S

/-- The invariant of MOE: what holds at reset and after every step. -/
structure State.Inv (P : Params) (s : State) : Prop where
  /-- memory is in canonical form -/
  memForm : s.mem.wf = true
  /-- every listed byte has a DMA address (20_memory.md R100) -/
  memSpace : s.mem.inSpace = true
  /-- ERR is 1 exactly when ECODE ≠ 0 (10_state.md R36) -/
  errCode : s.err = (s.ecode != .none)
  /-- issue cleared DONE and ECODE, and only a perform sets them (10_state.md R36, R54) -/
  flight : s.pending.isSome = true → s.done = false ∧ s.ecode = .none
  /-- the context elements hold what CTX_INIT gave them (10_state.md R55) -/
  context : ∀ c, s.ctx = some c → c.Ok P
  /-- an open stream has a context, a key, a chaining register and a bounded hold (10_state.md R57, R60,
  R61) -/
  openStream : s.streamOpen = true →
    ∃ c p, s.ctx = some c ∧ s.ks.isSome = true ∧ s.prev = some p ∧ p.length = P.S ∧ HoldOk P c s
  /-- with no stream open st.PREV holds no value and nothing is withheld (10_state.md R57, R61) -/
  closedStream : s.streamOpen = false → s.prev = none ∧ s.hold = []

/-- st.KS is what the cipher core's SetKey returned for some key of at most MAXKEY bytes (10_state.md R56,
43_commands.md R332). -/
def State.KeyFromCore (P : Params) (s : State) : Prop :=
  ∀ ks, s.ks = some ks → ∃ key, key.length ≤ MAXKEY ∧ P.setKey key = some ks

/-- The commands with a source range (20_memory.md R106). -/
def hasSource : Instr → Prop
  | .encrypt => True
  | .decrypt => True
  | .streamUpdate => True
  | .nop => False
  | .ctxInit _ _ => False
  | .ctxClear => False
  | .setKey => False
  | .streamBegin _ => False
  | .streamFinal => False

/-- The commands that need a context (60_exceptions.md R401, code 2). -/
def needsContext : Instr → Prop
  | .encrypt => True
  | .decrypt => True
  | .streamBegin _ => True
  | .streamUpdate => True
  | .streamFinal => True
  | .nop => False
  | .ctxInit _ _ => False
  | .ctxClear => False
  | .setKey => False

/-- The commands that need no stream to be open (60_exceptions.md R401, code 4). -/
def needsNoStream : Instr → Prop
  | .setKey => True
  | .encrypt => True
  | .decrypt => True
  | .streamBegin _ => True
  | .nop => False
  | .ctxInit _ _ => False
  | .ctxClear => False
  | .streamUpdate => False
  | .streamFinal => False

/-- The commands that need a key (60_exceptions.md R401, code 5). -/
def needsKey : Instr → Prop
  | .encrypt => True
  | .decrypt => True
  | .streamBegin _ => True
  | .nop => False
  | .ctxInit _ _ => False
  | .ctxClear => False
  | .setKey => False
  | .streamUpdate => False
  | .streamFinal => False

/-- The cause of each code that a check reports (60_exceptions.md R401, 20_memory.md R106, R107), for a
command with latch `l` performed in state `s`. `writeBound` is WLEN (43_commands.md R322). -/
def Cause (P : Params) (i : Instr) (l : Latch) (s : State) : ErrorCode → Prop
  | .none => False
  | .badCmd => ∃ pad, i = .ctxInit 7 pad
  | .noContext => needsContext i ∧ s.ctx = none
  | .ctxLocked => (∃ mode pad, i = .ctxInit mode pad) ∧ s.ctx ≠ none
  | .streamState =>
    (needsNoStream i ∧ s.streamOpen = true)
      ∨ ((i = .streamUpdate ∨ i = .streamFinal) ∧ s.streamOpen = false)
  | .noKey => needsKey i ∧ s.ks = none
  | .keyError => i = .setKey ∧ 64 < l.keyLen.toNat
  | .ivLength =>
    ∃ mode pad, i = .ctxInit mode pad ∧ mode ≠ 0 ∧ l.ivLen.toNat ≠ 0 ∧ l.ivLen.toNat ≠ P.S
  | .deltaLength => ∃ pad, i = .ctxInit 6 pad ∧ l.deltaLen.toNat ≠ P.S
  | .length =>
    ∃ c, s.ctx = some c ∧ padded c.mode = true ∧
      ((i = .decrypt ∧ l.srcLen.toNat % P.S ≠ 0)
        ∨ (i = .streamFinal ∧ s.streamDir = .dec ∧ s.hold.length ≠ 0 ∧ s.hold.length ≠ P.S))
  | .addrRange =>
    (hasSource i ∧ 0 < l.srcLen.toNat ∧ 2 ^ 32 < l.srcAddr.toNat + l.srcLen.toNat)
      ∨ (0 < writeBound P i l s ∧ 2 ^ 32 < l.dstAddr.toNat + writeBound P i l s)
  | .overlap =>
    hasSource i ∧ 0 < l.srcLen.toNat ∧ 0 < writeBound P i l s
      ∧ l.srcAddr.toNat < l.dstAddr.toNat + writeBound P i l s
      ∧ l.dstAddr.toNat < l.srcAddr.toNat + l.srcLen.toNat
  | .capacity => l.dstCap.toNat < writeBound P i l s
  | .busError => False

/-- No check of the command fails (60_exceptions.md R402). -/
def NoCause (P : Params) (i : Instr) (l : Latch) (s : State) : Prop := ∀ code, ¬ Cause P i l s code

/-- One code stands before another in the order of checks (60_exceptions.md R402). -/
def ErrorCode.before (a b : ErrorCode) : Prop := a.code.toNat < b.code.toNat

/-- The completion record of a failed command, and nothing else (60_exceptions.md R403, 43_commands.md
R323). -/
def afterFailure (code : ErrorCode) (s : State) : State :=
  { s with ecode := code, err := true, outLen := 0, done := true, pending := none }

/-- The completion record of a command that succeeded with `n` output bytes (43_commands.md R323). -/
def afterSuccess (n : Nat) (s : State) : State :=
  { s with
    ecode := .none, err := false, outLen := BitVec.ofNat 32 n, done := true, pending := none }

/-- The memory agent admits the next two accesses (20_memory.md R108). -/
def Admits (s : State) : Prop := ∀ a ∈ s.busAnswers.take 2, a = MemAnswer.admits

/-- A function on states applied to a next state; a fault or a refusal stays. -/
def mapNext (f : State → State) : Result → Result
  | .next s => .next (f s)
  | .fault r => .fault r
  | .refused r => .refused r

/-- The registers a host stages operands in (10_state.md R54). -/
def staging : Reg → Bool
  | .srcAddr => true
  | .srcLen => true
  | .dstAddr => true
  | .dstCap => true
  | .ivLen => true
  | .deltaLen => true
  | .keyLen => true
  | .ivWord _ => true
  | .deltaWord _ => true
  | .keyWord _ => true
  | .cmd => false
  | .status => false
  | .irqEn => false
  | .ctxCfg => false
  | .outLen => false
  | .blkSz => false
  | .hwCfg => false
  | .blkIdxLo => false
  | .blkIdxHi => false
  | .holdLen => false
  | .reserved => false

end Machine

end Sys2Proof
end

