-- ==== Sys2Proof/Certificates/Slice0/Obligations.lean ====
section
/-! DEFINITION. The statements for the provers. Each docstring names the rules of spec/ it formalises. -/

open Sys2Proof Sys2Proof.Machine

/-! ### Encoding -/

/-- 30_encoding.md R148 and 95_test_vectors.md 2.12: words written out from the encoding and what they are. -/
def Obligations.SampleWordsDecode : Prop :=
  decode 0x00000000#32 = .ok .nop ∧
  decode 0x00000001#32 = .ok (.ctxInit 0 .zeros) ∧
  decode 0x00001101#32 = .ok (.ctxInit 1 .pkcs7) ∧
  decode 0x00002201#32 = .ok (.ctxInit 2 .ansiX923) ∧
  decode 0x00003601#32 = .ok (.ctxInit 6 .iso10126) ∧
  decode 0x00000002#32 = .ok .ctxClear ∧
  decode 0x00000003#32 = .ok .setKey ∧
  decode 0x00000010#32 = .ok .encrypt ∧
  decode 0x00000011#32 = .ok .decrypt ∧
  decode 0x00000020#32 = .ok (.streamBegin .enc) ∧
  decode 0x00010020#32 = .ok (.streamBegin .dec) ∧
  decode 0x00000021#32 = .ok .streamUpdate ∧
  decode 0x00000022#32 = .ok .streamFinal ∧
  decode 0x00000701#32 = .error .reservedMode ∧
  decode 0x00004101#32 = .error .reservedBits ∧
  decode 0x00000023#32 = .error .unknownOpcode

/-- 30_encoding.md R148 with R140-R145: the decoder reads every field of every canonical word back. -/
def Obligations.DecodeOfEncode : Prop :=
  ∀ i : Instr, i.wellFormed = true → decode (encode i) = .ok i

/-- 30_encoding.md R146 and R148: each command has one word, and a decoded command is well formed. -/
def Obligations.EncodeOfDecode : Prop :=
  ∀ (w : Word) (i : Instr), decode w = .ok i → encode i = w ∧ i.wellFormed = true

/-- 30_encoding.md R146: which words are illegal, in R146's three cases; a word is accepted at issue like any
other, and performed as a failure with BAD_CMD and no other effect. -/
def Obligations.IllegalWordsFailWithBadCmd : Prop :=
  (∀ w : Word, (∃ e, decode w = .error e) ↔
    (w.extractLsb' 0 8 ∉ [0x00#8, 0x01#8, 0x02#8, 0x03#8, 0x10#8, 0x11#8, 0x20#8, 0x21#8, 0x22#8]
      ∨ (w.extractLsb' 0 8 = 0x01#8 ∧
          (w.getLsbD 11 = true ∨ w.extractLsb' 14 2 ≠ 0#2 ∨ w.extractLsb' 16 16 ≠ 0#16
            ∨ w.extractLsb' 8 3 = 7#3))
      ∨ (w.extractLsb' 0 8 = 0x20#8 ∧ (w.extractLsb' 8 8 ≠ 0#8 ∨ w.extractLsb' 17 15 ≠ 0#15))
      ∨ (w.extractLsb' 0 8 ≠ 0x01#8 ∧ w.extractLsb' 0 8 ≠ 0x20#8 ∧ w.extractLsb' 8 24 ≠ 0#24)))
  ∧ (∀ (s : State) (w : Word), s.pending = none →
      ∃ t, hostRegWrite 0x000 4 w s = .next t ∧ t.busy = true ∧ t.pending = some (latchOf s w))
  ∧ (∀ (s : State) (l : Latch) (e : DecodeError), s.pending = some l → decode l.word = .error e →
      engineTurn exec s = .next (afterFailure .badCmd s))

/-! ### The step -/

/-- 43_commands.md R321: when the word of the command in flight decodes, the engine's turn is exactly the
perform of that command. The turn comes when the next event is `engine` or when no event is left, which is
the model's choice (log 6). -/
def Obligations.StepPerformsTheCommandInFlight : Prop :=
  ∀ (s : State) (l : Latch) (i : Instr), s.pending = some l → decode l.word = .ok i →
    (s.events = [] → step s = exec i s)
    ∧ (∀ rest, s.events = .engine :: rest → step s = exec i { s with events := rest })

/-- A word placed by withFetchWord is issued as 43_commands.md R320 says and performed by the very next step.
The placement is the model's (log 17). -/
def Obligations.PlacedWordIsPerformedNext : Prop :=
  ∀ (s : State) (i : Instr), i.wellFormed = true →
    step (s.withFetchWord 32 (encode i).toNat) =
      exec i { s with
        pending := some (latchOf s (encode i)), done := false, err := false, ecode := .none }

/-- The invariant of Safety.lean (10_state.md R36, R54, R55, R57, R60-R62; 42_scheduler_streaming.md R290)
is kept by every step, whichever event it is. -/
def Obligations.StepKeepsInvariant : Prop :=
  ∀ s t : State, s.Inv Config.chip → step s = .next t → t.Inv Config.chip

/-- The invariant holds right after reset (70_reset_and_hazards.md R450). -/
def Obligations.ResetMeetsInvariant : Prop :=
  State.reset.Inv Config.chip ∧ State.reset.KeyFromCore Config.chip

/-- 10_state.md R56: st.KS is only ever a key schedule that the cipher core's SetKey returned. -/
def Obligations.StepKeepsKeyFromCore : Prop :=
  ∀ s t : State, s.KeyFromCore Config.chip → step s = .next t → t.KeyFromCore Config.chip

/-- 93_implementation_defined.md U8: no rule consumes an absent context element or st.PREV. In a state that
meets the invariant the only values a step can find absent are window bytes, and no step is stuck for want
of a command. -/
def Obligations.OnlyWindowBytesCanBeAbsent : Prop :=
  ∀ s : State, s.Inv Config.chip → ∀ r, step s = .fault r →
    r = .noValue .ivWindow ∨ r = .noValue .deltaWindow ∨ r = .noValue .keyWindow

/-! ### Issue, checks, completion -/

/-- 43_commands.md R320: a write to CMD latches the operands and clears DONE, ERR and ECODE when the engine is
idle, and only sets REJ when a command is in flight. -/
def Obligations.CommandWriteIssuesOrIsRejected : Prop :=
  ∀ (s : State) (w : Word),
    (s.pending = none →
      hostRegWrite 0x000 4 w s = .next { s with
        pending := some
          { word := w, srcAddr := s.srcAddr, srcLen := s.srcLen, dstAddr := s.dstAddr,
            dstCap := s.dstCap, ivLen := s.ivLen, deltaLen := s.deltaLen, keyLen := s.keyLen,
            iv := s.iv, delta := s.delta, key := s.key }
        done := false, err := false, ecode := .none })
    ∧ (∀ l, s.pending = some l → hostRegWrite 0x000 4 w s = .next { s with rej := true })

/-- 60_exceptions.md R402: the check of the lowest code that applies is the one reported, and nothing but the
completion record changes; and a reported code has its cause and no lower one applies, but for the cipher core's
KEY_ERROR verdict and BUS_ERROR, which come only when every check has passed. The causes are R401's, in
Safety.lean. -/
def Obligations.LowestCauseIsReported : Prop :=
  (∀ (i : Instr) (l : Latch) (s : State) (code : ErrorCode), s.pending = some l →
    Cause Config.chip i l s code → (∀ c, ErrorCode.before c code → ¬ Cause Config.chip i l s c) →
    exec i s = .next (afterFailure code s))
  ∧ (∀ (i : Instr) (l : Latch) (s t : State), s.pending = some l → exec i s = .next t →
    t.ecode ≠ .none →
    (Cause Config.chip i l s t.ecode ∧
        ∀ c, ErrorCode.before c t.ecode → ¬ Cause Config.chip i l s c)
      ∨ (NoCause Config.chip i l s ∧ i = .setKey ∧ t.ecode = .keyError)
      ∨ (NoCause Config.chip i l s ∧ t.ecode = .busError))

/-- 60_exceptions.md R403: a failed check leaves everything as it was, except the completion record. -/
def Obligations.FailedCheckChangesOnlyTheRecord : Prop :=
  ∀ (i : Instr) (s t : State), exec i s = .next t → t.ecode ≠ .none → t.ecode ≠ .busError →
    t = { s with ecode := t.ecode, err := true, outLen := 0, done := true, pending := none }

/-! ### Context and key commands -/

/-- 43_commands.md R333: NOP completes with no effect but the completion record, which raises DONE and with it
the interrupt; OP = 0 with any other bit set is BAD_CMD. -/
def Obligations.NopOnlyCompletes : Prop :=
  (∀ (s : State) (l : Latch), s.pending = some l →
    ∃ t, exec .nop s = .next t ∧
      t = { s with ecode := .none, err := false, outLen := 0, done := true, pending := none } ∧
      t.irq = s.doneIe)
  ∧ decode 0x00000000#32 = .ok .nop
  ∧ (∀ (s : State) (l : Latch), s.pending = some l → l.word.extractLsb' 0 8 = 0#8 → l.word ≠ 0#32 →
    engineTurn exec s = .next (afterFailure .badCmd s))

/-- 43_commands.md R330: CTX_INIT fails its four checks in their order, and with all passed creates the context
from MODE, PAD, IV[0..S) or the zero block, and DELTA[0..S) in RandomDelta, and changes nothing else. -/
def Obligations.CtxInitCreatesTheContext : Prop :=
  (∀ (s : State) (l : Latch) (mode : BitVec 3) (pad : PaddingKind), s.pending = some l →
    (mode = 7 → exec (.ctxInit mode pad) s = .next (afterFailure .badCmd s)) ∧
    (mode ≠ 7 → s.ctx ≠ none → exec (.ctxInit mode pad) s = .next (afterFailure .ctxLocked s)) ∧
    (mode ≠ 7 → s.ctx = none → mode ≠ 0 → l.ivLen.toNat ≠ 0 → l.ivLen.toNat ≠ Config.chip.S →
      exec (.ctxInit mode pad) s = .next (afterFailure .ivLength s)) ∧
    (mode = 6 → s.ctx = none → l.ivLen.toNat = 0 ∨ l.ivLen.toNat = Config.chip.S →
      l.deltaLen.toNat ≠ Config.chip.S →
      exec (.ctxInit mode pad) s = .next (afterFailure .deltaLength s)))
  ∧ (∀ (s : State) (l : Latch) (mode : BitVec 3) (pad : PaddingKind) (m : Mode) (iv : Bytes)
    (delta : Option Bytes),
    s.pending = some l → s.ctx = none → Mode.ofBits mode = some m →
    (m = .ecb ∨ l.ivLen.toNat = 0 ∨ l.ivLen.toNat = Config.chip.S) →
    (m = .randomDelta → l.deltaLen.toNat = Config.chip.S) →
    (if m ≠ .ecb ∧ l.ivLen.toNat = Config.chip.S then
        iv.length = Config.chip.S ∧ ∀ j, j < Config.chip.S → windowByte l.iv j = iv[j]?
      else iv = zeros Config.chip.S) →
    (if m = .randomDelta then
        ∃ x, delta = some x ∧ x.length = Config.chip.S ∧
          ∀ j, j < Config.chip.S → windowByte l.delta j = x[j]?
      else delta = none) →
    exec (.ctxInit mode pad) s = .next { s with
      ctx := some
        { mode := m, pad := pad, ivp := decide (m ≠ .ecb ∧ l.ivLen.toNat = Config.chip.S),
          iv := iv, delta := delta }
      ecode := .none, err := false, outLen := 0, done := true, pending := none })

/-- 10_state.md R64: CTX_INIT and SET_KEY, with their checks passed, fault when they would use a window byte
that was never written since reset: a byte of the IV, where one is latched; in RandomDelta, with no IV to
latch or every byte of it written, a byte of the delta; a byte of the key. -/
def Obligations.UnwrittenWindowBytesFault : Prop :=
  (∀ (s : State) (l : Latch) (mode : BitVec 3) (pad : PaddingKind) (j : Nat), s.pending = some l →
    NoCause Config.chip (.ctxInit mode pad) l s → mode ≠ 0 → l.ivLen.toNat = Config.chip.S →
    j < Config.chip.S → windowByte l.iv j = none →
    exec (.ctxInit mode pad) s = .fault (.noValue .ivWindow))
  ∧ (∀ (s : State) (l : Latch) (pad : PaddingKind) (j : Nat), s.pending = some l →
    NoCause Config.chip (.ctxInit 6 pad) l s →
    (l.ivLen.toNat ≠ 0 → ∀ k, k < Config.chip.S → windowByte l.iv k ≠ none) →
    j < Config.chip.S → windowByte l.delta j = none →
    exec (.ctxInit 6 pad) s = .fault (.noValue .deltaWindow))
  ∧ (∀ (s : State) (l : Latch) (j : Nat), s.pending = some l → NoCause Config.chip .setKey l s →
    j < l.keyLen.toNat → windowByte l.key j = none →
    exec .setKey s = .fault (.noValue .keyWindow))

/-- 43_commands.md R331: CTX_CLEAR drops the context, closes a stream, and keeps the key, BLKIDX, the windows
and the memory. -/
def Obligations.CtxClearEndsTheSession : Prop :=
  decode 0x00000002#32 = .ok .ctxClear ∧
  ∀ (s : State) (l : Latch), s.pending = some l →
    ∃ t, exec .ctxClear s = .next t ∧
      t = { s with
        ctx := none
        streamOpen := false
        hold := if s.streamOpen then [] else s.hold
        prev := if s.streamOpen then none else s.prev
        ecode := .none, err := false, outLen := 0, done := true, pending := none } ∧
      readReg Config.chip t .ctxCfg = some 0

/-- 43_commands.md R332: SET_KEY fails its checks in their order, and with all passed hands KEY[0..KEYLEN) to the
cipher core; its verdict installs the key schedule, or is KEY_ERROR with st.KS unchanged. -/
def Obligations.SetKeyFollowsTheCipherCore : Prop :=
  decode 0x00000003#32 = .ok .setKey
  ∧ (∀ (s : State) (l : Latch), s.pending = some l →
    (s.streamOpen = true → exec .setKey s = .next (afterFailure .streamState s)) ∧
    (s.streamOpen = false → 64 < l.keyLen.toNat → exec .setKey s = .next (afterFailure .keyError s)))
  ∧ (∀ (s : State) (l : Latch) (key : Bytes), s.pending = some l → s.streamOpen = false →
    l.keyLen.toNat ≤ 64 → key.length = l.keyLen.toNat →
    (∀ j, j < l.keyLen.toNat → windowByte l.key j = key[j]?) →
    exec .setKey s = .next
      (match Config.setKey key with
        | some ks => { s with
            ks := some ks
            ecode := .none, err := false, outLen := 0, done := true, pending := none }
        | none => { s with
            ecode := .keyError, err := true, outLen := 0, done := true, pending := none }))

/-! ### Single-shot commands -/

/-- 43_commands.md R334: ENCRYPT with its checks passed and its accesses admitted writes EncMsg of the source
bytes, WLEN of them, at DST_ADDR, sets BLKIDX to ⌈|C|/S⌉ and OUT_LEN to |C|, and changes nothing else. The
free values are the ISO10126 filler. -/
def Obligations.EncryptWritesTheCiphertext : Prop :=
  ∀ (s : State) (l : Latch) (c : Context) (ks : Bytes), s.pending = some l → s.ctx = some c →
    c.Ok Config.chip → s.ks = some ks → s.mem.wf = true → NoCause Config.chip .encrypt l s →
    Admits s →
    let d := driverOf Config.chip ks c (c.delta.getD [])
    let m := s.mem.readRange l.srcAddr.toNat l.srcLen.toNat
    let out := (encMsg d (fun i => Config.freeByte (s.free + i)) m).1
    out.length = writeBound Config.chip .encrypt l s ∧
    ∃ t, exec .encrypt s = .next t ∧
      t = { s with
        mem := t.mem
        blkIdx := BitVec.ofNat 64 ((out.length + Config.chip.S - 1) / Config.chip.S)
        outLen := BitVec.ofNat 32 out.length
        ecode := .none, err := false, done := true, pending := none
        free := s.free + encDraws d l.srcLen.toNat, busAnswers := t.busAnswers } ∧
      (∀ k (h : k < out.length), t.mem.read (l.dstAddr.toNat + k) = out[k]) ∧
      (∀ a, (writeRange Config.chip .encrypt l s).has a = false → t.mem.read a = s.mem.read a)

/-- 43_commands.md R335: DECRYPT with its checks passed and its accesses admitted writes DecMsg of the source
bytes at DST_ADDR whatever they are (41_mode_drivers.md R254), sets BLKIDX to ⌈L/S⌉ and OUT_LEN to |P|, leaves
the bytes of the write range after |P| unspecified, and changes nothing else. -/
def Obligations.DecryptWritesThePlaintext : Prop :=
  ∀ (s : State) (l : Latch) (c : Context) (ks : Bytes), s.pending = some l → s.ctx = some c →
    s.ks = some ks → (c.mode = .randomDelta → c.delta.isSome = true) → s.mem.wf = true →
    NoCause Config.chip .decrypt l s → Admits s →
    let d := driverOf Config.chip ks c (c.delta.getD [])
    let out := (decMsg d (s.mem.readRange l.srcAddr.toNat l.srcLen.toNat)).1
    out.length ≤ l.srcLen.toNat ∧
    ∃ t, exec .decrypt s = .next t ∧
      t = { s with
        mem := t.mem
        blkIdx := BitVec.ofNat 64 ((l.srcLen.toNat + Config.chip.S - 1) / Config.chip.S)
        outLen := BitVec.ofNat 32 out.length
        ecode := .none, err := false, done := true, pending := none
        free := s.free + (l.srcLen.toNat - out.length), busAnswers := t.busAnswers } ∧
      (∀ k (h : k < out.length), t.mem.read (l.dstAddr.toNat + k) = out[k]) ∧
      (∀ a, (writeRange Config.chip .decrypt l s).has a = false → t.mem.read a = s.mem.read a)

/-! ### Stream commands -/

/-- 42_scheduler_streaming.md R287 through 43_commands.md R336: STREAM_BEGIN fails its checks in their order, and
with all passed opens the stream in its direction, from the context's IV, and changes nothing else. -/
def Obligations.StreamBeginOpensTheStream : Prop :=
  decode 0x00000020#32 = .ok (.streamBegin .enc) ∧ decode 0x00010020#32 = .ok (.streamBegin .dec)
  ∧ (∀ (s : State) (l : Latch) (dir : Direction), s.pending = some l →
    (s.ctx = none → exec (.streamBegin dir) s = .next (afterFailure .noContext s)) ∧
    (s.ctx ≠ none → s.streamOpen = true →
      exec (.streamBegin dir) s = .next (afterFailure .streamState s)) ∧
    (s.ctx ≠ none → s.streamOpen = false → s.ks = none →
      exec (.streamBegin dir) s = .next (afterFailure .noKey s)))
  ∧ (∀ (s : State) (l : Latch) (c : Context) (dir : Direction), s.pending = some l →
    s.ctx = some c → s.streamOpen = false → s.ks ≠ none →
    exec (.streamBegin dir) s = .next { s with
      streamOpen := true, streamDir := dir, prev := some c.iv, blkIdx := 0, hold := []
      ecode := .none, err := false, outLen := 0, done := true, pending := none })

/-- 43_commands.md R337 with 42_scheduler_streaming.md R290 and R291: STREAM_UPDATE with its checks passed and
its accesses admitted writes the n·S bytes of the blocks processed now and carries the rest; it changes
nothing else. -/
def Obligations.StreamUpdateProcessesWholeBlocks : Prop :=
  ∀ (s : State) (l : Latch) (c : Context) (ks p : Bytes), s.pending = some l → s.ctx = some c →
    c.Ok Config.chip → s.ks = some ks → s.prev = some p → p.length = Config.chip.S →
    s.mem.wf = true → NoCause Config.chip .streamUpdate l s → Admits s →
    let d := driverOf Config.chip ks c (c.delta.getD [])
    let u := updateStep d s.streamDir ⟨p, s.blkIdx, s.hold⟩
      (s.mem.readRange l.srcAddr.toNat l.srcLen.toNat)
    u.1.length = writeBound Config.chip .streamUpdate l s ∧
    ∃ t, exec .streamUpdate s = .next t ∧
      t = { s with
        mem := t.mem
        prev := some u.2.prev, blkIdx := u.2.index, hold := u.2.hold
        outLen := BitVec.ofNat 32 u.1.length
        ecode := .none, err := false, done := true, pending := none
        busAnswers := t.busAnswers } ∧
      (∀ k (h : k < u.1.length), t.mem.read (l.dstAddr.toNat + k) = u.1[k]) ∧
      (∀ a, (writeRange Config.chip .streamUpdate l s).has a = false →
        t.mem.read a = s.mem.read a)

/-- 43_commands.md R338 with 42_scheduler_streaming.md R292: STREAM_FINAL with its checks passed and its access
admitted writes the final step's output, closes the stream, leaves the rest of the write range unspecified,
and changes nothing else. -/
def Obligations.StreamFinalFlushesTheHold : Prop :=
  ∀ (s : State) (l : Latch) (c : Context) (ks p : Bytes), s.pending = some l → s.ctx = some c →
    c.Ok Config.chip → s.ks = some ks → s.prev = some p → p.length = Config.chip.S →
    HoldOk Config.chip c s → s.mem.wf = true → NoCause Config.chip .streamFinal l s → Admits s →
    let d := driverOf Config.chip ks c (c.delta.getD [])
    let r := finalStep d s.streamDir (fun i => Config.freeByte (s.free + i)) ⟨p, s.blkIdx, s.hold⟩
    r.1.length ≤ writeBound Config.chip .streamFinal l s ∧
    ∃ t, exec .streamFinal s = .next t ∧
      t = { s with
        mem := t.mem
        streamOpen := false, prev := none, hold := [], blkIdx := r.2
        outLen := BitVec.ofNat 32 r.1.length
        ecode := .none, err := false, done := true, pending := none
        free := t.free, busAnswers := t.busAnswers } ∧
      (∀ k (h : k < r.1.length), t.mem.read (l.dstAddr.toNat + k) = r.1[k]) ∧
      (∀ a, (writeRange Config.chip .streamFinal l s).has a = false →
        t.mem.read a = s.mem.read a)

/-! ### Bus errors, frames, confinement -/

/-- 43_commands.md R339: after a bus error the context, the key and every byte outside the write range are
unchanged, an open stream is closed, and the completion record says BUS_ERROR. 20_memory.md R105, R108: a data
command whose checks pass is refused where its source or its write range has side effects, and ends with
BUS_ERROR where otherwise one of them is refused. An empty range is not accessed; the memory agent answers for
the whole write range, as the engine may write all of it (that, and the list of answers, are the model's: log 11). -/
def Obligations.BusErrorIsConfined : Prop :=
  (∀ (i : Instr) (l : Latch) (s t : State), s.pending = some l → exec i s = .next t →
    t.ecode = .busError →
    t = { s with
      mem := t.mem
      blkIdx := t.blkIdx
      streamOpen := false
      hold := if s.streamOpen then [] else s.hold
      prev := if s.streamOpen then none else s.prev
      err := true, ecode := .busError, outLen := 0, done := true, pending := none
      free := t.free, busAnswers := t.busAnswers } ∧
    (∀ a, (writeRange Config.chip i l s).has a = false → t.mem.read a = s.mem.read a))
  ∧ (∀ (i : Instr) (l : Latch) (s : State), s.Inv Config.chip → s.pending = some l →
    hasSource i ∨ i = .streamFinal → NoCause Config.chip i l s →
    let read := nextAnswer s (sourceCount i l)
    let write := nextAnswer (s.answered (sourceCount i l)) (writeBound Config.chip i l s)
    (read = .sideEffects ∨ write = .sideEffects → exec i s = .refused .sideEffectMemory) ∧
    (read ≠ .sideEffects → write ≠ .sideEffects → read = .refuses ∨ write = .refuses →
      ∃ t, exec i s = .next t ∧ t.ecode = .busError))

/-- 43_commands.md R340: no command but CTX_INIT and CTX_CLEAR changes the context, and none but SET_KEY
changes st.KS. -/
def Obligations.ContextAndKeyChangeOnlyByTheirCommands : Prop :=
  ∀ (i : Instr) (s t : State), exec i s = .next t →
    ((∀ mode pad, i ≠ .ctxInit mode pad) → i ≠ .ctxClear → t.ctx = s.ctx)
    ∧ (i ≠ .setKey → t.ks = s.ks)

/-- 10_state.md R54 and 43_commands.md R320: no command writes a staging register, a window, IRQ_EN, REJ or
what stands outside MOE; only STREAM_BEGIN writes st.STREAM_DIR; and only the commands with a write range
change memory. -/
def Obligations.CommandsLeaveTheHostSideAlone : Prop :=
  ∀ (i : Instr) (s t : State), exec i s = .next t →
    t.srcAddr = s.srcAddr ∧ t.srcLen = s.srcLen ∧ t.dstAddr = s.dstAddr ∧ t.dstCap = s.dstCap ∧
    t.ivLen = s.ivLen ∧ t.deltaLen = s.deltaLen ∧ t.keyLen = s.keyLen ∧
    t.iv = s.iv ∧ t.delta = s.delta ∧ t.key = s.key ∧ t.doneIe = s.doneIe ∧ t.rej = s.rej ∧
    t.events = s.events ∧ t.answer = s.answer ∧
    ((∀ d, i ≠ .streamBegin d) → t.streamDir = s.streamDir) ∧
    (¬ hasSource i → i ≠ .streamFinal → t.mem = s.mem)

/-- 20_memory.md R109: every memory byte outside the write range keeps its value across the command. -/
def Obligations.WritesStayInTheWriteRange : Prop :=
  ∀ (i : Instr) (l : Latch) (s t : State), s.Inv Config.chip → s.pending = some l →
    exec i s = .next t → ∀ a, (writeRange Config.chip i l s).has a = false →
    t.mem.read a = s.mem.read a

/-- 20_memory.md R109: a command reads no memory byte outside its source range: with memories that agree on
it, everything the command leaves outside memory is the same, and so is its write range, unless it failed a
check, when memory is as it was. -/
def Obligations.OutputDependsOnlyOnTheSourceRange : Prop :=
  ∀ (i : Instr) (l : Latch) (s t : State) (m : Memory), s.pending = some l → s.mem.wf = true →
    m.wf = true → (∀ a, (sourceRange i l).has a = true → m.read a = s.mem.read a) →
    exec i s = .next t →
    ∃ m', exec i { s with mem := m } = .next { t with mem := m' } ∧
      (∀ a, (writeRange Config.chip i l s).has a = true →
        m'.read a = t.mem.read a ∨ (m' = m ∧ t.mem = s.mem))

/-! ### The host's side -/

/-- 10_state.md R36: every field of STATUS as read, and what a write of STATUS does: DONE and REJ are cleared
by writing 1, nothing else changes, busy or not. -/
def Obligations.StatusFieldsReadAndClear : Prop :=
  (∀ s : State,
    (statusWord s).getLsbD 0 = s.pending.isSome ∧
    (statusWord s).getLsbD 1 = s.done ∧
    (statusWord s).getLsbD 2 = s.err ∧
    (statusWord s).getLsbD 3 = false ∧
    (statusWord s).extractLsb' 4 4 = s.ecode.code ∧
    (statusWord s).getLsbD 8 = s.rej ∧
    (statusWord s).extractLsb' 9 7 = 0#7 ∧
    (statusWord s).getLsbD 16 = s.ctx.isSome ∧
    (statusWord s).getLsbD 17 = s.ks.isSome ∧
    (statusWord s).getLsbD 18 = s.streamOpen ∧
    (statusWord s).getLsbD 19 = (s.streamOpen && s.streamDir == .dec) ∧
    (statusWord s).extractLsb' 20 12 = 0#12 ∧
    hostRegRead Config.chip 0x004 4 s = .next { s with answer := some (.word (statusWord s)) })
  ∧ (∀ (s : State) (v : Word),
    hostRegWrite 0x004 4 v s = .next { s with
      done := if v.getLsbD 1 then false else s.done
      rej := if v.getLsbD 8 then false else s.rej })

/-- 10_state.md R38: CTX_CFG reads MODE, PAD and IVP while a context is valid, and 0 otherwise, as after reset; no
command but CTX_INIT and CTX_CLEAR and no host write changes it. -/
def Obligations.CtxCfgReadsTheContext : Prop :=
  (∀ s : State, s.ctx = none → readReg Config.chip s .ctxCfg = some 0) ∧
  (∀ (s : State) (c : Context), s.ctx = some c →
    ∃ w, readReg Config.chip s .ctxCfg = some w ∧
      w.extractLsb' 0 3 = c.mode.bits ∧ w.getLsbD 3 = false ∧ w.extractLsb' 4 2 = c.pad.bits ∧
      w.extractLsb' 6 2 = 0#2 ∧ w.getLsbD 8 = c.ivp ∧ w.extractLsb' 9 23 = 0#23) ∧
  readReg Config.chip State.reset .ctxCfg = some 0 ∧
  (∀ (i : Instr) (s t : State), exec i s = .next t → (∀ mode pad, i ≠ .ctxInit mode pad) →
    i ≠ .ctxClear → readReg Config.chip t .ctxCfg = readReg Config.chip s .ctxCfg) ∧
  (∀ (s t : State) (off : BitVec 12) (bytes : Nat) (v : Word), hostRegWrite off bytes v s = .next t →
    readReg Config.chip t .ctxCfg = readReg Config.chip s .ctxCfg)

/-- 10_state.md R34: an access that is not 32 bits at a word-aligned offset is refused; a reserved offset reads
0 and ignores writes; a write to a read-only register changes nothing; and a read changes nothing but what
the host is answered (20_memory.md R105). -/
def Obligations.WindowAccessRules : Prop :=
  (∀ (s : State) (off : BitVec 12) (bytes : Nat) (v : Word), ¬ (bytes = 4 ∧ off.toNat % 4 = 0) →
    hostRegRead Config.chip off bytes s = .refused .registerAccess ∧
    hostRegWrite off bytes v s = .refused .registerAccess)
  ∧ (∀ (s : State) (off : BitVec 12) (v : Word), off.toNat % 4 = 0 →
    (0x044 ≤ off.toNat ∧ off.toNat ≤ 0x07C) ∨ 0x100 ≤ off.toNat →
    hostRegRead Config.chip off 4 s = .next { s with answer := some (.word 0) } ∧
    hostRegWrite off 4 v s = .next s)
  ∧ (∀ (s : State) (off : BitVec 12) (v : Word),
    off.toNat ∈ [0x00C, 0x020, 0x030, 0x034, 0x038, 0x03C, 0x040] → hostRegWrite off 4 v s = .next s)
  ∧ (∀ (s t : State) (off : BitVec 12) (bytes : Nat),
    hostRegRead Config.chip off bytes s = .next t → t = { s with answer := t.answer })

/-- 10_state.md R33, R37, R39-R50: a host write of a read-write register sets that register, whole, and nothing
else, busy or not (IRQ_EN its bit 0 alone), and the register reads it back; what CMD and the read-only registers
read in any state. -/
def Obligations.RegistersHoldWhatIsWritten : Prop :=
  ∀ (s : State) (v : Word),
    hostRegWrite 0x008 4 v s = .next { s with doneIe := v.getLsbD 0 } ∧
    hostRegWrite 0x010 4 v s = .next { s with srcAddr := v } ∧
    hostRegWrite 0x014 4 v s = .next { s with srcLen := v } ∧
    hostRegWrite 0x018 4 v s = .next { s with dstAddr := v } ∧
    hostRegWrite 0x01C 4 v s = .next { s with dstCap := v } ∧
    hostRegWrite 0x024 4 v s = .next { s with ivLen := v } ∧
    hostRegWrite 0x028 4 v s = .next { s with deltaLen := v } ∧
    hostRegWrite 0x02C 4 v s = .next { s with keyLen := v } ∧
    (∀ off ∈ [0x010#12, 0x014, 0x018, 0x01C, 0x024, 0x028, 0x02C],
      ∃ t, hostRegWrite off 4 v s = .next t ∧
        hostRegRead Config.chip off 4 t = .next { t with answer := some (.word v) }) ∧
    (∃ t, hostRegWrite 0x008 4 v s = .next t ∧
      hostRegRead Config.chip 0x008 4 t = .next { t with answer := some (.word (v &&& 1)) }) ∧
    (∃ irq blkSz lo hi held : Word,
      hostRegRead Config.chip 0x000 4 s = .next { s with answer := some (.word 0) } ∧
      hostRegRead Config.chip 0x008 4 s = .next { s with answer := some (.word irq) } ∧
      hostRegRead Config.chip 0x010 4 s = .next { s with answer := some (.word s.srcAddr) } ∧
      hostRegRead Config.chip 0x014 4 s = .next { s with answer := some (.word s.srcLen) } ∧
      hostRegRead Config.chip 0x018 4 s = .next { s with answer := some (.word s.dstAddr) } ∧
      hostRegRead Config.chip 0x01C 4 s = .next { s with answer := some (.word s.dstCap) } ∧
      hostRegRead Config.chip 0x020 4 s = .next { s with answer := some (.word s.outLen) } ∧
      hostRegRead Config.chip 0x024 4 s = .next { s with answer := some (.word s.ivLen) } ∧
      hostRegRead Config.chip 0x028 4 s = .next { s with answer := some (.word s.deltaLen) } ∧
      hostRegRead Config.chip 0x02C 4 s = .next { s with answer := some (.word s.keyLen) } ∧
      hostRegRead Config.chip 0x030 4 s = .next { s with answer := some (.word blkSz) } ∧
      hostRegRead Config.chip 0x034 4 s = .next { s with answer := some (.word 0x00004020) } ∧
      hostRegRead Config.chip 0x038 4 s = .next { s with answer := some (.word lo) } ∧
      hostRegRead Config.chip 0x03C 4 s = .next { s with answer := some (.word hi) } ∧
      hostRegRead Config.chip 0x040 4 s = .next { s with answer := some (.word held) } ∧
      irq.getLsbD 0 = s.doneIe ∧ irq.extractLsb' 1 31 = 0 ∧
      blkSz.toNat = Config.chip.S ∧
      lo.toNat = s.blkIdx.toNat % 2 ^ 32 ∧ hi.toNat = s.blkIdx.toNat / 2 ^ 32 ∧
      held.extractLsb' 6 26 = 0 ∧ (s.hold.length ≤ Config.chip.S → held.toNat = s.hold.length))

/-- 20_memory.md R102 with 10_state.md R51-R53: a word write of a window sets its four bytes, byte j in bits
8·(j mod 4)+7 : 8·(j mod 4), and no other byte; the IV and DELTA windows read the word back and fault while a
byte of it holds no value; the KEY window reads 0. -/
def Obligations.WindowWordsAreLittleEndianLanes : Prop :=
  ∀ (s : State) (v : Word),
    (∀ k, k < 8 → ∃ t, hostRegWrite (BitVec.ofNat 12 (0x080 + 4 * k)) 4 v s = .next t ∧
      t = { s with iv := t.iv } ∧
      (∀ j, j < 32 → windowByte t.iv j =
        if j / 4 = k then some (v.extractLsb' (8 * (j % 4)) 8) else windowByte s.iv j) ∧
      hostRegRead Config.chip (BitVec.ofNat 12 (0x080 + 4 * k)) 4 t
        = .next { t with answer := some (.word v) })
    ∧ (∀ k, k < 8 → ∃ t, hostRegWrite (BitVec.ofNat 12 (0x0A0 + 4 * k)) 4 v s = .next t ∧
      t = { s with delta := t.delta } ∧
      (∀ j, j < 32 → windowByte t.delta j =
        if j / 4 = k then some (v.extractLsb' (8 * (j % 4)) 8) else windowByte s.delta j) ∧
      hostRegRead Config.chip (BitVec.ofNat 12 (0x0A0 + 4 * k)) 4 t
        = .next { t with answer := some (.word v) })
    ∧ (∀ k, k < 16 → ∃ t, hostRegWrite (BitVec.ofNat 12 (0x0C0 + 4 * k)) 4 v s = .next t ∧
      t = { s with key := t.key } ∧
      (∀ j, j < 64 → windowByte t.key j =
        if j / 4 = k then some (v.extractLsb' (8 * (j % 4)) 8) else windowByte s.key j) ∧
      hostRegRead Config.chip (BitVec.ofNat 12 (0x0C0 + 4 * k)) 4 s
        = .next { s with answer := some (.word 0) })
    ∧ (∀ j, j < 32 → windowByte s.iv j = none →
      hostRegRead Config.chip (BitVec.ofNat 12 (0x080 + 4 * (j / 4))) 4 s
        = .fault (.noValue .ivWindow))
    ∧ (∀ j, j < 32 → windowByte s.delta j = none →
      hostRegRead Config.chip (BitVec.ofNat 12 (0x0A0 + 4 * (j / 4))) 4 s
        = .fault (.noValue .deltaWindow))

/-- 60_exceptions.md R410: the interrupt line is DONE and DONE_IE; it rises at the perform of any command when
DONE_IE = 1, and falls when the host clears DONE or DONE_IE, at the next issue, and at reset. -/
def Obligations.InterruptLineFollowsDone : Prop :=
  (∀ s : State, s.irq = (s.done && s.doneIe))
  ∧ (∀ (s t : State) (l : Latch), s.pending = some l → engineTurn exec s = .next t →
      t.irq = s.doneIe)
  ∧ (∀ (s t : State) (v : Word), hostRegWrite 0x004 4 v s = .next t → v.getLsbD 1 = true →
      t.irq = false)
  ∧ (∀ (s t : State) (v : Word), hostRegWrite 0x008 4 v s = .next t → v.getLsbD 0 = false →
      t.irq = false)
  ∧ (∀ (s t : State) (w : Word), s.pending = none → hostRegWrite 0x000 4 w s = .next t →
      t.irq = false)
  ∧ (∀ s : State, (resetAction Config.chip s).irq = false)

/-- 70_reset_and_hazards.md R450: reset sets every register and internal element to its reset value and, with
no command in flight or an illegal word, which has no write range, leaves memory alone; the reset values of the internal elements, and what the registers then read. -/
def Obligations.ResetSetsEveryRegister : Prop :=
  (∀ s : State, (∀ l i, s.pending = some l → decode l.word ≠ .ok i) →
    ∃ t, runEvent Config.chip exec .reset s = .next t ∧
    t = { State.reset with
      mem := s.mem, free := t.free, busAnswers := t.busAnswers, events := t.events, answer := t.answer })
  ∧ State.reset.ctx = none ∧ State.reset.ks = none ∧ State.reset.prev = none ∧ State.reset.blkIdx = 0
  ∧ State.reset.streamOpen = false ∧ State.reset.streamDir = .enc ∧ State.reset.hold = []
  ∧ State.reset.pending = none ∧ State.reset.irq = false
  ∧ (∀ j, windowByte State.reset.iv j = none ∧ windowByte State.reset.delta j = none ∧
      windowByte State.reset.key j = none)
  ∧ (∀ r : Reg, readReg Config.chip State.reset r =
      match r with
      | .blkSz => some (BitVec.ofNat 32 Config.chip.S)
      | .hwCfg => some 0x00004020
      | .ivWord _ => none
      | .deltaWord _ => none
      | _ => some 0)

/-- 70_reset_and_hazards.md R451: a reset while a command is in flight abandons it: nothing is completed, no
interrupt rises, and only bytes of its write range that are not in its source range can change; an illegal
word in flight is abandoned too and changes no byte. The model's choices, not the spec's words: ranges of the
abandoned command with side effects (20_memory.md R105) are left out, and the model refuses the reset there
(log 12); the ranges are those of the latch whether or not a check will fail, and a command without a context
has an empty write range (log 13). -/
def Obligations.ResetAbandonsTheCommand : Prop :=
  ∀ (s : State) (l : Latch), s.pending = some l → s.mem.wf = true →
    ((∀ i, decode l.word = .ok i →
        rangesAnswer s (sourceCount i l) (writeBound Config.chip i l s) ≠ .sideEffects) →
      ∃ t, runEvent Config.chip exec .reset s = .next t ∧
        t = { State.reset with
          mem := t.mem, free := t.free, busAnswers := t.busAnswers, events := t.events,
          answer := t.answer } ∧
        t.pending = none ∧ t.done = false ∧ t.irq = false ∧
        (∀ i, decode l.word = .ok i →
          (∀ a, (writeRange Config.chip i l s).has a = false → t.mem.read a = s.mem.read a) ∧
          (∀ a, (sourceRange i l).has a = true → t.mem.read a = s.mem.read a)) ∧
        ((∀ i, decode l.word ≠ .ok i) → t.mem = s.mem)) ∧
    (∀ i, decode l.word = .ok i →
      rangesAnswer s (sourceCount i l) (writeBound Config.chip i l s) = .sideEffects →
      runEvent Config.chip exec .reset s = .refused .sideEffectMemory)

/-- 20_memory.md R110 parts 3 and 4: while a command is in flight a host read of its write range gives a free
value, a host read elsewhere gives the byte that is there, a host write to its source or write range is
refused, and a host write elsewhere writes that byte and no other; with no command in flight, or an illegal word,
a host reads the byte that is there and writes it. The model's choices, not the spec's: the ranges are those of
the latch and the current state whether or not a check will fail, so that a byte in both ranges (a command that
will fail with OVERLAP) reads as a free value, and a command that needs a context and has none has an empty write
range (log 13); a host access is one byte (log 14). -/
def Obligations.HostMemoryAccessInFlight : Prop :=
  (∀ (s : State) (l : Latch) (i : Instr) (a : Word) (b : Byte), s.pending = some l →
    decode l.word = .ok i → s.mem.wf = true →
    ((writeRange Config.chip i l s).has a.toNat = true →
      hostMemRead Config.chip a s = .next { s with
        answer := some (.byte (Config.freeByte s.free)), free := s.free + 1 }) ∧
    ((writeRange Config.chip i l s).has a.toNat = false →
      hostMemRead Config.chip a s = .next { s with
        answer := some (.byte (s.mem.read a.toNat)) }) ∧
    ((writeRange Config.chip i l s).has a.toNat = true ∨ (sourceRange i l).has a.toNat = true →
      hostMemWrite Config.chip a b s = .refused .hostWriteInFlight) ∧
    ((writeRange Config.chip i l s).has a.toNat = false →
      (sourceRange i l).has a.toNat = false →
      ∃ t, hostMemWrite Config.chip a b s = .next t ∧ t = { s with mem := t.mem } ∧
        ∀ x, t.mem.read x = if x = a.toNat then b else s.mem.read x))
  ∧ (∀ (s : State) (a : Word) (b : Byte), (∀ l i, s.pending = some l → decode l.word ≠ .ok i) →
    s.mem.wf = true →
    hostMemRead Config.chip a s = .next { s with answer := some (.byte (s.mem.read a.toNat)) } ∧
    ∃ t, hostMemWrite Config.chip a b s = .next t ∧ t = { s with mem := t.mem } ∧
      ∀ x, t.mem.read x = if x = a.toNat then b else s.mem.read x)

/-- 43_commands.md R320 ("later host writes to these registers do not affect the command"): a staging write
between issue and perform changes that register and nothing of what the command does. -/
def Obligations.StagingWritesDoNotReachTheCommand : Prop :=
  ∀ (i : Instr) (s : State) (r : Reg) (v : Word), staging r = true →
    exec i (writeReg s r v) = mapNext (fun t => writeReg t r v) (exec i s)

/-- 60_exceptions.md R405: a CMD write and a perform that land together, in both orders: the write first is
discarded with REJ = 1 and the perform completes the old command; the perform first leaves the engine idle,
and the write is issued as a new command. -/
def Obligations.CommandWriteAndPerformInBothOrders : Prop :=
  ∀ (s : State) (l : Latch) (w : Word), s.pending = some l →
    (hostRegWrite 0x000 4 w s = .next { s with rej := true } ∧
      engineTurn exec { s with rej := true }
        = mapNext (fun t => { t with rej := true }) (engineTurn exec s)) ∧
    (∀ t, engineTurn exec s = .next t →
      hostRegWrite 0x000 4 w t = .next { t with
        pending := some (latchOf t w), done := false, err := false, ecode := .none })

/-- 70_reset_and_hazards.md R460: the key never changes while a command is in flight or a stream stays open;
a SET_KEY word written while a command is in flight is discarded with REJ, and SET_KEY inside a stream fails with
STREAM_STATE. -/
def Obligations.RekeyNeverOverlaps : Prop :=
  (∀ (s : State) (l : Latch), s.pending = some l →
    hostRegWrite 0x000 4 (encode .setKey) s = .next { s with rej := true }) ∧
  (∀ (s : State) (l : Latch), s.pending = some l → s.streamOpen = true →
    exec .setKey s = .next (afterFailure .streamState s))
  ∧ (∀ (s t : State), step s = .next t → s.streamOpen = true → t.streamOpen = true → t.ks = s.ks)
  ∧ (∀ (s t : State), step s = .next t → s.pending ≠ none → t.pending ≠ none → t.ks = s.ks)

/-! ### Padding -/

/-- 40_padding.md R206: the length of every applied result, and the message as its first bytes. -/
def Obligations.PaddedLengthIsAPositiveMultiple : Prop :=
  ∀ (P : Params) (k : PaddingKind) (fill : Nat → Byte) (m : Bytes),
    (padApply P.S k fill m).length =
      (if k = .zeros then max P.S (P.S * ((m.length + P.S - 1) / P.S))
        else P.S * (m.length / P.S + 1)) ∧
    0 < (padApply P.S k fill m).length ∧ (padApply P.S k fill m).length % P.S = 0 ∧
    (padApply P.S k fill m).take m.length = m

/-- 40_padding.md R201-R205: the pad length p, and the bytes each kind appends. -/
def Obligations.PaddingBytesByKind : Prop :=
  ∀ (P : Params) (fill : Nat → Byte) (m : Bytes) (p : Nat), p = P.S - m.length % P.S →
    1 ≤ p ∧ p ≤ P.S ∧ (p = P.S ↔ m.length % P.S = 0) ∧ p < 256 ∧
    padApply P.S .pkcs7 fill m = m ++ List.replicate p (BitVec.ofNat 8 p) ∧
    padApply P.S .ansiX923 fill m = m ++ List.replicate (p - 1) 0#8 ++ [BitVec.ofNat 8 p] ∧
    padApply P.S .iso10126 fill m = m ++ (List.range (p - 1)).map fill ++ [BitVec.ofNat 8 p] ∧
    (m = [] → padApply P.S .zeros fill m = List.replicate P.S 0#8) ∧
    (m ≠ [] → m.length % P.S = 0 → padApply P.S .zeros fill m = m) ∧
    (m.length % P.S ≠ 0 → padApply P.S .zeros fill m = m ++ List.replicate p 0#8)

/-- 40_padding.md R208-R211: what removal strips from the final block, and that a mismatch strips nothing. -/
def Obligations.RemovalStripsTheCountedPadding : Prop :=
  ∀ (P : Params) (b : Bytes) (p : Nat), b.length = P.S → p = (b.getD (P.S - 1) 0).toNat →
    ((1 ≤ p ∧ p ≤ P.S ∧ ∀ j, P.S - p ≤ j → j < P.S → b[j]? = some (BitVec.ofNat 8 p)) →
      removeLast P.S .pkcs7 b = b.take (P.S - p)) ∧
    (¬ (1 ≤ p ∧ p ≤ P.S ∧ ∀ j, P.S - p ≤ j → j < P.S → b[j]? = some (BitVec.ofNat 8 p)) →
      removeLast P.S .pkcs7 b = b) ∧
    ((1 ≤ p ∧ p ≤ P.S ∧ ∀ j, P.S - p ≤ j → j < P.S - 1 → b[j]? = some 0#8) →
      removeLast P.S .ansiX923 b = b.take (P.S - p)) ∧
    (¬ (1 ≤ p ∧ p ≤ P.S ∧ ∀ j, P.S - p ≤ j → j < P.S - 1 → b[j]? = some 0#8) →
      removeLast P.S .ansiX923 b = b) ∧
    ((1 ≤ p ∧ p ≤ P.S) → removeLast P.S .iso10126 b = b.take (P.S - p)) ∧
    (¬ (1 ≤ p ∧ p ≤ P.S) → removeLast P.S .iso10126 b = b) ∧
    (∀ t, t ≤ P.S → (∀ j, P.S - t ≤ j → j < P.S → b[j]? = some 0#8) →
      (t = P.S ∨ b[P.S - t - 1]? ≠ some 0#8) → removeLast P.S .zeros b = b.take (P.S - t))

/-- 40_padding.md R214: removal undoes application; for Zeros exactly when the message is empty or does not end
in 00, and otherwise it strips the trailing zero bytes of the final S-aligned segment. -/
def Obligations.PadRemoveUndoesPadApply : Prop :=
  ∀ (P : Params) (fill : Nat → Byte) (m : Bytes),
    (∀ k, k ≠ .zeros → padRemove P.S k (padApply P.S k fill m) = m) ∧
    (padRemove P.S .zeros (padApply P.S .zeros fill m) = m ↔ (m = [] ∨ m.getLast? ≠ some 0#8)) ∧
    (m.getLast? = some 0#8 →
      padRemove P.S .zeros (padApply P.S .zeros fill m) =
        m.take (P.S * ((m.length - 1) / P.S))
          ++ (m.drop (P.S * ((m.length - 1) / P.S))).rdropWhile (· == 0#8))

/-- 40_padding.md R215: PKCS7, ANSI_X923 and ISO10126 application is injective, whatever the draws; Zeros is
not. -/
def Obligations.PadApplyIsInjective : Prop :=
  (∀ (P : Params) (k : PaddingKind) (fill fill' : Nat → Byte) (m m' : Bytes), k ≠ .zeros →
    padApply P.S k fill m = padApply P.S k fill' m' → m = m')
  ∧ (∀ (P : Params) (fill : Nat → Byte),
    padApply P.S .zeros fill [0x41] = padApply P.S .zeros fill [0x41, 0x00])

/-- 40_padding.md R213: a lone full padding block of each kind is removed whole, and R207: removal touches
nothing before the final block. -/
def Obligations.FullPaddingBlockCollapses : Prop :=
  ∀ (P : Params) (x b : Bytes), x.length % P.S = 0 → b.length = P.S →
    (padRemove P.S .pkcs7 (x ++ List.replicate P.S (BitVec.ofNat 8 P.S)) = x) ∧
    (padRemove P.S .ansiX923 (x ++ List.replicate (P.S - 1) 0#8 ++ [BitVec.ofNat 8 P.S]) = x) ∧
    (b.getLast? = some (BitVec.ofNat 8 P.S) → padRemove P.S .iso10126 (x ++ b) = x) ∧
    (padRemove P.S .zeros (x ++ List.replicate P.S 0#8) = x) ∧
    (∀ k, padRemove P.S k (x ++ b) = x ++ removeLast P.S k b)

/-! ### Mode drivers -/

/-- 41_mode_drivers.md R233, R235, R237, R239, R241, R243, R245: the encrypt steps as (output, next chaining
register). -/
def Obligations.EncryptStepFormulas : Prop :=
  ∀ (d : Driver) (prev x : Bytes) (i : Nat),
    (d.mode = .ecb → blockStep d .enc prev i x = (d.enc x, prev)) ∧
    (d.mode = .cbc → blockStep d .enc prev i x =
      (d.enc (xorBytes x prev), d.enc (xorBytes x prev))) ∧
    (d.mode = .pcbc → blockStep d .enc prev i x =
      (d.enc (xorBytes x prev), xorBytes x (d.enc (xorBytes x prev)))) ∧
    (d.mode = .cfb → blockStep d .enc prev i x =
      (xorBytes x ((d.enc prev).take x.length),
        zext d.size (xorBytes x ((d.enc prev).take x.length)))) ∧
    (d.mode = .ofb → blockStep d .enc prev i x =
      (xorBytes x ((d.enc prev).take x.length), d.enc prev)) ∧
    (d.mode = .ctr → blockStep d .enc prev i x =
      (xorBytes x ((d.enc (counterBlock d i)).take x.length), prev)) ∧
    (d.mode = .randomDelta → blockStep d .enc prev i x =
      (d.enc (xorBytes x prev), xorBytes prev d.delta))

/-- 41_mode_drivers.md R234, R236, R238, R240, R242, R244, R247: the decrypt steps as (output, next chaining
register); in OFB and CTR the step is its own inverse from the same chaining register and position. -/
def Obligations.DecryptStepFormulas : Prop :=
  ∀ (d : Driver) (prev x : Bytes) (i : Nat),
    (d.mode = .ecb → blockStep d .dec prev i x = (d.dec x, prev)) ∧
    (d.mode = .cbc → blockStep d .dec prev i x = (xorBytes (d.dec x) prev, x)) ∧
    (d.mode = .pcbc → blockStep d .dec prev i x =
      (xorBytes (d.dec x) prev, xorBytes (xorBytes (d.dec x) prev) x)) ∧
    (d.mode = .cfb → blockStep d .dec prev i x =
      (xorBytes x ((d.enc prev).take x.length), zext d.size x)) ∧
    (d.mode = .ofb → blockStep d .dec prev i x = blockStep d .enc prev i x ∧
      blockStep d .dec prev i x = (xorBytes x ((d.enc prev).take x.length), d.enc prev) ∧
      (x.length ≤ (d.enc prev).length →
        (blockStep d .dec prev i (blockStep d .dec prev i x).1).1 = x)) ∧
    (d.mode = .ctr → blockStep d .dec prev i x = blockStep d .enc prev i x ∧
      blockStep d .dec prev i x = (xorBytes x ((d.enc (counterBlock d i)).take x.length), prev) ∧
      (x.length ≤ (d.enc (counterBlock d i)).length →
        (blockStep d .dec prev i (blockStep d .dec prev i x).1).1 = x)) ∧
    (d.mode = .randomDelta → blockStep d .dec prev i x =
      (xorBytes (d.dec x) prev, xorBytes prev d.delta))

/-- 41_mode_drivers.md R234, R238, R244: in every mode the decrypt step undoes the encrypt step from the same
chaining register and position, and reaches the same next chaining register. -/
def Obligations.DecryptStepUndoesEncryptStep : Prop :=
  ∀ (P : Params) (key ks : Bytes) (c : Context) (delta prev x : Bytes) (i : Nat), P.CipherLaw →
    P.setKey key = some ks → prev.length = P.S → x.length ≤ P.S →
    (padded c.mode = true → x.length = P.S) →
    blockStep (driverOf P ks c delta) .dec prev i
        (blockStep (driverOf P ks c delta) .enc prev i x).1
      = (x, (blockStep (driverOf P ks c delta) .enc prev i x).2)

/-- 41_mode_drivers.md R246: the counter block is the S-byte big-endian sum of the IV and the block index,
modulo 256^S. -/
def Obligations.CounterBlockIsTheBigEndianSum : Prop :=
  ∀ (P : Params) (ks : Bytes) (c : Context) (delta : Bytes) (i : Nat),
    (counterBlock (driverOf P ks c delta) i).length = P.S ∧
    bigEndian (counterBlock (driverOf P ks c delta) i)
      = (bigEndian c.iv + i % 2 ^ 64) % 256 ^ P.S ∧
    (c.iv.length = P.S → counterBlock (driverOf P ks c delta) 0 = c.iv)

/-- 41_mode_drivers.md R248: no mode uses D while encrypting, and CFB, OFB and CTR use it in neither direction:
another D changes nothing there. -/
def Obligations.EncryptionNeverCallsDec : Prop :=
  ∀ (d : Driver) (dec' : Bytes → Bytes) (dir : Direction) (prev : Bytes) (b : BitVec 64)
    (xs : List Bytes), dir = .enc ∨ padded d.mode = false →
    run { d with dec := dec' } dir prev b xs = run d dir prev b xs

/-- 41_mode_drivers.md R252: the output lengths. -/
def Obligations.OutputLengths : Prop :=
  ∀ (P : Params) (ks : Bytes) (c : Context) (delta : Bytes) (fill : Nat → Byte) (m : Bytes),
    c.iv.length = P.S → (c.mode = .randomDelta → delta.length = P.S) →
    (padded c.mode = true → c.pad ≠ .zeros →
      (encMsg (driverOf P ks c delta) fill m).1.length = P.S * (m.length / P.S + 1)) ∧
    (padded c.mode = true → c.pad = .zeros →
      (encMsg (driverOf P ks c delta) fill m).1.length =
        if m = [] then P.S else P.S * ((m.length + P.S - 1) / P.S)) ∧
    (padded c.mode = false →
      (encMsg (driverOf P ks c delta) fill m).1.length = m.length ∧
      (decMsg (driverOf P ks c delta) m).1.length = m.length) ∧
    (padded c.mode = true → m.length % P.S = 0 →
      ∃ t, t ≤ P.S ∧ (decMsg (driverOf P ks c delta) m).1.length + t = m.length)

/-- 41_mode_drivers.md R253: decryption of the encryption is the message, for every mode, padding, message and
draw, except exactly Zeros in a padded mode on a message that ends in 00. -/
def Obligations.MessageRoundTrip : Prop :=
  ∀ (P : Params) (key ks : Bytes) (c : Context) (delta : Bytes) (fill : Nat → Byte) (m : Bytes),
    P.CipherLaw → P.setKey key = some ks → c.iv.length = P.S →
    (c.mode = .randomDelta → delta.length = P.S) →
    ((decMsg (driverOf P ks c delta) (encMsg (driverOf P ks c delta) fill m).1).1 = m ↔
      ¬ (padded c.mode = true ∧ c.pad = .zeros ∧ m.getLast? = some 0#8))

/-- 10_state.md R58: two ENCRYPTs under one context and key, of the same bytes and with no random filler, give
the same output, whatever was encrypted before and wherever the bytes stand. -/
def Obligations.EncryptIsDeterministic : Prop :=
  ∀ (s s' t t' : State) (l l' : Latch) (c : Context), s.Inv Config.chip → s'.Inv Config.chip →
    s.pending = some l → s'.pending = some l' → s.ctx = some c → s'.ctx = some c → s.ks = s'.ks →
    (padded c.mode = true → c.pad ≠ .iso10126) →
    s.mem.readRange l.srcAddr.toNat l.srcLen.toNat
      = s'.mem.readRange l'.srcAddr.toNat l'.srcLen.toNat →
    exec .encrypt s = .next t → exec .encrypt s' = .next t' → t.ecode = .none → t'.ecode = .none →
    t.outLen = t'.outLen ∧ t.blkIdx = t'.blkIdx ∧
    t.mem.readRange l.dstAddr.toNat t.outLen.toNat
      = t'.mem.readRange l'.dstAddr.toNat t'.outLen.toNat

/-! ### Scheduler and streams -/

/-- 42_scheduler_streaming.md R283: for ECB and CTR the parallel path gives the output of the ordered run, for
every split into slices and every completion order in which every slice is computed. -/
def Obligations.LaneOrderIsInvisible : Prop :=
  ∀ (d : Driver) (dir : Direction) (prev : Bytes) (b : BitVec 64) (slices : List (List Bytes))
    (order : List Nat), independent d.mode = true → (∀ j, j < slices.length → j ∈ order) →
    parallelRun d dir prev b slices order = (run d dir prev b slices.flatten).out

/-- 42_scheduler_streaming.md R285: cutting a run into chunks, the chaining register and the position carried
across, changes no output byte and no register. -/
def Obligations.InternalChunksAreInvisible : Prop :=
  ∀ (d : Driver) (dir : Direction) (prev : Bytes) (b : BitVec 64) (chunks : List (List Bytes)),
    chunkedRun d dir prev b chunks = run d dir prev b chunks.flatten

/-- 42_scheduler_streaming.md R280-R285: the scheduler's path, with lanes for ECB and CTR, chunks or one pass
otherwise, is the ordered run, for every NUM_LANES, CHUNK_CEIL, STREAM_CHUNK and DIRECT_THRESHOLD. -/
def Obligations.SchedulerRefinesTheOrderedRun : Prop :=
  ∀ (P : Params) (d : Driver) (dir : Direction) (prev : Bytes) (b : BitVec 64) (xs : List Bytes),
    engineRun P d dir prev b xs = run d dir prev b xs

/-- 42_scheduler_streaming.md R290 and R291: the blocks an update processes now, the run over them from the
carried registers, and how many bytes it leaves withheld. -/
def Obligations.UpdateWithholdsTheRightBytes : Prop :=
  ∀ (P : Params) (ks : Bytes) (c : Context) (delta : Bytes) (dir : Direction) (w : Carried)
    (m : Bytes),
    let d := driverOf P ks c delta
    let b := w.hold ++ m
    let n := if padded c.mode = true ∧ dir = .dec then (if b.length = 0 then 0 else (b.length - 1) / P.S)
      else b.length / P.S
    let r := run d dir w.prev w.index (segments P.S (b.take (n * P.S)))
    let u := updateStep d dir w m
    let h := u.2.hold
    u.1 = r.out ∧ u.2.prev = r.prev ∧ u.2.index = r.index ∧
    b = b.take (n * P.S) ++ h ∧ n * P.S + h.length = b.length ∧
    (¬ (padded c.mode = true ∧ dir = .dec) → h.length ≤ P.S - 1) ∧
    (padded c.mode = true ∧ dir = .dec → (b ≠ [] → 1 ≤ h.length) ∧ h.length ≤ P.S ∧
      (b = [] → h.length = 0))

/-- 42_scheduler_streaming.md R293: a stream in any chunks gives the single-shot result and the same final
BLKIDX, with the same draws. Messages of 2^64 bytes and more are left out: 10_state.md R63 calls a wrap of
BLKIDX unreachable. -/
def Obligations.StreamEqualsSingleShot : Prop :=
  ∀ (P : Params) (ks : Bytes) (c : Context) (delta : Bytes) (fill : Nat → Byte) (ms : List Bytes),
    c.iv.length = P.S → (c.mode = .randomDelta → delta.length = P.S) → ms.flatten.length < 2 ^ 64 →
    (streamFrom (driverOf P ks c delta) .enc fill (streamStart (driverOf P ks c delta)) ms
      = encMsg (driverOf P ks c delta) fill ms.flatten) ∧
    ((padded c.mode = true → ms.flatten.length % P.S = 0) →
      streamFrom (driverOf P ks c delta) .dec fill (streamStart (driverOf P ks c delta)) ms
        = decMsg (driverOf P ks c delta) ms.flatten)
end

