-- ==== Sys2Proof/Laws/Bytes.lean ====
section
/-! SUPPORT. The laws of byte strings, segments, big-endian integers and window words. -/

namespace Sys2Proof

theorem Params.S_pos (P : Params) : 0 < P.S := by unfold Params.S; omega

theorem Params.four_le_S (P : Params) : 4 ≤ P.S := by unfold Params.S; omega

theorem Params.S_le (P : Params) : P.S ≤ 32 := by
  have h := P.sizeIndex.isLt
  unfold Params.S
  omega

theorem Params.S_mod (P : Params) : P.S % 4 = 0 := by unfold Params.S; omega

namespace Machine

@[simp] theorem rep_length (n : Nat) (v : Byte) : (rep n v).length = n := by simp [rep]

@[simp] theorem zeros_length (n : Nat) : (zeros n).length = n := by simp [zeros]

@[simp] theorem zeros_zero : zeros 0 = [] := rfl

theorem xorBytes_length (a b : Bytes) : (xorBytes a b).length = min a.length b.length := by
  simp [xorBytes]

theorem xorBytes_length_of_eq {a b : Bytes} (h : a.length = b.length) :
    (xorBytes a b).length = a.length := by simp [xorBytes_length, h]

theorem xorBytes_comm (a b : Bytes) : xorBytes a b = xorBytes b a := by
  unfold xorBytes
  exact List.zipWith_comm_of_comm (fun x y => BitVec.xor_comm x y)

/-- Exclusive-or with the same bytes twice gives the first operand back. -/
theorem xorBytes_cancel : ∀ {a b : Bytes}, a.length ≤ b.length → xorBytes (xorBytes a b) b = a
  | [], _, _ => by simp [xorBytes]
  | x :: a, [], h => by simp at h
  | x :: a, y :: b, h => by
    have ih := xorBytes_cancel (a := a) (b := b) (by simpa using h)
    simp only [xorBytes, List.zipWith_cons_cons] at ih ⊢
    rw [ih, BitVec.xor_assoc, BitVec.xor_self, BitVec.xor_zero]

/-- Exclusive-or with the same bytes twice gives the second operand back. -/
theorem xorBytes_cancel_left {a b : Bytes} (h : b.length ≤ a.length) :
    xorBytes a (xorBytes a b) = b := by
  rw [xorBytes_comm a (xorBytes a b), xorBytes_comm a b]
  exact xorBytes_cancel h

@[simp] theorem trunc_length (n : Nat) (x : Bytes) : (trunc n x).length = min n x.length := by
  simp [trunc]

theorem zext_length {n : Nat} {x : Bytes} (h : x.length ≤ n) : (zext n x).length = n := by
  simp [zext]; omega

@[simp] theorem fitBlock_length (n : Nat) (x : Bytes) : (fitBlock n x).length = n := by
  unfold fitBlock
  exact zext_length (by simp)

theorem fitBlock_eq_self {n : Nat} {x : Bytes} (h : x.length = n) : fitBlock n x = x := by
  simp [fitBlock, zext, h]

@[simp] theorem encWith_length (P : Params) (k b : Bytes) : (encWith P k b).length = P.S := by
  simp [encWith]

@[simp] theorem decWith_length (P : Params) (k b : Bytes) : (decWith P k b).length = P.S := by
  simp [decWith]

@[simp] theorem freeBytes_length (P : Params) (t n : Nat) : (freeBytes P t n).length = n := by
  simp [freeBytes]

theorem slice_length {x : Bytes} {a b : Nat} (h : b ≤ x.length) : (slice x a b).length = b - a := by
  simp [slice, h]

theorem slice_zero (x : Bytes) (b : Nat) : slice x 0 b = x.take b := by simp [slice]

theorem slice_to_end (x : Bytes) (a : Nat) : slice x a x.length = x.drop a := by simp [slice]

/-! ### Segments -/

theorem segmentsUpTo_nil (n fuel : Nat) : segmentsUpTo n fuel [] = [] := by
  cases fuel <;> simp [segmentsUpTo]

/-- More fuel than the string is long changes nothing. -/
theorem segmentsUpTo_eq {n : Nat} (hn : 0 < n) :
    ∀ (fuel : Nat) (x : Bytes), x.length ≤ fuel → segmentsUpTo n fuel x = segments n x := by
  intro fuel
  induction fuel using Nat.strong_induction_on with
  | _ fuel ih =>
    intro x hx
    cases hlen : x.length with
    | zero =>
      have : x = [] := List.length_eq_zero_iff.mp hlen
      subst this
      simp [segments, segmentsUpTo_nil]
    | succ k =>
      obtain ⟨f, rfl⟩ : ∃ f, fuel = f + 1 := ⟨fuel - 1, by omega⟩
      have hne : x ≠ [] := by intro h; simp [h] at hlen
      have hd : (x.drop n).length ≤ k := by simp; omega
      unfold segments
      rw [hlen]
      simp only [segmentsUpTo, hne, if_false]
      rw [ih f (by omega) _ (by omega)]
      by_cases hf : k = f
      · subst hf; rw [ih k (by omega) _ hd]
      · rw [ih k (by omega) _ hd]

@[simp] theorem segments_nil (n : Nat) : segments n [] = [] := by simp [segments, segmentsUpTo]

theorem segments_cons {n : Nat} (hn : 0 < n) {x : Bytes} (hx : x ≠ []) :
    segments n x = x.take n :: segments n (x.drop n) := by
  have hpos : 0 < x.length := List.length_pos_of_ne_nil hx
  obtain ⟨k, hk⟩ : ∃ k, x.length = k + 1 := ⟨x.length - 1, by omega⟩
  rw [show segments n x = segmentsUpTo n x.length x from rfl, hk]
  simp only [segmentsUpTo, hx, if_false]
  rw [segmentsUpTo_eq hn k (x.drop n) (by simp; omega)]

/-- The case analysis every proof over segments goes by: nothing left, or one more segment. -/
theorem segments_induction {n : Nat} (hn : 0 < n) {motive : Bytes → Prop} (nil : motive [])
    (cons : ∀ x, x ≠ [] → motive (x.drop n) → motive x) : ∀ x, motive x := by
  intro x
  induction hlen : x.length using Nat.strong_induction_on generalizing x with
  | _ k ih =>
    by_cases hx : x = []
    · exact hx ▸ nil
    · have hpos : 0 < x.length := List.length_pos_of_ne_nil hx
      exact cons x hx (ih _ (by simp; omega) _ rfl)

theorem segments_flatten {n : Nat} (hn : 0 < n) (x : Bytes) : (segments n x).flatten = x := by
  induction x using segments_induction hn with
  | nil => simp
  | cons x hx ih => rw [segments_cons hn hx]; simp [ih]

theorem segments_bounds {n : Nat} (hn : 0 < n) (x : Bytes) :
    ∀ s ∈ segments n x, 0 < s.length ∧ s.length ≤ n := by
  induction x using segments_induction hn with
  | nil => simp
  | cons x hx ih =>
    intro s hs
    rw [segments_cons hn hx] at hs
    rcases List.mem_cons.mp hs with rfl | h
    · have := List.length_pos_of_ne_nil hx
      simp; omega
    · exact ih s h

/-- On a multiple of the block size every segment is a whole block. -/
theorem segments_blocks {n : Nat} (hn : 0 < n) (x : Bytes) :
    x.length % n = 0 → ∀ s ∈ segments n x, s.length = n := by
  induction x using segments_induction hn with
  | nil => simp
  | cons x hx ih =>
    intro hm s hs
    have hpos := List.length_pos_of_ne_nil hx
    have hle : n ≤ x.length := Nat.le_of_dvd hpos (Nat.dvd_of_mod_eq_zero hm)
    rw [segments_cons hn hx] at hs
    rcases List.mem_cons.mp hs with rfl | h
    · simp [hle]
    · refine ih ?_ s h
      rw [List.length_drop]
      exact (Nat.mod_eq_sub_mod hle).symm.trans hm

theorem segments_length {n : Nat} (hn : 0 < n) (x : Bytes) :
    (segments n x).length = (x.length + n - 1) / n := by
  induction x using segments_induction hn with
  | nil => simp [Nat.div_eq_of_lt (show n - 1 < n by omega)]
  | cons x hx ih =>
    have hpos := List.length_pos_of_ne_nil hx
    rw [segments_cons hn hx, List.length_cons, ih, List.length_drop]
    by_cases h : n ≤ x.length
    · rw [show x.length + n - 1 = (x.length - n + n - 1) + n by omega, Nat.add_div_right _ hn]
    · rw [show x.length - n + n - 1 = n - 1 by omega,
        show x.length + n - 1 = (x.length - 1) + n by omega, Nat.add_div_right _ hn,
        Nat.div_eq_of_lt (by omega), Nat.div_eq_of_lt (by omega)]

theorem segments_length_mul {n : Nat} (hn : 0 < n) {x : Bytes} {k : Nat} (h : x.length = k * n) :
    (segments n x).length = k := by
  rw [segments_length hn, h, Nat.div_eq_of_lt_le] <;> [skip; skip]
  · omega
  · rw [Nat.succ_mul]; omega

/-- Whole blocks first, then the rest. -/
theorem segments_append {n : Nat} (hn : 0 < n) (x y : Bytes) :
    x.length % n = 0 → segments n (x ++ y) = segments n x ++ segments n y := by
  induction x using segments_induction hn with
  | nil => simp
  | cons x hx ih =>
    intro hm
    have hpos := List.length_pos_of_ne_nil hx
    have hle : n ≤ x.length := Nat.le_of_dvd hpos (Nat.dvd_of_mod_eq_zero hm)
    rw [segments_cons hn hx, segments_cons hn (by simp [hx]), List.take_append_of_le_length hle,
      List.drop_append_of_le_length hle, ih, List.cons_append]
    rw [List.length_drop]
    exact (Nat.mod_eq_sub_mod hle).symm.trans hm

/-- A nonempty string no longer than a block is its own one segment. -/
theorem segments_single {n : Nat} {x : Bytes} (hx : x ≠ []) (h : x.length ≤ n) :
    segments n x = [x] := by
  have hpos := List.length_pos_of_ne_nil hx
  rw [segments_cons (by omega) hx, List.take_of_length_le h, List.drop_eq_nil_of_le h, segments_nil]

/-- Segments of the right sizes are the segments of what they make up. -/
theorem segments_of_flatten {n : Nat} (hn : 0 < n) :
    ∀ xs : List Bytes, (∀ s ∈ xs, s.length = n) → segments n xs.flatten = xs
  | [], _ => by simp
  | x :: xs, h => by
    have hx : x.length = n := h x (by simp)
    have hne : x ≠ [] := by intro he; simp [he] at hx; omega
    rw [List.flatten_cons, segments_append hn _ _ (by simp [hx]),
      segments_single hne (by omega), segments_of_flatten hn xs (fun s hs => h s (by simp [hs]))]
    rfl

/-! ### Big-endian integers -/

@[simp] theorem toBigEndian_length : ∀ n v : Nat, (toBigEndian n v).length = n
  | 0, _ => rfl
  | n + 1, v => by simp [toBigEndian, toBigEndian_length n]

theorem bigEndian_append_singleton (x : Bytes) (b : Byte) :
    bigEndian (x ++ [b]) = bigEndian x * 256 + b.toNat := by
  simp [bigEndian, List.foldl_append]

/-- `toBE_n(v)` is the n-byte string with `BE(toBE_n(v)) = v mod 256^n` (00_scope.md R9). -/
theorem bigEndian_toBigEndian : ∀ n v : Nat, bigEndian (toBigEndian n v) = v % 256 ^ n
  | 0, v => by simp [toBigEndian, bigEndian, Nat.mod_one]
  | n + 1, v => by
    rw [toBigEndian, bigEndian_append_singleton, bigEndian_toBigEndian n]
    simp only [BitVec.toNat_ofNat]
    rw [show (256 : Nat) ^ (n + 1) = 256 * 256 ^ n by ring, Nat.mod_mul]
    omega

theorem bigEndian_lt (x : Bytes) : bigEndian x < 256 ^ x.length := by
  induction x using List.reverseRecOn with
  | nil => simp [bigEndian]
  | append_singleton x b ih =>
    rw [bigEndian_append_singleton, List.length_append, List.length_singleton, Nat.pow_succ]
    have := b.isLt
    omega

theorem toBigEndian_bigEndian (x : Bytes) : toBigEndian x.length (bigEndian x) = x := by
  induction x using List.reverseRecOn with
  | nil => simp [toBigEndian]
  | append_singleton x b ih =>
    have hb := b.isLt
    rw [bigEndian_append_singleton, List.length_append, List.length_singleton, toBigEndian]
    rw [show (bigEndian x * 256 + b.toNat) / 256 = bigEndian x by omega, ih]
    congr 2
    apply BitVec.eq_of_toNat_eq
    simp
    omega

/-! ### Windows -/

theorem allPresent_length : ∀ {l : List (Option Byte)} {x : Bytes}, allPresent l = some x →
    x.length = l.length
  | [], x, h => by simp [allPresent] at h; simp [← h]
  | none :: _, x, h => by simp [allPresent] at h
  | some b :: l, x, h => by
    simp only [allPresent, Option.map_eq_some_iff] at h
    obtain ⟨y, hy, rfl⟩ := h
    simp [allPresent_length hy]

theorem allPresent_eq_some : ∀ (l : List (Option Byte)) (x : Bytes),
    allPresent l = some x ↔ l = x.map some
  | [], x => by cases x <;> simp [allPresent]
  | none :: _, x => by cases x <;> simp [allPresent]
  | some b :: l, x => by
    cases x with
    | nil => simp [allPresent]
    | cons c x =>
      simp only [allPresent, Option.map_eq_some_iff, List.map_cons, List.cons.injEq,
        Option.some.injEq]
      constructor
      · rintro ⟨y, hy, rfl, rfl⟩; exact ⟨rfl, (allPresent_eq_some l y).mp hy⟩
      · rintro ⟨rfl, h⟩; exact ⟨x, (allPresent_eq_some l x).mpr h, rfl, rfl⟩

theorem allPresent_eq_none : ∀ l : List (Option Byte), allPresent l = none ↔ none ∈ l
  | [] => by simp [allPresent]
  | none :: _ => by simp [allPresent]
  | some b :: l => by simp [allPresent, allPresent_eq_none l]

theorem windowBytes_length {m n : Nat} {w : Window m} {x : Bytes} (hn : n ≤ m)
    (h : windowBytes w n = some x) : x.length = n := by
  rw [allPresent_length h]; simp [hn]

/-- The first `n` bytes of a window are the ones it holds at indexes 0 … n-1. -/
theorem windowBytes_eq_some {m n : Nat} (w : Window m) (x : Bytes) (hn : n ≤ m) :
    windowBytes w n = some x ↔ x.length = n ∧ ∀ j, j < n → windowByte w j = x[j]? := by
  unfold windowBytes
  rw [allPresent_eq_some]
  have key : ∀ j, j < n → (w.toList.take n)[j]? = w[j]? := by
    intro j hj
    rw [List.getElem?_take_of_lt hj]
    rw [Vector.getElem?_toList]
  constructor
  · intro h
    have hl : x.length = n := by
      have := congrArg List.length h
      simp [hn] at this
      exact this.symm
    refine ⟨hl, fun j hj => ?_⟩
    unfold windowByte
    rw [← key j hj, h, List.getElem?_map]
    cases hx : x[j]? with
    | none => rw [List.getElem?_eq_none_iff] at hx; omega
    | some b => rfl
  · rintro ⟨hl, h⟩
    apply List.ext_getElem?
    intro j
    by_cases hj : j < n
    · rw [key j hj, List.getElem?_map]
      have hb := h j hj
      unfold windowByte at hb
      have hx : x[j]? = some x[j] := List.getElem?_eq_getElem (by omega)
      have hw : w[j]? = some w[j] := Vector.getElem?_eq_getElem (by omega)
      rw [hx, hw] at hb ⊢
      simp at hb
      simp [hb]
    · rw [List.getElem?_eq_none (by simp; omega), List.getElem?_eq_none (by simp; omega)]

end Machine

end Sys2Proof
end

