-- ==== Sys2Proof/Laws/Memory.lean ====
section
/-! SUPPORT. The laws of memory: every operation keeps the canonical form, a read after a write gives the
value written, and a write leaves every other byte alone. -/

namespace Sys2Proof.Machine

theorem Memory.wfFrom_mono : ∀ {m : Memory} {lo hi : Nat}, lo ≤ hi → m.wfFrom hi = true →
    m.wfFrom lo = true
  | [], _, _, _, _ => rfl
  | (a, b) :: m, lo, hi, h, hw => by
    simp only [Memory.wfFrom, Bool.and_eq_true, decide_eq_true_eq] at hw ⊢
    exact ⟨⟨by omega, hw.1.2⟩, hw.2⟩

theorem Memory.write_wfFrom : ∀ {m : Memory} {lo a : Nat} (v : Byte), lo ≤ a → m.wfFrom lo = true →
    (m.write a v).wfFrom lo = true
  | [], lo, a, v, h, _ => by
    unfold Memory.write
    split <;> simp_all [Memory.wfFrom]
  | (k, b) :: m, lo, a, v, h, hw => by
    simp only [Memory.wfFrom, Bool.and_eq_true, decide_eq_true_eq] at hw
    obtain ⟨⟨hk, hb⟩, hm⟩ := hw
    unfold Memory.write
    split
    · split
      · simp [Memory.wfFrom, hk, hb, hm]
      · simp only [Memory.wfFrom, Bool.and_eq_true, decide_eq_true_eq]
        exact ⟨⟨h, by simpa using ‹¬v = _›⟩, ⟨by omega, hb⟩, hm⟩
    · split
      · subst a
        split
        · exact Memory.wfFrom_mono (by omega) hm
        · simp only [Memory.wfFrom, Bool.and_eq_true, decide_eq_true_eq]
          exact ⟨⟨h, by simpa using ‹¬v = _›⟩, hm⟩
      · simp only [Memory.wfFrom, Bool.and_eq_true, decide_eq_true_eq]
        exact ⟨⟨hk, hb⟩, Memory.write_wfFrom v (by omega) hm⟩

/-- A write keeps the canonical form. -/
theorem Memory.write_wf {m : Memory} (a : Nat) (v : Byte) (h : m.wf = true) :
    (m.write a v).wf = true := Memory.write_wfFrom v (Nat.zero_le a) h

/-- A range write keeps the canonical form. -/
theorem Memory.writeRange_wf : ∀ {m : Memory} (a : Nat) (x : Bytes), m.wf = true →
    (m.writeRange a x).wf = true
  | _, _, [], h => h
  | _, a, b :: x, h => Memory.writeRange_wf (a + 1) x (Memory.write_wf a b h)

theorem Memory.inSpace_cons (c : Host.Cell) (m : Memory) :
    Memory.inSpace (c :: m) = true ↔ c.1 < addressLimit ∧ Memory.inSpace m = true := by
  simp [Memory.inSpace]

theorem Memory.write_inSpace : ∀ {m : Memory} {a : Nat} (v : Byte), a < addressLimit →
    m.inSpace = true → (m.write a v).inSpace = true
  | [], a, v, ha, _ => by
    unfold Memory.write
    split <;> simp_all [Memory.inSpace]
  | (k, b) :: m, a, v, ha, h => by
    rw [Memory.inSpace_cons] at h
    have ih := Memory.write_inSpace v ha (m := m) h.2
    unfold Memory.write
    repeat' split
    · exact (Memory.inSpace_cons _ _).mpr h
    · exact (Memory.inSpace_cons _ _).mpr ⟨ha, (Memory.inSpace_cons _ _).mpr h⟩
    · exact h.2
    · exact (Memory.inSpace_cons _ _).mpr ⟨ha, h.2⟩
    · exact (Memory.inSpace_cons _ _).mpr ⟨h.1, ih⟩

/-- A range write inside the address space stays in it. -/
theorem Memory.writeRange_inSpace : ∀ {m : Memory} {a : Nat} {x : Bytes},
    (x = [] ∨ a + x.length ≤ addressLimit) → m.inSpace = true → (m.writeRange a x).inSpace = true
  | _, _, [], _, h => h
  | m, a, b :: x, hx, h => by
    simp only [List.length_cons, reduceCtorEq, false_or] at hx
    have hw : (m.write a b).inSpace = true := Memory.write_inSpace b (by omega) h
    exact Memory.writeRange_inSpace (m := m.write a b) (Or.inr (by omega)) hw

theorem Memory.read_of_wfFrom : ∀ {m : Memory} {lo a : Nat}, m.wfFrom lo = true → a < lo →
    m.read a = Memory.unlisted
  | [], _, _, _, _ => rfl
  | (k, b) :: m, lo, a, h, ha => by
    simp only [Memory.wfFrom, Bool.and_eq_true, decide_eq_true_eq] at h
    rw [Memory.read, if_neg (by omega)]
    exact Memory.read_of_wfFrom h.2 (by omega)

/-- A write leaves every other byte alone. -/
theorem Memory.read_write_ne : ∀ (m : Memory) {a c : Nat} (v : Byte), c ≠ a →
    (m.write a v).read c = m.read c
  | [], a, c, v, h => by
    unfold Memory.write
    split <;> simp [Memory.read, h.symm]
  | (k, b) :: m, a, c, v, h => by
    unfold Memory.write
    split
    · split
      · rfl
      · simp [Memory.read, h.symm]
    · split
      · subst a
        split <;> simp [Memory.read, h.symm]
      · simp only [Memory.read, Memory.read_write_ne m v h]

theorem Memory.read_write_self_from : ∀ {m : Memory} {lo a : Nat} (v : Byte), m.wfFrom lo = true →
    lo ≤ a → (m.write a v).read a = v
  | [], lo, a, v, _, _ => by
    unfold Memory.write
    split <;> simp_all [Memory.read]
  | (k, b) :: m, lo, a, v, h, ha => by
    have hw := h
    simp only [Memory.wfFrom, Bool.and_eq_true, decide_eq_true_eq] at h
    unfold Memory.write
    split
    · rename_i hk
      split
      · rename_i hv
        subst hv
        rw [Memory.read, if_neg (by omega)]
        exact Memory.read_of_wfFrom h.2 (by omega)
      · simp [Memory.read]
    · split
      · subst a
        split
        · rename_i hv
          subst hv
          exact Memory.read_of_wfFrom h.2 (by omega)
        · simp [Memory.read]
      · rw [Memory.read, if_neg (by omega)]
        exact Memory.read_write_self_from v h.2 (by omega)

/-- A read after a write to the same byte gives the value written. -/
theorem Memory.read_write_self {m : Memory} (a : Nat) (v : Byte) (h : m.wf = true) :
    (m.write a v).read a = v := Memory.read_write_self_from v h (Nat.zero_le a)

/-- A range write leaves every byte outside the range alone. -/
theorem Memory.read_writeRange_outside : ∀ (m : Memory) {a c : Nat} (x : Bytes),
    (c < a ∨ a + x.length ≤ c) → (m.writeRange a x).read c = m.read c
  | _, _, _, [], _ => rfl
  | m, a, c, b :: x, h => by
    simp only [List.length_cons] at h
    rw [Memory.writeRange, Memory.read_writeRange_outside _ x (by omega),
      Memory.read_write_ne m b (by omega)]

/-- A range write puts byte `i` of the string at the i-th address. -/
theorem Memory.read_writeRange_inside : ∀ {m : Memory} {a i : Nat} {x : Bytes} (_ : m.wf = true)
    (hi : i < x.length), (m.writeRange a x).read (a + i) = x[i]
  | _, _, _, [], _, hi => by simp at hi
  | m, a, 0, b :: x, h, _ => by
    rw [Memory.writeRange, Memory.read_writeRange_outside _ x (by omega)]
    exact Memory.read_write_self a b h
  | m, a, i + 1, b :: x, h, hi => by
    simp only [List.length_cons] at hi
    rw [Memory.writeRange, show a + (i + 1) = (a + 1) + i by omega,
      Memory.read_writeRange_inside (Memory.write_wf a b h) (by omega)]
    rfl

@[simp] theorem Memory.readRange_length (m : Memory) (a n : Nat) : (m.readRange a n).length = n := by
  simp [Memory.readRange]

/-- Two memories that agree on a range read the same there. -/
theorem Memory.readRange_congr {m m' : Memory} {a n : Nat}
    (h : ∀ i, i < n → m.read (a + i) = m'.read (a + i)) : m.readRange a n = m'.readRange a n := by
  apply List.map_congr_left
  intro i hi
  exact h i (List.mem_range.mp hi)

end Sys2Proof.Machine
end

