-- ==== Sys2Proof/Laws/State.lean ====
section
/-! SUPPORT. One lemma per field of State and per shared update of it, so that no proof unfolds a record
update. -/

namespace Sys2Proof.Machine

/-! ### `accept` -/

@[simp] theorem accept_done (s : State) (w : Word) : (accept s w).done = false := rfl
@[simp] theorem accept_err (s : State) (w : Word) : (accept s w).err = false := rfl
@[simp] theorem accept_ecode (s : State) (w : Word) : (accept s w).ecode = .none := rfl
@[simp] theorem accept_rej (s : State) (w : Word) : (accept s w).rej = s.rej := rfl
@[simp] theorem accept_doneIe (s : State) (w : Word) : (accept s w).doneIe = s.doneIe := rfl
@[simp] theorem accept_srcAddr (s : State) (w : Word) : (accept s w).srcAddr = s.srcAddr := rfl
@[simp] theorem accept_srcLen (s : State) (w : Word) : (accept s w).srcLen = s.srcLen := rfl
@[simp] theorem accept_dstAddr (s : State) (w : Word) : (accept s w).dstAddr = s.dstAddr := rfl
@[simp] theorem accept_dstCap (s : State) (w : Word) : (accept s w).dstCap = s.dstCap := rfl
@[simp] theorem accept_outLen (s : State) (w : Word) : (accept s w).outLen = s.outLen := rfl
@[simp] theorem accept_ivLen (s : State) (w : Word) : (accept s w).ivLen = s.ivLen := rfl
@[simp] theorem accept_deltaLen (s : State) (w : Word) : (accept s w).deltaLen = s.deltaLen := rfl
@[simp] theorem accept_keyLen (s : State) (w : Word) : (accept s w).keyLen = s.keyLen := rfl
@[simp] theorem accept_iv (s : State) (w : Word) : (accept s w).iv = s.iv := rfl
@[simp] theorem accept_delta (s : State) (w : Word) : (accept s w).delta = s.delta := rfl
@[simp] theorem accept_key (s : State) (w : Word) : (accept s w).key = s.key := rfl
@[simp] theorem accept_ctx (s : State) (w : Word) : (accept s w).ctx = s.ctx := rfl
@[simp] theorem accept_ks (s : State) (w : Word) : (accept s w).ks = s.ks := rfl
@[simp] theorem accept_prev (s : State) (w : Word) : (accept s w).prev = s.prev := rfl
@[simp] theorem accept_blkIdx (s : State) (w : Word) : (accept s w).blkIdx = s.blkIdx := rfl
@[simp] theorem accept_streamOpen (s : State) (w : Word) : (accept s w).streamOpen = s.streamOpen := rfl
@[simp] theorem accept_streamDir (s : State) (w : Word) : (accept s w).streamDir = s.streamDir := rfl
@[simp] theorem accept_hold (s : State) (w : Word) : (accept s w).hold = s.hold := rfl
@[simp] theorem accept_pending (s : State) (w : Word) : (accept s w).pending = some (latchOf s w) := rfl
@[simp] theorem accept_mem (s : State) (w : Word) : (accept s w).mem = s.mem := rfl
@[simp] theorem accept_free (s : State) (w : Word) : (accept s w).free = s.free := rfl
@[simp] theorem accept_busAnswers (s : State) (w : Word) : (accept s w).busAnswers = s.busAnswers := rfl
@[simp] theorem accept_events (s : State) (w : Word) : (accept s w).events = s.events := rfl
@[simp] theorem accept_answer (s : State) (w : Word) : (accept s w).answer = s.answer := rfl

/-! ### `complete` -/

@[simp] theorem complete_done (code : ErrorCode) (n : Nat) (s : State) :
    (complete code n s).done = true := rfl
@[simp] theorem complete_err (code : ErrorCode) (n : Nat) (s : State) :
    (complete code n s).err = (code != .none) := rfl
@[simp] theorem complete_ecode (code : ErrorCode) (n : Nat) (s : State) :
    (complete code n s).ecode = code := rfl
@[simp] theorem complete_rej (code : ErrorCode) (n : Nat) (s : State) :
    (complete code n s).rej = s.rej := rfl
@[simp] theorem complete_doneIe (code : ErrorCode) (n : Nat) (s : State) :
    (complete code n s).doneIe = s.doneIe := rfl
@[simp] theorem complete_srcAddr (code : ErrorCode) (n : Nat) (s : State) :
    (complete code n s).srcAddr = s.srcAddr := rfl
@[simp] theorem complete_srcLen (code : ErrorCode) (n : Nat) (s : State) :
    (complete code n s).srcLen = s.srcLen := rfl
@[simp] theorem complete_dstAddr (code : ErrorCode) (n : Nat) (s : State) :
    (complete code n s).dstAddr = s.dstAddr := rfl
@[simp] theorem complete_dstCap (code : ErrorCode) (n : Nat) (s : State) :
    (complete code n s).dstCap = s.dstCap := rfl
@[simp] theorem complete_outLen (code : ErrorCode) (n : Nat) (s : State) :
    (complete code n s).outLen = (if code = .none then BitVec.ofNat 32 n else 0) := rfl
@[simp] theorem complete_ivLen (code : ErrorCode) (n : Nat) (s : State) :
    (complete code n s).ivLen = s.ivLen := rfl
@[simp] theorem complete_deltaLen (code : ErrorCode) (n : Nat) (s : State) :
    (complete code n s).deltaLen = s.deltaLen := rfl
@[simp] theorem complete_keyLen (code : ErrorCode) (n : Nat) (s : State) :
    (complete code n s).keyLen = s.keyLen := rfl
@[simp] theorem complete_iv (code : ErrorCode) (n : Nat) (s : State) :
    (complete code n s).iv = s.iv := rfl
@[simp] theorem complete_delta (code : ErrorCode) (n : Nat) (s : State) :
    (complete code n s).delta = s.delta := rfl
@[simp] theorem complete_key (code : ErrorCode) (n : Nat) (s : State) :
    (complete code n s).key = s.key := rfl
@[simp] theorem complete_ctx (code : ErrorCode) (n : Nat) (s : State) :
    (complete code n s).ctx = s.ctx := rfl
@[simp] theorem complete_ks (code : ErrorCode) (n : Nat) (s : State) :
    (complete code n s).ks = s.ks := rfl
@[simp] theorem complete_prev (code : ErrorCode) (n : Nat) (s : State) :
    (complete code n s).prev = s.prev := rfl
@[simp] theorem complete_blkIdx (code : ErrorCode) (n : Nat) (s : State) :
    (complete code n s).blkIdx = s.blkIdx := rfl
@[simp] theorem complete_streamOpen (code : ErrorCode) (n : Nat) (s : State) :
    (complete code n s).streamOpen = s.streamOpen := rfl
@[simp] theorem complete_streamDir (code : ErrorCode) (n : Nat) (s : State) :
    (complete code n s).streamDir = s.streamDir := rfl
@[simp] theorem complete_hold (code : ErrorCode) (n : Nat) (s : State) :
    (complete code n s).hold = s.hold := rfl
@[simp] theorem complete_pending (code : ErrorCode) (n : Nat) (s : State) :
    (complete code n s).pending = none := rfl
@[simp] theorem complete_mem (code : ErrorCode) (n : Nat) (s : State) :
    (complete code n s).mem = s.mem := rfl
@[simp] theorem complete_free (code : ErrorCode) (n : Nat) (s : State) :
    (complete code n s).free = s.free := rfl
@[simp] theorem complete_busAnswers (code : ErrorCode) (n : Nat) (s : State) :
    (complete code n s).busAnswers = s.busAnswers := rfl
@[simp] theorem complete_events (code : ErrorCode) (n : Nat) (s : State) :
    (complete code n s).events = s.events := rfl
@[simp] theorem complete_answer (code : ErrorCode) (n : Nat) (s : State) :
    (complete code n s).answer = s.answer := rfl

/-! ### `closeStream` -/

@[simp] theorem closeStream_done (s : State) : (closeStream s).done = s.done := by unfold closeStream; split <;> rfl
@[simp] theorem closeStream_err (s : State) : (closeStream s).err = s.err := by unfold closeStream; split <;> rfl
@[simp] theorem closeStream_ecode (s : State) : (closeStream s).ecode = s.ecode := by unfold closeStream; split <;> rfl
@[simp] theorem closeStream_rej (s : State) : (closeStream s).rej = s.rej := by unfold closeStream; split <;> rfl
@[simp] theorem closeStream_doneIe (s : State) : (closeStream s).doneIe = s.doneIe := by unfold closeStream; split <;> rfl
@[simp] theorem closeStream_srcAddr (s : State) : (closeStream s).srcAddr = s.srcAddr := by unfold closeStream; split <;> rfl
@[simp] theorem closeStream_srcLen (s : State) : (closeStream s).srcLen = s.srcLen := by unfold closeStream; split <;> rfl
@[simp] theorem closeStream_dstAddr (s : State) : (closeStream s).dstAddr = s.dstAddr := by unfold closeStream; split <;> rfl
@[simp] theorem closeStream_dstCap (s : State) : (closeStream s).dstCap = s.dstCap := by unfold closeStream; split <;> rfl
@[simp] theorem closeStream_outLen (s : State) : (closeStream s).outLen = s.outLen := by unfold closeStream; split <;> rfl
@[simp] theorem closeStream_ivLen (s : State) : (closeStream s).ivLen = s.ivLen := by unfold closeStream; split <;> rfl
@[simp] theorem closeStream_deltaLen (s : State) : (closeStream s).deltaLen = s.deltaLen := by unfold closeStream; split <;> rfl
@[simp] theorem closeStream_keyLen (s : State) : (closeStream s).keyLen = s.keyLen := by unfold closeStream; split <;> rfl
@[simp] theorem closeStream_iv (s : State) : (closeStream s).iv = s.iv := by unfold closeStream; split <;> rfl
@[simp] theorem closeStream_delta (s : State) : (closeStream s).delta = s.delta := by unfold closeStream; split <;> rfl
@[simp] theorem closeStream_key (s : State) : (closeStream s).key = s.key := by unfold closeStream; split <;> rfl
@[simp] theorem closeStream_ctx (s : State) : (closeStream s).ctx = s.ctx := by unfold closeStream; split <;> rfl
@[simp] theorem closeStream_ks (s : State) : (closeStream s).ks = s.ks := by unfold closeStream; split <;> rfl
@[simp] theorem closeStream_prev (s : State) : (closeStream s).prev = (if s.streamOpen then none else s.prev) := by
  unfold closeStream
  split <;> simp_all
@[simp] theorem closeStream_blkIdx (s : State) : (closeStream s).blkIdx = s.blkIdx := by unfold closeStream; split <;> rfl
@[simp] theorem closeStream_streamOpen (s : State) : (closeStream s).streamOpen = false := by
  unfold closeStream
  split
  · rfl
  · simp_all
@[simp] theorem closeStream_streamDir (s : State) : (closeStream s).streamDir = s.streamDir := by unfold closeStream; split <;> rfl
@[simp] theorem closeStream_hold (s : State) : (closeStream s).hold = (if s.streamOpen then [] else s.hold) := by
  unfold closeStream
  split <;> simp_all
@[simp] theorem closeStream_pending (s : State) : (closeStream s).pending = s.pending := by unfold closeStream; split <;> rfl
@[simp] theorem closeStream_mem (s : State) : (closeStream s).mem = s.mem := by unfold closeStream; split <;> rfl
@[simp] theorem closeStream_free (s : State) : (closeStream s).free = s.free := by unfold closeStream; split <;> rfl
@[simp] theorem closeStream_busAnswers (s : State) : (closeStream s).busAnswers = s.busAnswers := by unfold closeStream; split <;> rfl
@[simp] theorem closeStream_events (s : State) : (closeStream s).events = s.events := by unfold closeStream; split <;> rfl
@[simp] theorem closeStream_answer (s : State) : (closeStream s).answer = s.answer := by unfold closeStream; split <;> rfl

/-! ### `State.answered` -/

@[simp] theorem answered_done (s : State) (n : Nat) : (s.answered n).done = s.done := by
  unfold State.answered; split <;> rfl
@[simp] theorem answered_err (s : State) (n : Nat) : (s.answered n).err = s.err := by
  unfold State.answered; split <;> rfl
@[simp] theorem answered_ecode (s : State) (n : Nat) : (s.answered n).ecode = s.ecode := by
  unfold State.answered; split <;> rfl
@[simp] theorem answered_rej (s : State) (n : Nat) : (s.answered n).rej = s.rej := by
  unfold State.answered; split <;> rfl
@[simp] theorem answered_doneIe (s : State) (n : Nat) : (s.answered n).doneIe = s.doneIe := by
  unfold State.answered; split <;> rfl
@[simp] theorem answered_srcAddr (s : State) (n : Nat) : (s.answered n).srcAddr = s.srcAddr := by
  unfold State.answered; split <;> rfl
@[simp] theorem answered_srcLen (s : State) (n : Nat) : (s.answered n).srcLen = s.srcLen := by
  unfold State.answered; split <;> rfl
@[simp] theorem answered_dstAddr (s : State) (n : Nat) : (s.answered n).dstAddr = s.dstAddr := by
  unfold State.answered; split <;> rfl
@[simp] theorem answered_dstCap (s : State) (n : Nat) : (s.answered n).dstCap = s.dstCap := by
  unfold State.answered; split <;> rfl
@[simp] theorem answered_outLen (s : State) (n : Nat) : (s.answered n).outLen = s.outLen := by
  unfold State.answered; split <;> rfl
@[simp] theorem answered_ivLen (s : State) (n : Nat) : (s.answered n).ivLen = s.ivLen := by
  unfold State.answered; split <;> rfl
@[simp] theorem answered_deltaLen (s : State) (n : Nat) : (s.answered n).deltaLen = s.deltaLen := by
  unfold State.answered; split <;> rfl
@[simp] theorem answered_keyLen (s : State) (n : Nat) : (s.answered n).keyLen = s.keyLen := by
  unfold State.answered; split <;> rfl
@[simp] theorem answered_iv (s : State) (n : Nat) : (s.answered n).iv = s.iv := by
  unfold State.answered; split <;> rfl
@[simp] theorem answered_delta (s : State) (n : Nat) : (s.answered n).delta = s.delta := by
  unfold State.answered; split <;> rfl
@[simp] theorem answered_key (s : State) (n : Nat) : (s.answered n).key = s.key := by
  unfold State.answered; split <;> rfl
@[simp] theorem answered_ctx (s : State) (n : Nat) : (s.answered n).ctx = s.ctx := by
  unfold State.answered; split <;> rfl
@[simp] theorem answered_ks (s : State) (n : Nat) : (s.answered n).ks = s.ks := by
  unfold State.answered; split <;> rfl
@[simp] theorem answered_prev (s : State) (n : Nat) : (s.answered n).prev = s.prev := by
  unfold State.answered; split <;> rfl
@[simp] theorem answered_blkIdx (s : State) (n : Nat) : (s.answered n).blkIdx = s.blkIdx := by
  unfold State.answered; split <;> rfl
@[simp] theorem answered_streamOpen (s : State) (n : Nat) : (s.answered n).streamOpen = s.streamOpen := by
  unfold State.answered; split <;> rfl
@[simp] theorem answered_streamDir (s : State) (n : Nat) : (s.answered n).streamDir = s.streamDir := by
  unfold State.answered; split <;> rfl
@[simp] theorem answered_hold (s : State) (n : Nat) : (s.answered n).hold = s.hold := by
  unfold State.answered; split <;> rfl
@[simp] theorem answered_pending (s : State) (n : Nat) : (s.answered n).pending = s.pending := by
  unfold State.answered; split <;> rfl
@[simp] theorem answered_mem (s : State) (n : Nat) : (s.answered n).mem = s.mem := by
  unfold State.answered; split <;> rfl
@[simp] theorem answered_free (s : State) (n : Nat) : (s.answered n).free = s.free := by
  unfold State.answered; split <;> rfl
theorem answered_busAnswers (s : State) (n : Nat) :
    (s.answered n).busAnswers = if n = 0 then s.busAnswers else s.busAnswers.tail := by
  unfold State.answered
  split <;> rfl
@[simp] theorem answered_events (s : State) (n : Nat) : (s.answered n).events = s.events := by
  unfold State.answered; split <;> rfl
@[simp] theorem answered_answer (s : State) (n : Nat) : (s.answered n).answer = s.answer := by
  unfold State.answered; split <;> rfl

/-! ### `State.rangesAnswered` -/

@[simp] theorem rangesAnswered_done (s : State) (n k : Nat) : (s.rangesAnswered n k).done = s.done := by
  simp [State.rangesAnswered]
@[simp] theorem rangesAnswered_err (s : State) (n k : Nat) : (s.rangesAnswered n k).err = s.err := by
  simp [State.rangesAnswered]
@[simp] theorem rangesAnswered_ecode (s : State) (n k : Nat) : (s.rangesAnswered n k).ecode = s.ecode := by
  simp [State.rangesAnswered]
@[simp] theorem rangesAnswered_rej (s : State) (n k : Nat) : (s.rangesAnswered n k).rej = s.rej := by
  simp [State.rangesAnswered]
@[simp] theorem rangesAnswered_doneIe (s : State) (n k : Nat) : (s.rangesAnswered n k).doneIe = s.doneIe := by
  simp [State.rangesAnswered]
@[simp] theorem rangesAnswered_srcAddr (s : State) (n k : Nat) : (s.rangesAnswered n k).srcAddr = s.srcAddr := by
  simp [State.rangesAnswered]
@[simp] theorem rangesAnswered_srcLen (s : State) (n k : Nat) : (s.rangesAnswered n k).srcLen = s.srcLen := by
  simp [State.rangesAnswered]
@[simp] theorem rangesAnswered_dstAddr (s : State) (n k : Nat) : (s.rangesAnswered n k).dstAddr = s.dstAddr := by
  simp [State.rangesAnswered]
@[simp] theorem rangesAnswered_dstCap (s : State) (n k : Nat) : (s.rangesAnswered n k).dstCap = s.dstCap := by
  simp [State.rangesAnswered]
@[simp] theorem rangesAnswered_outLen (s : State) (n k : Nat) : (s.rangesAnswered n k).outLen = s.outLen := by
  simp [State.rangesAnswered]
@[simp] theorem rangesAnswered_ivLen (s : State) (n k : Nat) : (s.rangesAnswered n k).ivLen = s.ivLen := by
  simp [State.rangesAnswered]
@[simp] theorem rangesAnswered_deltaLen (s : State) (n k : Nat) : (s.rangesAnswered n k).deltaLen = s.deltaLen := by
  simp [State.rangesAnswered]
@[simp] theorem rangesAnswered_keyLen (s : State) (n k : Nat) : (s.rangesAnswered n k).keyLen = s.keyLen := by
  simp [State.rangesAnswered]
@[simp] theorem rangesAnswered_iv (s : State) (n k : Nat) : (s.rangesAnswered n k).iv = s.iv := by
  simp [State.rangesAnswered]
@[simp] theorem rangesAnswered_delta (s : State) (n k : Nat) : (s.rangesAnswered n k).delta = s.delta := by
  simp [State.rangesAnswered]
@[simp] theorem rangesAnswered_key (s : State) (n k : Nat) : (s.rangesAnswered n k).key = s.key := by
  simp [State.rangesAnswered]
@[simp] theorem rangesAnswered_ctx (s : State) (n k : Nat) : (s.rangesAnswered n k).ctx = s.ctx := by
  simp [State.rangesAnswered]
@[simp] theorem rangesAnswered_ks (s : State) (n k : Nat) : (s.rangesAnswered n k).ks = s.ks := by
  simp [State.rangesAnswered]
@[simp] theorem rangesAnswered_prev (s : State) (n k : Nat) : (s.rangesAnswered n k).prev = s.prev := by
  simp [State.rangesAnswered]
@[simp] theorem rangesAnswered_blkIdx (s : State) (n k : Nat) : (s.rangesAnswered n k).blkIdx = s.blkIdx := by
  simp [State.rangesAnswered]
@[simp] theorem rangesAnswered_streamOpen (s : State) (n k : Nat) : (s.rangesAnswered n k).streamOpen = s.streamOpen := by
  simp [State.rangesAnswered]
@[simp] theorem rangesAnswered_streamDir (s : State) (n k : Nat) : (s.rangesAnswered n k).streamDir = s.streamDir := by
  simp [State.rangesAnswered]
@[simp] theorem rangesAnswered_hold (s : State) (n k : Nat) : (s.rangesAnswered n k).hold = s.hold := by
  simp [State.rangesAnswered]
@[simp] theorem rangesAnswered_pending (s : State) (n k : Nat) : (s.rangesAnswered n k).pending = s.pending := by
  simp [State.rangesAnswered]
@[simp] theorem rangesAnswered_mem (s : State) (n k : Nat) : (s.rangesAnswered n k).mem = s.mem := by
  simp [State.rangesAnswered]
@[simp] theorem rangesAnswered_free (s : State) (n k : Nat) : (s.rangesAnswered n k).free = s.free := by
  simp [State.rangesAnswered]
@[simp] theorem rangesAnswered_events (s : State) (n k : Nat) : (s.rangesAnswered n k).events = s.events := by
  simp [State.rangesAnswered]
@[simp] theorem rangesAnswered_answer (s : State) (n k : Nat) : (s.rangesAnswered n k).answer = s.answer := by
  simp [State.rangesAnswered]

/-! ### `scramble` -/

@[simp] theorem scramble_done (P : Params) (a n : Nat) (s : State) :
    (scramble P a n s).done = s.done := rfl
@[simp] theorem scramble_err (P : Params) (a n : Nat) (s : State) :
    (scramble P a n s).err = s.err := rfl
@[simp] theorem scramble_ecode (P : Params) (a n : Nat) (s : State) :
    (scramble P a n s).ecode = s.ecode := rfl
@[simp] theorem scramble_rej (P : Params) (a n : Nat) (s : State) :
    (scramble P a n s).rej = s.rej := rfl
@[simp] theorem scramble_doneIe (P : Params) (a n : Nat) (s : State) :
    (scramble P a n s).doneIe = s.doneIe := rfl
@[simp] theorem scramble_srcAddr (P : Params) (a n : Nat) (s : State) :
    (scramble P a n s).srcAddr = s.srcAddr := rfl
@[simp] theorem scramble_srcLen (P : Params) (a n : Nat) (s : State) :
    (scramble P a n s).srcLen = s.srcLen := rfl
@[simp] theorem scramble_dstAddr (P : Params) (a n : Nat) (s : State) :
    (scramble P a n s).dstAddr = s.dstAddr := rfl
@[simp] theorem scramble_dstCap (P : Params) (a n : Nat) (s : State) :
    (scramble P a n s).dstCap = s.dstCap := rfl
@[simp] theorem scramble_outLen (P : Params) (a n : Nat) (s : State) :
    (scramble P a n s).outLen = s.outLen := rfl
@[simp] theorem scramble_ivLen (P : Params) (a n : Nat) (s : State) :
    (scramble P a n s).ivLen = s.ivLen := rfl
@[simp] theorem scramble_deltaLen (P : Params) (a n : Nat) (s : State) :
    (scramble P a n s).deltaLen = s.deltaLen := rfl
@[simp] theorem scramble_keyLen (P : Params) (a n : Nat) (s : State) :
    (scramble P a n s).keyLen = s.keyLen := rfl
@[simp] theorem scramble_iv (P : Params) (a n : Nat) (s : State) :
    (scramble P a n s).iv = s.iv := rfl
@[simp] theorem scramble_delta (P : Params) (a n : Nat) (s : State) :
    (scramble P a n s).delta = s.delta := rfl
@[simp] theorem scramble_key (P : Params) (a n : Nat) (s : State) :
    (scramble P a n s).key = s.key := rfl
@[simp] theorem scramble_ctx (P : Params) (a n : Nat) (s : State) :
    (scramble P a n s).ctx = s.ctx := rfl
@[simp] theorem scramble_ks (P : Params) (a n : Nat) (s : State) :
    (scramble P a n s).ks = s.ks := rfl
@[simp] theorem scramble_prev (P : Params) (a n : Nat) (s : State) :
    (scramble P a n s).prev = s.prev := rfl
@[simp] theorem scramble_blkIdx (P : Params) (a n : Nat) (s : State) :
    (scramble P a n s).blkIdx = s.blkIdx := rfl
@[simp] theorem scramble_streamOpen (P : Params) (a n : Nat) (s : State) :
    (scramble P a n s).streamOpen = s.streamOpen := rfl
@[simp] theorem scramble_streamDir (P : Params) (a n : Nat) (s : State) :
    (scramble P a n s).streamDir = s.streamDir := rfl
@[simp] theorem scramble_hold (P : Params) (a n : Nat) (s : State) :
    (scramble P a n s).hold = s.hold := rfl
@[simp] theorem scramble_pending (P : Params) (a n : Nat) (s : State) :
    (scramble P a n s).pending = s.pending := rfl
@[simp] theorem scramble_mem (P : Params) (a n : Nat) (s : State) :
    (scramble P a n s).mem = s.mem.writeRange a (freeBytes P s.free n) := rfl
@[simp] theorem scramble_free (P : Params) (a n : Nat) (s : State) :
    (scramble P a n s).free = s.free + n := rfl
@[simp] theorem scramble_busAnswers (P : Params) (a n : Nat) (s : State) :
    (scramble P a n s).busAnswers = s.busAnswers := rfl
@[simp] theorem scramble_events (P : Params) (a n : Nat) (s : State) :
    (scramble P a n s).events = s.events := rfl
@[simp] theorem scramble_answer (P : Params) (a n : Nat) (s : State) :
    (scramble P a n s).answer = s.answer := rfl

/-! ### `writeOutput` -/

@[simp] theorem writeOutput_done (P : Params) (l : Latch) (w : Nat) (out : Bytes) (s : State) :
    (writeOutput P l w out s).done = s.done := rfl
@[simp] theorem writeOutput_err (P : Params) (l : Latch) (w : Nat) (out : Bytes) (s : State) :
    (writeOutput P l w out s).err = s.err := rfl
@[simp] theorem writeOutput_ecode (P : Params) (l : Latch) (w : Nat) (out : Bytes) (s : State) :
    (writeOutput P l w out s).ecode = s.ecode := rfl
@[simp] theorem writeOutput_rej (P : Params) (l : Latch) (w : Nat) (out : Bytes) (s : State) :
    (writeOutput P l w out s).rej = s.rej := rfl
@[simp] theorem writeOutput_doneIe (P : Params) (l : Latch) (w : Nat) (out : Bytes) (s : State) :
    (writeOutput P l w out s).doneIe = s.doneIe := rfl
@[simp] theorem writeOutput_srcAddr (P : Params) (l : Latch) (w : Nat) (out : Bytes) (s : State) :
    (writeOutput P l w out s).srcAddr = s.srcAddr := rfl
@[simp] theorem writeOutput_srcLen (P : Params) (l : Latch) (w : Nat) (out : Bytes) (s : State) :
    (writeOutput P l w out s).srcLen = s.srcLen := rfl
@[simp] theorem writeOutput_dstAddr (P : Params) (l : Latch) (w : Nat) (out : Bytes) (s : State) :
    (writeOutput P l w out s).dstAddr = s.dstAddr := rfl
@[simp] theorem writeOutput_dstCap (P : Params) (l : Latch) (w : Nat) (out : Bytes) (s : State) :
    (writeOutput P l w out s).dstCap = s.dstCap := rfl
@[simp] theorem writeOutput_outLen (P : Params) (l : Latch) (w : Nat) (out : Bytes) (s : State) :
    (writeOutput P l w out s).outLen = s.outLen := rfl
@[simp] theorem writeOutput_ivLen (P : Params) (l : Latch) (w : Nat) (out : Bytes) (s : State) :
    (writeOutput P l w out s).ivLen = s.ivLen := rfl
@[simp] theorem writeOutput_deltaLen (P : Params) (l : Latch) (w : Nat) (out : Bytes) (s : State) :
    (writeOutput P l w out s).deltaLen = s.deltaLen := rfl
@[simp] theorem writeOutput_keyLen (P : Params) (l : Latch) (w : Nat) (out : Bytes) (s : State) :
    (writeOutput P l w out s).keyLen = s.keyLen := rfl
@[simp] theorem writeOutput_iv (P : Params) (l : Latch) (w : Nat) (out : Bytes) (s : State) :
    (writeOutput P l w out s).iv = s.iv := rfl
@[simp] theorem writeOutput_delta (P : Params) (l : Latch) (w : Nat) (out : Bytes) (s : State) :
    (writeOutput P l w out s).delta = s.delta := rfl
@[simp] theorem writeOutput_key (P : Params) (l : Latch) (w : Nat) (out : Bytes) (s : State) :
    (writeOutput P l w out s).key = s.key := rfl
@[simp] theorem writeOutput_ctx (P : Params) (l : Latch) (w : Nat) (out : Bytes) (s : State) :
    (writeOutput P l w out s).ctx = s.ctx := rfl
@[simp] theorem writeOutput_ks (P : Params) (l : Latch) (w : Nat) (out : Bytes) (s : State) :
    (writeOutput P l w out s).ks = s.ks := rfl
@[simp] theorem writeOutput_prev (P : Params) (l : Latch) (w : Nat) (out : Bytes) (s : State) :
    (writeOutput P l w out s).prev = s.prev := rfl
@[simp] theorem writeOutput_blkIdx (P : Params) (l : Latch) (w : Nat) (out : Bytes) (s : State) :
    (writeOutput P l w out s).blkIdx = s.blkIdx := rfl
@[simp] theorem writeOutput_streamOpen (P : Params) (l : Latch) (w : Nat) (out : Bytes) (s : State) :
    (writeOutput P l w out s).streamOpen = s.streamOpen := rfl
@[simp] theorem writeOutput_streamDir (P : Params) (l : Latch) (w : Nat) (out : Bytes) (s : State) :
    (writeOutput P l w out s).streamDir = s.streamDir := rfl
@[simp] theorem writeOutput_hold (P : Params) (l : Latch) (w : Nat) (out : Bytes) (s : State) :
    (writeOutput P l w out s).hold = s.hold := rfl
@[simp] theorem writeOutput_pending (P : Params) (l : Latch) (w : Nat) (out : Bytes) (s : State) :
    (writeOutput P l w out s).pending = s.pending := rfl
@[simp] theorem writeOutput_mem (P : Params) (l : Latch) (w : Nat) (out : Bytes) (s : State) :
    (writeOutput P l w out s).mem = s.mem.writeRange l.dstAddr.toNat (out ++ freeBytes P s.free (w - out.length)) := rfl
@[simp] theorem writeOutput_free (P : Params) (l : Latch) (w : Nat) (out : Bytes) (s : State) :
    (writeOutput P l w out s).free = s.free + (w - out.length) := rfl
@[simp] theorem writeOutput_busAnswers (P : Params) (l : Latch) (w : Nat) (out : Bytes) (s : State) :
    (writeOutput P l w out s).busAnswers = s.busAnswers := rfl
@[simp] theorem writeOutput_events (P : Params) (l : Latch) (w : Nat) (out : Bytes) (s : State) :
    (writeOutput P l w out s).events = s.events := rfl
@[simp] theorem writeOutput_answer (P : Params) (l : Latch) (w : Nat) (out : Bytes) (s : State) :
    (writeOutput P l w out s).answer = s.answer := rfl

/-! ### `busError` -/

@[simp] theorem busError_done (P : Params) (l : Latch) (w : Nat) (s : State) :
    (busError P l w s).done = true := by simp [busError]
@[simp] theorem busError_err (P : Params) (l : Latch) (w : Nat) (s : State) :
    (busError P l w s).err = true := by simp [busError]
@[simp] theorem busError_ecode (P : Params) (l : Latch) (w : Nat) (s : State) :
    (busError P l w s).ecode = .busError := by simp [busError]
@[simp] theorem busError_rej (P : Params) (l : Latch) (w : Nat) (s : State) :
    (busError P l w s).rej = s.rej := by simp [busError]
@[simp] theorem busError_doneIe (P : Params) (l : Latch) (w : Nat) (s : State) :
    (busError P l w s).doneIe = s.doneIe := by simp [busError]
@[simp] theorem busError_srcAddr (P : Params) (l : Latch) (w : Nat) (s : State) :
    (busError P l w s).srcAddr = s.srcAddr := by simp [busError]
@[simp] theorem busError_srcLen (P : Params) (l : Latch) (w : Nat) (s : State) :
    (busError P l w s).srcLen = s.srcLen := by simp [busError]
@[simp] theorem busError_dstAddr (P : Params) (l : Latch) (w : Nat) (s : State) :
    (busError P l w s).dstAddr = s.dstAddr := by simp [busError]
@[simp] theorem busError_dstCap (P : Params) (l : Latch) (w : Nat) (s : State) :
    (busError P l w s).dstCap = s.dstCap := by simp [busError]
@[simp] theorem busError_outLen (P : Params) (l : Latch) (w : Nat) (s : State) :
    (busError P l w s).outLen = 0 := by simp [busError]
@[simp] theorem busError_ivLen (P : Params) (l : Latch) (w : Nat) (s : State) :
    (busError P l w s).ivLen = s.ivLen := by simp [busError]
@[simp] theorem busError_deltaLen (P : Params) (l : Latch) (w : Nat) (s : State) :
    (busError P l w s).deltaLen = s.deltaLen := by simp [busError]
@[simp] theorem busError_keyLen (P : Params) (l : Latch) (w : Nat) (s : State) :
    (busError P l w s).keyLen = s.keyLen := by simp [busError]
@[simp] theorem busError_iv (P : Params) (l : Latch) (w : Nat) (s : State) :
    (busError P l w s).iv = s.iv := by simp [busError]
@[simp] theorem busError_delta (P : Params) (l : Latch) (w : Nat) (s : State) :
    (busError P l w s).delta = s.delta := by simp [busError]
@[simp] theorem busError_key (P : Params) (l : Latch) (w : Nat) (s : State) :
    (busError P l w s).key = s.key := by simp [busError]
@[simp] theorem busError_ctx (P : Params) (l : Latch) (w : Nat) (s : State) :
    (busError P l w s).ctx = s.ctx := by simp [busError]
@[simp] theorem busError_ks (P : Params) (l : Latch) (w : Nat) (s : State) :
    (busError P l w s).ks = s.ks := by simp [busError]
@[simp] theorem busError_prev (P : Params) (l : Latch) (w : Nat) (s : State) :
    (busError P l w s).prev = (if s.streamOpen then none else s.prev) := closeStream_prev (scramble P l.dstAddr.toNat w s)
@[simp] theorem busError_streamOpen (P : Params) (l : Latch) (w : Nat) (s : State) :
    (busError P l w s).streamOpen = false := by simp [busError]
@[simp] theorem busError_streamDir (P : Params) (l : Latch) (w : Nat) (s : State) :
    (busError P l w s).streamDir = s.streamDir := by simp [busError]
@[simp] theorem busError_hold (P : Params) (l : Latch) (w : Nat) (s : State) :
    (busError P l w s).hold = (if s.streamOpen then [] else s.hold) := closeStream_hold (scramble P l.dstAddr.toNat w s)
@[simp] theorem busError_pending (P : Params) (l : Latch) (w : Nat) (s : State) :
    (busError P l w s).pending = none := by simp [busError]
@[simp] theorem busError_mem (P : Params) (l : Latch) (w : Nat) (s : State) :
    (busError P l w s).mem = s.mem.writeRange l.dstAddr.toNat (freeBytes P s.free w) := by simp [busError]
@[simp] theorem busError_busAnswers (P : Params) (l : Latch) (w : Nat) (s : State) :
    (busError P l w s).busAnswers = s.busAnswers := by simp [busError]
@[simp] theorem busError_events (P : Params) (l : Latch) (w : Nat) (s : State) :
    (busError P l w s).events = s.events := by simp [busError]
@[simp] theorem busError_answer (P : Params) (l : Latch) (w : Nat) (s : State) :
    (busError P l w s).answer = s.answer := by simp [busError]

end Sys2Proof.Machine
end

