-- ==== Sys2Proof/Laws/Ops.lean ====
section
/-! SUPPORT. What each shared operation can do, said once: the shells of a perform, the checks, and the DMA
transfer. -/

namespace Sys2Proof.Machine

theorem fail_eq_next {code : ErrorCode} {s t : State} : fail code s = .next t ↔ complete code 0 s = t := by
  simp [fail]

/-- A perform that answers has a command in flight. -/
theorem inFlight_next {s t : State} {k : Latch → Result} (h : inFlight s k = .next t) :
    ∃ l, s.pending = some l ∧ k l = .next t := by
  unfold inFlight at h
  split at h
  · cases h
  · exact ⟨_, ‹_›, h⟩

theorem inFlight_some {s : State} {l : Latch} (k : Latch → Result) (h : s.pending = some l) :
    inFlight s k = k l := by simp [inFlight, h]

/-- What the context check answers. -/
theorem withContext_next {s t : State} {k : Context → Result} (h : withContext s k = .next t) :
    (s.ctx = none ∧ t = complete .noContext 0 s) ∨ ∃ c, s.ctx = some c ∧ k c = .next t := by
  unfold withContext at h
  split at h
  · exact .inl ⟨‹_›, (fail_eq_next.mp h).symm⟩
  · exact .inr ⟨_, ‹_›, h⟩

theorem withContext_some {s : State} {c : Context} (k : Context → Result) (h : s.ctx = some c) :
    withContext s k = k c := by simp [withContext, h]

theorem firstFailure_none {cs : List (ErrorCode × Bool)} :
    firstFailure cs = none ↔ ∀ p ∈ cs, p.2 = false := by
  induction cs with
  | nil => simp [firstFailure]
  | cons p cs ih =>
    obtain ⟨code, b⟩ := p
    cases b <;> simp [firstFailure, ih]

/-- The reported check fails, and none before it does. -/
theorem firstFailure_some {cs : List (ErrorCode × Bool)} {code : ErrorCode}
    (h : firstFailure cs = some code) :
    ∃ before after, cs = before ++ (code, true) :: after ∧ ∀ p ∈ before, p.2 = false := by
  induction cs with
  | nil => simp [firstFailure] at h
  | cons p cs ih =>
    obtain ⟨c, b⟩ := p
    cases b with
    | true =>
      simp only [firstFailure, if_true, Option.some.injEq] at h
      exact ⟨[], cs, by simp [h], by simp⟩
    | false =>
      simp only [firstFailure, Bool.false_eq_true, if_false] at h
      obtain ⟨before, after, rfl, hb⟩ := ih h
      refine ⟨(c, false) :: before, after, by simp, ?_⟩
      intro p hp
      rcases List.mem_cons.mp hp with rfl | hp
      · rfl
      · exact hb p hp

/-- A failing check whose predecessors all pass is the one reported. -/
theorem firstFailure_append {before after : List (ErrorCode × Bool)} {code : ErrorCode}
    (h : ∀ p ∈ before, p.2 = false) :
    firstFailure (before ++ (code, true) :: after) = some code := by
  induction before with
  | nil => simp [firstFailure]
  | cons p before ih =>
    obtain ⟨c, b⟩ := p
    have hb : b = false := h (c, b) (by simp)
    subst hb
    simp only [List.cons_append, firstFailure, Bool.false_eq_true, if_false]
    exact ih fun p hp => h p (by simp [hp])

/-- What the checks answer: the record of the first failing one, or what follows them. -/
theorem withChecks_next {cs : List (ErrorCode × Bool)} {s t : State} {k : Result}
    (h : withChecks cs s k = .next t) :
    (∃ code, firstFailure cs = some code ∧ t = complete code 0 s) ∨
      (firstFailure cs = none ∧ k = .next t) := by
  unfold withChecks at h
  split at h
  · exact .inl ⟨_, ‹_›, (fail_eq_next.mp h).symm⟩
  · exact .inr ⟨‹_›, h⟩

theorem withChecks_pass {cs : List (ErrorCode × Bool)} (s : State) (k : Result)
    (h : firstFailure cs = none) : withChecks cs s k = k := by simp [withChecks, h]

theorem withChecks_fail {cs : List (ErrorCode × Bool)} (s : State) (k : Result) {code : ErrorCode}
    (h : firstFailure cs = some code) : withChecks cs s k = .next (complete code 0 s) := by
  simp [withChecks, h, fail]

/-- The driver a data command runs with. -/
theorem withDriver_next {P : Params} {s t : State} {c : Context} {k : Driver → Result}
    (h : withDriver P s c k = .next t) :
    ∃ ks, s.ks = some ks ∧ (c.mode = .randomDelta → c.delta.isSome = true) ∧
      k (driverOf P ks c (c.delta.getD [])) = .next t := by
  unfold withDriver at h
  split at h
  · cases h
  · rename_i ks hks
    split at h
    · cases h
    · rename_i hn
      refine ⟨ks, hks, fun hm => ?_, h⟩
      cases hd : c.delta with
      | none => exact absurd hd (hn hm)
      | some x => rfl

theorem withDriver_some {P : Params} {s : State} {c : Context} {ks : Bytes} (k : Driver → Result)
    (hks : s.ks = some ks) (hd : c.mode = .randomDelta → c.delta.isSome = true) :
    withDriver P s c k = k (driverOf P ks c (c.delta.getD [])) := by
  unfold withDriver
  rw [hks]
  simp only
  split
  · rename_i hm hn
    have := hd hm
    simp [hn] at this
  · rfl

theorem withCarried_next {s t : State} {k : Carried → Result} (h : withCarried s k = .next t) :
    ∃ p, s.prev = some p ∧ k ⟨p, s.blkIdx, s.hold⟩ = .next t := by
  unfold withCarried at h
  split at h
  · cases h
  · exact ⟨_, ‹_›, h⟩

theorem withCarried_some {s : State} {p : Bytes} (k : Carried → Result) (h : s.prev = some p) :
    withCarried s k = k ⟨p, s.blkIdx, s.hold⟩ := by simp [withCarried, h]

/-- Answers given leave every other field as it was. -/
theorem rangesAnswered_frame (s : State) (n k : Nat) :
    ∃ a, s.rangesAnswered n k = { s with busAnswers := a } := by
  unfold State.rangesAnswered State.answered
  split <;> split <;> exact ⟨_, rfl⟩

/-- What a transfer answers: a bus error, or the completed transfer, from a state in which the answers for both
ranges are given. -/
theorem transfer_next {P : Params} {l : Latch} {count wlen : Nat}
    {body : Bytes → State → Bytes × State} {s t : State}
    (h : transfer P l count wlen body s = .next t) :
    (rangesAnswer s count wlen = .refuses ∧ t = busError P l wlen (s.rangesAnswered count wlen)) ∨
    (rangesAnswer s count wlen = .admits ∧
      ∃ work, work = body (s.mem.readRange l.srcAddr.toNat count) (s.rangesAnswered count wlen) ∧
        t = complete .none work.1.length (writeOutput P l wlen work.1 work.2)) := by
  unfold transfer at h
  cases hr : rangesAnswer s count wlen <;> rw [hr] at h
  · simp only [Host.Outcome.next.injEq, rangesAnswered_mem] at h
    exact .inr ⟨rfl, _, rfl, h.symm⟩
  · simp only [Host.Outcome.next.injEq] at h
    exact .inl ⟨rfl, h.symm⟩
  · cases h

/-- The state after a bus error, field by field (43_commands.md R339). -/
theorem busError_eq (P : Params) (l : Latch) (wlen : Nat) (s : State) :
    busError P l wlen s =
      { s with
        mem := s.mem.writeRange l.dstAddr.toNat (freeBytes P s.free wlen)
        free := s.free + wlen + 1
        blkIdx := P.freeIndex (s.free + wlen)
        streamOpen := false
        hold := if s.streamOpen then [] else s.hold
        prev := if s.streamOpen then none else s.prev
        ecode := .busError, err := true, outLen := 0, done := true, pending := none } := by
  cases h : s.streamOpen <;> simp [busError, complete, closeStream, scramble, h]

theorem transfer_ne_fault {P : Params} {l : Latch} {count wlen : Nat}
    {body : Bytes → State → Bytes × State} {s : State} {r : Fault} :
    transfer P l count wlen body s ≠ .fault r := by
  unfold transfer
  cases rangesAnswer s count wlen <;> simp

/-- Memory with side effects in either range: the transfer is refused. -/
theorem transfer_sideEffects {P : Params} {l : Latch} {count wlen : Nat}
    {body : Bytes → State → Bytes × State} {s : State} (h : rangesAnswer s count wlen = .sideEffects) :
    transfer P l count wlen body s = .refused .sideEffectMemory := by
  unfold transfer; rw [h]

/-- A refused access is a bus error. -/
theorem transfer_refused {P : Params} {l : Latch} {count wlen : Nat}
    {body : Bytes → State → Bytes × State} {s : State} (h : rangesAnswer s count wlen = .refuses) :
    transfer P l count wlen body s = .next (busError P l wlen (s.rangesAnswered count wlen)) := by
  unfold transfer; rw [h]

/-- Admitted accesses: the transfer is done. -/
theorem transfer_admitted {P : Params} {l : Latch} {count wlen : Nat}
    {body : Bytes → State → Bytes × State} {s : State} (h : rangesAnswer s count wlen = .admits) :
    transfer P l count wlen body s = .next
      (complete .none
        (body (s.mem.readRange l.srcAddr.toNat count) (s.rangesAnswered count wlen)).1.length
        (writeOutput P l wlen
          (body (s.mem.readRange l.srcAddr.toNat count) (s.rangesAnswered count wlen)).1
          (body (s.mem.readRange l.srcAddr.toNat count) (s.rangesAnswered count wlen)).2)) := by
  unfold transfer; rw [h]; simp only [rangesAnswered_mem]

/-- The answer for both ranges, in terms of the answers for each. -/
theorem rangesAnswer_cases (s : State) (count wlen : Nat) :
    (rangesAnswer s count wlen = .sideEffects ↔
      nextAnswer s count = .sideEffects ∨ nextAnswer (s.answered count) wlen = .sideEffects) ∧
    (rangesAnswer s count wlen = .admits ↔
      nextAnswer s count = .admits ∧ nextAnswer (s.answered count) wlen = .admits) := by
  unfold rangesAnswer
  cases nextAnswer s count <;> cases nextAnswer (s.answered count) wlen <;> simp [MemAnswer.both]

/-- A memory agent that admits the next two accesses admits both ranges. -/
theorem Admits.rangesAnswer {s : State} (h : Admits s) (count wlen : Nat) :
    rangesAnswer s count wlen = .admits := by
  rw [(rangesAnswer_cases s count wlen).2]
  unfold nextAnswer
  rw [answered_busAnswers]
  unfold Admits at h
  match hb : s.busAnswers with
  | [] => simp
  | [a] =>
    rw [hb] at h
    simp only [List.take_succ_cons, List.take_nil, List.mem_cons, List.not_mem_nil, or_false,
      forall_eq] at h
    subst h
    constructor
    · split <;> rfl
    · split
      · rfl
      · split <;> rfl
  | a :: b :: rest =>
    rw [hb] at h
    obtain rfl := h a (by simp)
    obtain rfl := h b (by simp)
    constructor
    · split <;> rfl
    · split
      · rfl
      · split <;> rfl

end Sys2Proof.Machine
end

