-- ==== Sys2Proof/Laws/Commands.lean ====
section
/-! SUPPORT. Every command in one shape: its checks in their order, then its effect (60_exceptions.md R402). A
proof about `exec` rewrites with `exec_eq_withChecks` once, and needs no unfolding of a meaning's shell. -/

namespace Sys2Proof.Machine

/-- The checks of a command in the order in which its meaning runs them. -/
def checksOf (P : Params) (i : Instr) (l : Latch) (s : State) : List (ErrorCode × Bool) :=
  match i with
  | .nop => []
  | .ctxInit mode _ =>
    match Mode.ofBits mode with
    | none => [(.badCmd, true)]
    | some m =>
      [(.ctxLocked, s.ctxValid), (.ivLength, ivLengthFails P m l),
        (.deltaLength, deltaLengthFails P m l)]
  | .ctxClear => []
  | .setKey => [(.streamState, s.streamOpen), (.keyError, decide (MAXKEY < l.keyLen.toNat))]
  | .encrypt =>
    match s.ctx with
    | none => [(.noContext, true)]
    | some _ =>
      [(.streamState, s.streamOpen), (.noKey, !s.keyValid),
        (.addrRange, addrRangeFails P .encrypt l s), (.overlap, overlapFails P .encrypt l s),
        (.capacity, capacityFails P .encrypt l s)]
  | .decrypt =>
    match s.ctx with
    | none => [(.noContext, true)]
    | some c =>
      [(.streamState, s.streamOpen), (.noKey, !s.keyValid), (.length, decryptLengthFails P c l),
        (.addrRange, addrRangeFails P .decrypt l s), (.overlap, overlapFails P .decrypt l s),
        (.capacity, capacityFails P .decrypt l s)]
  | .streamBegin _ =>
    match s.ctx with
    | none => [(.noContext, true)]
    | some _ => [(.streamState, s.streamOpen), (.noKey, !s.keyValid)]
  | .streamUpdate =>
    match s.ctx with
    | none => [(.noContext, true)]
    | some _ =>
      [(.streamState, !s.streamOpen), (.addrRange, addrRangeFails P .streamUpdate l s),
        (.overlap, overlapFails P .streamUpdate l s),
        (.capacity, capacityFails P .streamUpdate l s)]
  | .streamFinal =>
    match s.ctx with
    | none => [(.noContext, true)]
    | some c =>
      [(.streamState, !s.streamOpen), (.length, finalLengthFails P c s),
        (.addrRange, addrRangeFails P .streamFinal l s),
        (.capacity, capacityFails P .streamFinal l s)]

/-- The effect of a command once its checks have passed. -/
def effectOf (P : Params) (i : Instr) (l : Latch) (s : State) : Result :=
  match i with
  | .nop => .next (complete .none 0 s)
  | .ctxInit mode pad =>
    match Mode.ofBits mode with
    | none => fail .badCmd s
    | some m =>
      match ivOperand P m l, deltaOperand P m l with
      | none, _ => .fault (.noValue .ivWindow)
      | some _, none => .fault (.noValue .deltaWindow)
      | some iv, some delta =>
        .next (complete .none 0 { s with ctx := some ⟨m, pad, latchesIv P m l, iv, delta⟩ })
  | .ctxClear => .next (complete .none 0 { closeStream s with ctx := none })
  | .setKey =>
    match keyOperand l with
    | none => .fault (.noValue .keyWindow)
    | some key =>
      match P.setKey key with
      | none => fail .keyError s
      | some ks => .next (complete .none 0 { s with ks := some ks })
  | .encrypt =>
    withContext s fun c => withDriver P s c fun d =>
      transfer P l l.srcLen.toNat (encryptBound P c l) (encryptBody P d) s
  | .decrypt =>
    withContext s fun c => withDriver P s c fun d =>
      transfer P l l.srcLen.toNat l.srcLen.toNat (decryptBody d) s
  | .streamBegin dir =>
    withContext s fun c => .next (complete .none 0
      { s with streamOpen := true, streamDir := dir, prev := some c.iv, blkIdx := 0, hold := [] })
  | .streamUpdate =>
    withContext s fun c => withDriver P s c fun d => withCarried s fun carried =>
      transfer P l l.srcLen.toNat (updateBound P c s l) (updateBody d carried) s
  | .streamFinal =>
    withContext s fun c => withDriver P s c fun d => withCarried s fun carried =>
      transfer P l 0 (finalBound P c s) (fun _ s1 => finalBody P d carried s1) s

/-- A command in flight runs its checks, then its effect. -/
theorem exec_eq_withChecks {s : State} {l : Latch} (i : Instr) (h : s.pending = some l) :
    exec i s = withChecks (checksOf Config.chip i l s) s (effectOf Config.chip i l s) := by
  cases i with
  | nop => simp [exec, execNop, inFlight, h, checksOf, effectOf, withChecks, firstFailure]
  | ctxInit mode pad =>
    simp only [exec, execCtxInit, ctxInitWith, inFlight, h, checksOf, effectOf]
    cases Mode.ofBits mode with
    | none => simp [withChecks, firstFailure]
    | some m => rfl
  | ctxClear => simp [exec, execCtxClear, inFlight, h, checksOf, effectOf, withChecks, firstFailure]
  | setKey => simp [exec, execSetKey, setKeyWith, inFlight, h, checksOf, effectOf] <;> rfl
  | encrypt =>
    simp only [exec, execEncrypt, encryptWith, inFlight, h, checksOf, effectOf, withContext]
    cases s.ctx <;> simp [withChecks, firstFailure]
  | decrypt =>
    simp only [exec, execDecrypt, decryptWith, inFlight, h, checksOf, effectOf, withContext]
    cases s.ctx <;> simp [withChecks, firstFailure]
  | streamBegin dir =>
    simp only [exec, execStreamBegin, inFlight, h, checksOf, effectOf, withContext]
    cases s.ctx <;> simp [withChecks, firstFailure]
  | streamUpdate =>
    simp only [exec, execStreamUpdate, streamUpdateWith, inFlight, h, checksOf, effectOf, withContext]
    cases s.ctx <;> simp [withChecks, firstFailure]
  | streamFinal =>
    simp only [exec, execStreamFinal, streamFinalWith, inFlight, h, checksOf, effectOf, withContext]
    cases s.ctx <;> simp [withChecks, firstFailure]

/-- With no command in flight no meaning has a step. -/
theorem exec_idle {s : State} (i : Instr) (h : s.pending = none) :
    exec i s = .fault .noCommandInFlight := by
  cases i <;> simp [exec, execNop, execCtxInit, ctxInitWith, execCtxClear, execSetKey, setKeyWith,
    execEncrypt, encryptWith, execDecrypt, decryptWith, execStreamBegin, execStreamUpdate,
    streamUpdateWith, execStreamFinal, streamFinalWith, inFlight, h]

/-- A meaning that answers a next state had a command in flight, and reported its first failing check or had
its effect. -/
theorem exec_next {i : Instr} {s t : State} (h : exec i s = .next t) :
    ∃ l, s.pending = some l ∧
      ((∃ code, firstFailure (checksOf Config.chip i l s) = some code ∧ t = complete code 0 s) ∨
        (firstFailure (checksOf Config.chip i l s) = none ∧ effectOf Config.chip i l s = .next t)) := by
  cases hp : s.pending with
  | none => rw [exec_idle i hp] at h; cases h
  | some l =>
    rw [exec_eq_withChecks i hp] at h
    exact ⟨l, rfl, withChecks_next h⟩

/-- The codes a check can report, in the order in which they stand in every command. -/
theorem checksOf_codes (P : Params) (i : Instr) (l : Latch) (s : State) :
    (checksOf P i l s).Pairwise (fun p q => p.1.code.toNat < q.1.code.toNat) ∧
      ∀ p ∈ checksOf P i l s, p.1 ≠ .none ∧ p.1 ≠ .busError := by
  unfold checksOf
  repeat' split
  all_goals simp [ErrorCode.code]

/-- What an ENCRYPT whose checks passed came through. -/
theorem encrypt_effect {P : Params} {l : Latch} {s t : State}
    (hc : s.ctx ≠ none) (h : effectOf P .encrypt l s = .next t) :
    ∃ c ks, s.ctx = some c ∧ s.ks = some ks ∧ (c.mode = .randomDelta → c.delta.isSome = true) ∧
      transfer P l l.srcLen.toNat (encryptBound P c l)
        (encryptBody P (driverOf P ks c (c.delta.getD []))) s = .next t := by
  obtain ⟨hn, -⟩ | ⟨c, h1, h2⟩ := withContext_next h
  · exact absurd hn hc
  · obtain ⟨ks, h3, h4, h5⟩ := withDriver_next h2
    exact ⟨c, ks, h1, h3, h4, h5⟩

/-- What a DECRYPT whose checks passed came through. -/
theorem decrypt_effect {P : Params} {l : Latch} {s t : State}
    (hc : s.ctx ≠ none) (h : effectOf P .decrypt l s = .next t) :
    ∃ c ks, s.ctx = some c ∧ s.ks = some ks ∧ (c.mode = .randomDelta → c.delta.isSome = true) ∧
      transfer P l l.srcLen.toNat l.srcLen.toNat
        (decryptBody (driverOf P ks c (c.delta.getD []))) s = .next t := by
  obtain ⟨hn, -⟩ | ⟨c, h1, h2⟩ := withContext_next h
  · exact absurd hn hc
  · obtain ⟨ks, h3, h4, h5⟩ := withDriver_next h2
    exact ⟨c, ks, h1, h3, h4, h5⟩

/-- What a STREAM_UPDATE whose checks passed came through. -/
theorem update_effect {P : Params} {l : Latch} {s t : State}
    (hc : s.ctx ≠ none) (h : effectOf P .streamUpdate l s = .next t) :
    ∃ c ks p, s.ctx = some c ∧ s.ks = some ks ∧ s.prev = some p ∧
      (c.mode = .randomDelta → c.delta.isSome = true) ∧
      transfer P l l.srcLen.toNat (updateBound P c s l)
        (updateBody (driverOf P ks c (c.delta.getD [])) ⟨p, s.blkIdx, s.hold⟩) s = .next t := by
  obtain ⟨hn, -⟩ | ⟨c, h1, h2⟩ := withContext_next h
  · exact absurd hn hc
  · obtain ⟨ks, h3, h4, h5⟩ := withDriver_next h2
    obtain ⟨p, h6, h7⟩ := withCarried_next h5
    exact ⟨c, ks, p, h1, h3, h6, h4, h7⟩

/-- What a STREAM_FINAL whose checks passed came through. -/
theorem final_effect {P : Params} {l : Latch} {s t : State}
    (hc : s.ctx ≠ none) (h : effectOf P .streamFinal l s = .next t) :
    ∃ c ks p, s.ctx = some c ∧ s.ks = some ks ∧ s.prev = some p ∧
      (c.mode = .randomDelta → c.delta.isSome = true) ∧
      transfer P l 0 (finalBound P c s)
        (fun _ s1 => finalBody P (driverOf P ks c (c.delta.getD [])) ⟨p, s.blkIdx, s.hold⟩ s1) s
        = .next t := by
  obtain ⟨hn, -⟩ | ⟨c, h1, h2⟩ := withContext_next h
  · exact absurd hn hc
  · obtain ⟨ks, h3, h4, h5⟩ := withDriver_next h2
    obtain ⟨p, h6, h7⟩ := withCarried_next h5
    exact ⟨c, ks, p, h1, h3, h6, h4, h7⟩

/-- A command that needs a context has one when its checks pass. -/
theorem ctx_of_checks {P : Params} {i : Instr} {l : Latch} {s : State} (hi : needsContext i)
    (h : firstFailure (checksOf P i l s) = none) : s.ctx ≠ none := by
  intro hn
  cases i <;> simp_all [checksOf, firstFailure, needsContext]

end Sys2Proof.Machine
end

