-- ==== Sys2Proof/Laws/Operands.lean ====
section
/-! SUPPORT. The conditions of the checks as arithmetic (60_exceptions.md R401, 20_memory.md R106, R107). -/

namespace Sys2Proof.Machine

theorem range_has {r : Range} {a : Nat} : r.has a = true ↔ r.base ≤ a ∧ a < r.base + r.len := by
  simp only [Range.has, Bool.and_eq_true, decide_eq_true_eq]

theorem range_has_false {r : Range} {a : Nat} : r.has a = false ↔ a < r.base ∨ r.base + r.len ≤ a := by
  rw [← Bool.not_eq_true, range_has]
  omega

theorem addrRangeFails_iff {P : Params} {i : Instr} {l : Latch} {s : State} :
    addrRangeFails P i l s = true ↔
      (0 < sourceCount i l ∧ 4294967296 < l.srcAddr.toNat + sourceCount i l) ∨
        (0 < writeBound P i l s ∧ 4294967296 < l.dstAddr.toNat + writeBound P i l s) := by
  simp only [addrRangeFails, Range.pastTop, Bool.or_eq_true, Bool.and_eq_true, decide_eq_true_eq]
  exact Iff.rfl

theorem overlapFails_iff {P : Params} {i : Instr} {l : Latch} {s : State} :
    overlapFails P i l s = true ↔
      0 < sourceCount i l ∧ 0 < writeBound P i l s ∧
        l.srcAddr.toNat < l.dstAddr.toNat + writeBound P i l s ∧
        l.dstAddr.toNat < l.srcAddr.toNat + sourceCount i l := by
  simp only [overlapFails, Range.overlaps, Bool.and_eq_true, decide_eq_true_eq, and_assoc]
  exact Iff.rfl

theorem capacityFails_iff {P : Params} {i : Instr} {l : Latch} {s : State} :
    capacityFails P i l s = true ↔ l.dstCap.toNat < writeBound P i l s := by
  simp only [capacityFails, decide_eq_true_eq]

theorem ivLengthFails_iff {P : Params} {m : Mode} {l : Latch} :
    ivLengthFails P m l = true ↔ m ≠ .ecb ∧ l.ivLen.toNat ≠ 0 ∧ l.ivLen.toNat ≠ P.S := by
  simp only [ivLengthFails, Bool.and_eq_true, bne_iff_ne, ne_eq, and_assoc]

theorem deltaLengthFails_iff {P : Params} {m : Mode} {l : Latch} :
    deltaLengthFails P m l = true ↔ m = .randomDelta ∧ l.deltaLen.toNat ≠ P.S := by
  simp only [deltaLengthFails, Bool.and_eq_true, beq_iff_eq, bne_iff_ne, ne_eq]

theorem decryptLengthFails_iff {P : Params} {c : Context} {l : Latch} :
    decryptLengthFails P c l = true ↔ padded c.mode = true ∧ l.srcLen.toNat % P.S ≠ 0 := by
  simp only [decryptLengthFails, Bool.and_eq_true, bne_iff_ne, ne_eq]

theorem finalLengthFails_iff {P : Params} {c : Context} {s : State} :
    finalLengthFails P c s = true ↔
      (padded c.mode = true ∧ s.streamDir = .dec) ∧ s.hold.length ≠ 0 ∧ s.hold.length ≠ P.S := by
  simp only [finalLengthFails, paddedDecrypt, Bool.and_eq_true, beq_iff_eq, bne_iff_ne, ne_eq, and_assoc]

theorem latchesIv_iff {P : Params} {m : Mode} {l : Latch} :
    latchesIv P m l = true ↔ m ≠ .ecb ∧ l.ivLen.toNat = P.S := by
  simp only [latchesIv, Bool.and_eq_true, bne_iff_ne, ne_eq, beq_iff_eq]

end Sys2Proof.Machine
end

