-- ==== Sys2Proof/Laws/Causes.lean ====
section
/-! SUPPORT. The checks of the meanings and the causes of Safety.lean are the same thing (60_exceptions.md R401, R402). -/

namespace Sys2Proof.Machine

/-- A check of the command is in its list and fails. -/
def Fires (P : Params) (i : Instr) (l : Latch) (s : State) (code : ErrorCode) : Prop := (code, true) ∈
    checksOf P i l s

/-- MODE = 7 alone names no mode. -/
theorem mode_none_iff (m : BitVec 3) : Mode.ofBits m = none ↔ m = 7 := by revert m; decide

/-- MODE = 6. -/
theorem mode_randomDelta_iff (m : BitVec 3) : Mode.ofBits m = some .randomDelta ↔ m = 6 := by
  revert m; decide

/-- MODE = 0. -/
theorem mode_ecb_iff (m : BitVec 3) : Mode.ofBits m = some .ecb ↔ m = 0 := by revert m; decide

/-- A check that fails has its cause. -/
theorem cause_of_fires (i : Instr) (l : Latch) (s : State) (code : ErrorCode) (h : Fires Config.chip i
    l s code) : Cause Config.chip i l s code := by
  unfold Fires checksOf at h
  cases i with
  | nop => simp at h
  | ctxClear => simp at h
  | ctxInit mode pad =>
    simp only at h
    split at h
    · rename_i hm; rw [mode_none_iff] at hm; subst hm; simp at h; subst h; exact ⟨pad, rfl⟩
    · rename_i m hm
      simp at h
      rcases h with ⟨rfl, h⟩|⟨rfl, h⟩|⟨rfl, h⟩
      · simp [State.ctxValid] at h
        exact ⟨⟨_, _, rfl⟩, by rintro hn; simp [hn] at h⟩
      · rw [ivLengthFails_iff] at h
        refine ⟨mode, pad, rfl, ?_, h.2⟩
        · intro h0; apply h.1; rw [← mode_ecb_iff] at h0; simp_all
      · rw [deltaLengthFails_iff] at h
        obtain ⟨rfl, h2⟩ := h
        rw [mode_randomDelta_iff] at hm; subst hm
        exact ⟨pad, rfl, h2⟩
  | setKey =>
    simp at h
    rcases h with ⟨rfl, h⟩|⟨rfl, h⟩
    · exact .inl ⟨trivial, h⟩
    · exact ⟨rfl, by simpa [MAXKEY] using h⟩
  | streamBegin d =>
    simp only at h
    split at h
    · simp at h; subst h; exact ⟨trivial, ‹_›⟩
    · simp at h
      rcases h with ⟨rfl, h⟩|⟨rfl, h⟩
      · exact .inl ⟨trivial, h⟩
      · exact ⟨trivial, by simpa [State.keyValid] using h⟩
  | encrypt =>
    simp only at h
    split at h
    · simp at h; subst h; exact ⟨trivial, ‹_›⟩
    · rename_i c hc
      simp at h
      rcases h with ⟨rfl, h⟩|⟨rfl, h⟩|⟨rfl, h⟩|⟨rfl, h⟩|⟨rfl, h⟩
      · exact .inl ⟨trivial, h⟩
      · exact ⟨trivial, by simpa [State.keyValid] using h⟩
      · rw [addrRangeFails_iff] at h
        rcases h with h | h
        · left; exact ⟨trivial, h⟩
        · right; exact h
      · exact ⟨trivial, overlapFails_iff.mp h⟩
      · exact capacityFails_iff.mp h
  | decrypt =>
    simp only at h
    split at h
    · simp at h; subst h; exact ⟨trivial, ‹_›⟩
    · rename_i c hc
      simp at h
      rcases h with ⟨rfl, h⟩|⟨rfl, h⟩|⟨rfl, h⟩|⟨rfl, h⟩|⟨rfl, h⟩|⟨rfl, h⟩
      · exact .inl ⟨trivial, h⟩
      · exact ⟨trivial, by simpa [State.keyValid] using h⟩
      · rw [decryptLengthFails_iff] at h
        exact ⟨c, hc, h.1, .inl ⟨rfl, h.2⟩⟩
      · rw [addrRangeFails_iff] at h
        rcases h with h | h
        · left; exact ⟨trivial, h⟩
        · right; exact h
      · exact ⟨trivial, overlapFails_iff.mp h⟩
      · exact capacityFails_iff.mp h
  | streamUpdate =>
    simp only at h
    split at h
    · simp at h; subst h; exact ⟨trivial, ‹_›⟩
    · rename_i c hc
      simp at h
      rcases h with ⟨rfl, h⟩|⟨rfl, h⟩|⟨rfl, h⟩|⟨rfl, h⟩
      · exact .inr ⟨.inl rfl, h⟩
      · rw [addrRangeFails_iff] at h
        rcases h with h | h
        · left; exact ⟨trivial, h⟩
        · right; exact h
      · exact ⟨trivial, overlapFails_iff.mp h⟩
      · exact capacityFails_iff.mp h
  | streamFinal =>
    simp only at h
    split at h
    · simp at h; subst h; exact ⟨trivial, ‹_›⟩
    · rename_i c hc
      simp at h
      rcases h with ⟨rfl, h⟩|⟨rfl, h⟩|⟨rfl, h⟩|⟨rfl, h⟩
      · exact .inr ⟨.inr rfl, h⟩
      · rw [finalLengthFails_iff] at h
        exact ⟨c, hc, h.1.1, .inr ⟨rfl, h.1.2, h.2⟩⟩
      · rw [addrRangeFails_iff] at h
        rcases h with h | h
        · simp [sourceCount] at h
        · right; exact h
      · exact capacityFails_iff.mp h

/-- The first cause makes its check fail. -/
theorem fires_of_cause (i : Instr) (l : Latch) (s : State) (code : ErrorCode) (h : Cause Config.chip i
    l s code)
    (hmin : ∀ c, ErrorCode.before c code → ¬ Cause Config.chip i l s c) : Fires Config.chip i l s code := by
  have hbad : code ≠ .badCmd → ∀ pad, i ≠ .ctxInit 7 pad := by
    intro hne pad hi
    cases code with
    | badCmd => exact hne rfl
    | none => exact h
    | _ => exact hmin .badCmd (by unfold ErrorCode.before; decide) ⟨pad, hi⟩
  have hctx : (∀ c ∈ [ErrorCode.none, .badCmd, .noContext], code ≠ c) → needsContext i → s.ctx ≠ none := by
    intro hne hn hc
    cases code with
    | badCmd => simp at hne
    | none => simp at hne
    | noContext => simp at hne
    | _ => exact hmin .noContext (by unfold ErrorCode.before; decide) ⟨hn, hc⟩
  unfold Fires
  cases code with
  | none => exact h.elim
  | busError => exact h.elim
  | badCmd => obtain ⟨pad, rfl⟩ := h; show _ ∈ [_]; simp
  | noContext => obtain ⟨hn, hc⟩ := h; cases i <;> simp_all [checksOf, needsContext]
  | ctxLocked =>
    obtain ⟨⟨mode, pad, rfl⟩, hc⟩ := h
    have := hbad (by decide) pad
    simp only [checksOf]
    split
    · rename_i hm; rw [mode_none_iff] at hm; subst hm; exact absurd rfl this
    · simp [State.ctxValid]; cases hcc : s.ctx <;> simp_all
  | streamState =>
    have hctx := hctx (by decide)
    obtain ⟨x, hx⟩ | hx := em (∃ x, s.ctx = some x)
    · rcases h with ⟨hn, ho⟩ | ⟨rfl|rfl, ho⟩
      · cases i <;> simp_all [checksOf, needsNoStream]
      · simp [checksOf, hx, ho]
      · simp [checksOf, hx, ho]
    · have hno : s.ctx = none := by cases hc : s.ctx <;> simp_all
      rcases h with ⟨hn, ho⟩ | ⟨rfl|rfl, ho⟩
      · cases i <;> simp_all [checksOf, needsNoStream, needsContext]
      · exact absurd hno (hctx trivial)
      · exact absurd hno (hctx trivial)
  | noKey =>
    have hctx := hctx (by decide)
    obtain ⟨hn, hk⟩ := h
    have hne : s.ctx ≠ none := hctx (by cases i <;> simp_all [needsKey, needsContext])
    obtain ⟨x, hx⟩ := Option.ne_none_iff_exists'.mp hne
    cases i <;> simp_all [checksOf, needsKey, State.keyValid]
  | keyError => obtain ⟨rfl, hl⟩ := h; have : decide (MAXKEY < l.keyLen.toNat) = true := decide_eq_true hl; simp [checksOf, this]
  | ivLength =>
    obtain ⟨mode, pad, rfl, h0, h1, h2⟩ := h
    have := hbad (by decide) pad
    simp only [checksOf]
    split
    · rename_i hm; rw [mode_none_iff] at hm; subst hm; exact absurd rfl this
    · rename_i m hm
      have : ivLengthFails Config.chip m l = true := ivLengthFails_iff.mpr ⟨by rintro rfl; rw [mode_ecb_iff] at hm; exact h0 hm, h1, h2⟩
      simp [this]
  | deltaLength =>
    obtain ⟨pad, rfl, h2⟩ := h
    have : deltaLengthFails Config.chip .randomDelta l = true := deltaLengthFails_iff.mpr ⟨rfl, h2⟩
    show _ ∈ [_, _, (_, deltaLengthFails Config.chip .randomDelta l)]; simp [this]
  | length =>
    obtain ⟨c, hc, hp, ⟨rfl, h⟩ | ⟨rfl, h1, h2, h3⟩⟩ := h
    · simp [checksOf, hc, decryptLengthFails, hp, h]
    · have : finalLengthFails Config.chip c s = true := finalLengthFails_iff.mpr ⟨⟨hp, h1⟩, h2, h3⟩
      simp [checksOf, hc, this]
  | addrRange =>
    have hctx := hctx (by decide)
    have key : needsContext i ∧ (addrRangeFails Config.chip i l s = true) := by
      rw [addrRangeFails_iff]
      rcases h with ⟨h0, h1, h2⟩ | ⟨h1, h2⟩
      · constructor
        · cases i <;> simp_all [hasSource, needsContext]
        · left; cases i <;> first | exact h0.elim | exact ⟨h1, h2⟩
      · constructor
        · cases i <;> simp [needsContext] <;> (simp [writeBound] at h1; split at h1 <;> simp at h1)
        · exact .inr ⟨h1, h2⟩
    have hne := hctx key.1
    obtain ⟨x, hx⟩ := Option.ne_none_iff_exists'.mp hne
    cases i <;> simp_all [checksOf, needsContext]
    rw [addrRangeFails_iff] at key; simp [sourceCount, writeBound, hx] at key
  | overlap =>
    have hctx := hctx (by decide)
    obtain ⟨h0, h1, h2, h3, h4⟩ := h
    have key : overlapFails Config.chip i l s = true := by
      rw [overlapFails_iff]; cases i <;> first | exact h0.elim | exact ⟨h1, h2, h3, h4⟩
    have hne := hctx (by cases i <;> simp_all [hasSource, needsContext])
    obtain ⟨x, hx⟩ := Option.ne_none_iff_exists'.mp hne
    cases i <;> simp_all [checksOf, hasSource]
  | capacity =>
    have hctx := hctx (by decide)
    have key : capacityFails Config.chip i l s = true := capacityFails_iff.mpr h
    have h0 : l.dstCap.toNat < writeBound Config.chip i l s := h
    have h1 : 0 < writeBound Config.chip i l s := by omega
    have hnc : needsContext i := by cases i <;> simp [needsContext] <;> (simp [writeBound] at h1; split at h1 <;> simp at h1)
    have hne := hctx hnc
    obtain ⟨x, hx⟩ := Option.ne_none_iff_exists'.mp hne
    cases i <;> simp_all [checksOf, needsContext]
    simp [writeBound, hx] at h1

/-- The reported check fails, and none before it. -/
theorem fires_of_firstFailure {i : Instr} {l : Latch} {s : State} {code : ErrorCode} (h : firstFailure
    (checksOf Config.chip i l s) = some code) :
   Fires Config.chip i l s code ∧ ∀ c, ErrorCode.before c code → ¬ Fires Config.chip i l s c := by
  obtain ⟨b, a, he, hb⟩ := firstFailure_some h
  refine ⟨by unfold Fires; rw [he]; simp, ?_⟩
  intro c hc hf
  have hp := (checksOf_codes Config.chip i l s).1
  unfold Fires at hf
  rw [he] at hf hp
  rw [List.mem_append, List.mem_cons] at hf
  rcases hf with h1 | h1 | h1
  · simpa using hb _ h1
  · cases h1; unfold ErrorCode.before at hc; omega
  · have := (List.pairwise_append.mp hp).2.1
    have := (List.pairwise_cons.mp this).1 _ h1
    unfold ErrorCode.before at hc; simp at this; omega

/-- And the other way. -/
theorem firstFailure_of_fires {i : Instr} {l : Latch} {s : State} {code : ErrorCode} (h : Fires
    Config.chip i l s code)
   (hm : ∀ c, ErrorCode.before c code → ¬ Fires Config.chip i l s c) : firstFailure (checksOf
       Config.chip i l s) = some code := by
  cases hf : firstFailure (checksOf Config.chip i l s) with
  | none => have := firstFailure_none.mp hf _ h; simp at this
  | some c' =>
    obtain ⟨h1, h2⟩ := fires_of_firstFailure hf
    have a := hm c'
    have b := h2 code
    unfold ErrorCode.before at a b
    have : c'.code.toNat = code.code.toNat := by
      rcases Nat.lt_trichotomy c'.code.toNat code.code.toNat with h' | h' | h'
      · exact absurd h1 (a h')
      · exact h'
      · exact absurd h (b h')
    congr 1
    revert this; cases c' <;> cases code <;> decide

/-- The reported code is the first cause. -/
theorem cause_of_firstFailure {i : Instr} {l : Latch} {s : State} {code : ErrorCode} (h : firstFailure
    (checksOf Config.chip i l s) = some code) :
   Cause Config.chip i l s code ∧ ∀ c, ErrorCode.before c code → ¬ Cause Config.chip i l s c := by
  obtain ⟨h1, h2⟩ := fires_of_firstFailure h
  refine ⟨cause_of_fires _ _ _ _ h1, ?_⟩
  have key : ∀ n c, c.code.toNat = n → ErrorCode.before c code → ¬ Cause Config.chip i l s c := by
    intro n
    induction n using Nat.strongRecOn with
    | ind n ih =>
      intro c hn hb hc
      refine h2 c hb (fires_of_cause _ _ _ _ hc ?_)
      intro c' hb'
      unfold ErrorCode.before at hb hb'
      exact ih c'.code.toNat (by omega) c' rfl (by unfold ErrorCode.before; omega)
  intro c; exact key _ c rfl

/-- No cause exactly when every check passes. -/
theorem noCause_iff {i : Instr} {l : Latch} {s : State} : NoCause Config.chip i l s ↔ firstFailure
    (checksOf Config.chip i l s) = none := by
  constructor
  · intro h
    cases hf : firstFailure (checksOf Config.chip i l s) with
    | none => rfl
    | some c => exact absurd (cause_of_firstFailure hf).1 (h c)
  · intro h
    have key : ∀ n c, c.code.toNat = n → ¬ Cause Config.chip i l s c := by
      intro n
      induction n using Nat.strongRecOn with
      | ind n ih =>
        intro c hn hc
        have := fires_of_cause i l s c hc (fun c' hb' => ih c'.code.toNat (by unfold ErrorCode.before at hb'; omega) c' rfl)
        have := firstFailure_none.mp h _ this
        simp at this
    intro c; exact key _ c rfl

/-- Then the command has its effect. -/
theorem exec_of_noCause {i : Instr} {l : Latch} {s : State} (hp : s.pending = some l) (h : NoCause
    Config.chip i l s) : exec i s = effectOf Config.chip i l s := by
  rw [exec_eq_withChecks i hp, withChecks_pass _ _ (noCause_iff.mp h)]

end Sys2Proof.Machine
end

