-- ==== Sys2Proof/Laws/HostPort.lean ====
section
/-! SUPPORT. Windows by words, and everything one step can do (10_state.md R51-R53, 20_memory.md R102, 60_exceptions.md R405). -/

namespace Sys2Proof.Machine

/-- The first bytes of a window, all written. -/
theorem windowBytes_of_bytes {n : Nat} {w : Window n} {iv : Bytes} {S : Nat} (hS : S ≤ n) (h1 :
    iv.length = S) (h2 : ∀ j, j < S → windowByte w j = iv[j]?) : windowBytes w S = some iv := by
  exact (windowBytes_eq_some w iv hS).mpr ⟨h1, h2⟩

/-- A window byte after a word write. -/
theorem windowByte_setWindowWord {n : Nat} (w : Window n) (k : Nat) (v : Word) (hk : 4 * k + 3 < n) (j
    : Nat) (hj : j < n) :
   windowByte (setWindowWord w k v) j = if j / 4 = k then some (byteLane v (j % 4)) else windowByte w j
       := by
  unfold windowByte setWindowWord
  simp only [Vector.getElem?_setIfInBounds]
  have : j < n := hj
  by_cases h : j / 4 = k
  · rw [if_pos h]
    have : j % 4 < 4 := Nat.mod_lt _ (by decide)
    have hjj : j = 4 * k + j % 4 := by omega
    rcases (show j % 4 = 0 ∨ j % 4 = 1 ∨ j % 4 = 2 ∨ j % 4 = 3 by omega) with h0 | h0 | h0 | h0 <;> rw
        [h0] at hjj <;> rw [h0] <;> subst hjj <;> simp <;> simp (disch := omega) [show 4*k+3 < n by
        omega, show 4*k+2<n by omega, show 4*k+1<n by omega, show 4*k < n by omega]
  · rw [if_neg h]
    rw [if_neg (by omega), if_neg (by omega), if_neg (by omega), if_neg (by omega)]

/-- A word is its four lanes. -/
theorem wordOfLanes_byteLane (v : Word) : wordOfLanes (byteLane v 0) (byteLane v 1) (byteLane v 2)
    (byteLane v 3) = v := by
  refine BitVec.eq_of_getLsbD_eq fun i hi => ?_
  simp only [wordOfLanes, byteLane, BitVec.getLsbD_append, BitVec.getLsbD_extractLsb']
  by_cases h0 : i < 8
  · simp [h0]
  by_cases h1 : i < 16
  · have : i - 8 < 8 := by omega
    simp [h0, this, show 8 + (i - 8) = i by omega]
  by_cases h2 : i < 24
  · have h3 : ¬ i - 8 < 8 := by omega
    have h4 : i - 8 - 8 < 8 := by omega
    simp [h0, h3, h4, show 16 + (i - 8 - 8) = i by omega]
  · have h3 : ¬ i - 8 < 8 := by omega
    have h4 : ¬ i - 8 - 8 < 8 := by omega
    have h5 : i - 8 - 8 - 8 < 8 := by omega
    simp [h0, h3, h4, h5, show 24 + (i - 8 - 8 - 8) = i by omega]

/-- A word written reads back. -/
theorem windowWord_setWindowWord {n : Nat} (w : Window n) (k : Nat) (v : Word) (hk : 4 * k + 3 < n) :
    windowWord (setWindowWord w k v) k = some v := by
  unfold windowWord
  rw [windowByte_setWindowWord w k v hk _ (by omega), windowByte_setWindowWord w k v hk _ (by omega),
      windowByte_setWindowWord w k v hk _ (by omega), windowByte_setWindowWord w k v hk _ (by omega)]
  rw [if_pos (by omega), if_pos (by omega), if_pos (by omega), if_pos (by omega)]
  rw [show (4*k)%4 = 0 by omega, show (4*k+1)%4 = 1 by omega, show (4*k+2)%4 = 2 by omega, show
      (4*k+3)%4 = 3 by omega]
  simp [wordOfLanes_byteLane]

/-- A word with a byte that has no value has none. -/
theorem windowWord_none {n : Nat} (w : Window n) (j : Nat) (h : windowByte w j = none) : windowWord w
    (j / 4) = none := by
  unfold windowWord
  have : j = 4 * (j/4) ∨ j = 4 * (j/4) + 1 ∨ j = 4 * (j/4) + 2 ∨ j = 4 * (j/4) + 3 := by omega
  split
  · rename_i h0 h1 h2 h3
    rcases this with e | e | e | e <;> rw [e] at h
    · rw [h] at h0; cases h0
    · rw [h] at h1; cases h1
    · rw [h] at h2; cases h2
    · rw [h] at h3; cases h3
  · rfl

/-- The turn with a command in flight. -/
theorem engineTurn_pending {s : State} {l : Latch} (hp : s.pending = some l) : engineTurn exec s =
    match decode l.word with | .ok i => exec i s | .error _ => fail .badCmd s := by
  unfold engineTurn
  rw [hp] <;> (cases h : decode l.word <;> simp [h])

/-- A register read changes only the answer. -/
theorem hostRegRead_next {s t : State} {off b} (h : hostRegRead Config.chip off b s = .next t) : ∃ a, t
    = { s with answer := a } := by
  unfold hostRegRead at h; split at h
  · split at h <;> cases h; exact ⟨_, rfl⟩
  · cases h

/-- A memory read changes only the answer and the free counter. -/
theorem hostMemRead_next {s t : State} {a} (h : hostMemRead Config.chip a s = .next t) : ∃ x f, t = { s
    with answer := x, free := f } := by
  unfold hostMemRead at h; split at h
  · cases h; exact ⟨_, _, rfl⟩
  · cases h; exact ⟨_, s.free, rfl⟩

/-- A memory write writes one byte. -/
theorem hostMemWrite_next {s t : State} {a b} (h : hostMemWrite Config.chip a b s = .next t) : t = { s
    with mem := s.mem.write a.toNat b } := by
  unfold hostMemWrite at h; split at h
  · cases h
  · cases h; rfl

/-- A reset that is not refused. -/
theorem hostReset_next {P : Params} {s t : State} (h : hostReset P s = .next t) : t = resetAction P s := by
  unfold hostReset at h
  split at h
  · cases h; rfl
  · split at h <;> cases h; rfl

/-- With no legal command in flight a reset is never refused. -/
theorem hostReset_idle {P : Params} {s : State} (h : legalInFlight s = none) :
    hostReset P s = .next (resetAction P s) := by unfold hostReset; rw [h]

/-- Everything one step can do. -/
theorem step_cases {s t : State} (h : step s = .next t) :
  (∃ s0 l i, s0.pending = some l ∧ decode l.word = .ok i ∧ exec i s0 = .next t ∧ (s0 = s ∨ ∃ rest, s0 =
      { s with events := rest })) ∨
  (∃ s0 l, s0.pending = some l ∧ t = complete .badCmd 0 s0 ∧ (s0 = s ∨ ∃ rest, s0 = { s with events :=
      rest })) ∨
  (∃ rest, s.pending = none ∧ t = { s with events := rest }) ∨
  (∃ rest off b, hostRegRead Config.chip off b { s with events := rest } = .next t) ∨
  (∃ rest r v, t = writeReg { s with events := rest } r v) ∨
  (∃ rest a, hostMemRead Config.chip a { s with events := rest } = .next t) ∨
  (∃ rest a b, hostMemWrite Config.chip a b { s with events := rest } = .next t) ∨
  (∃ rest, t = resetAction Config.chip { s with events := rest }) := by
  have engineTurn_pending : ∀ s0, engineTurn exec s0 = .next t → (s0.pending = none ∧ t = s0) ∨ ∃ l,
      s0.pending = some l ∧ ((∃ i, decode l.word = .ok i ∧ exec i s0 = .next t) ∨ t = complete .badCmd
      0 s0) := by
    intro s0 h
    unfold engineTurn at h
    split at h
    · cases h; exact .inl ⟨‹_›, rfl⟩
    · split at h
      · exact .inr ⟨_, ‹_›, .inl ⟨_, ‹_›, h⟩⟩
      · cases h; exact .inr ⟨_, ‹_›, .inr rfl⟩
  unfold step stepWith at h
  split at h
  · rename_i he
    rcases engineTurn_pending _ h with ⟨h1, h2⟩ | ⟨l, h1, ⟨i, h2, h3⟩ | h2⟩
    · right; right; left; exact ⟨[], h1, by rw [h2, ← he]⟩
    · left; exact ⟨s, l, i, h1, h2, h3, .inl rfl⟩
    · right; left; exact ⟨s, l, h1, h2, .inl rfl⟩
  · rename_i e rest he
    unfold runEvent at h
    split at h
    · exact .inr (.inr (.inr (.inl ⟨_, _, _, h⟩)))
    · unfold hostRegWrite at h
      split at h
      · cases h; exact .inr (.inr (.inr (.inr (.inl ⟨_, _, _, rfl⟩))))
      · cases h
    · exact .inr (.inr (.inr (.inr (.inr (.inl ⟨_, _, h⟩)))))
    · exact .inr (.inr (.inr (.inr (.inr (.inr (.inl ⟨_, _, _, h⟩))))))
    · rcases engineTurn_pending _ h with ⟨h1, h2⟩ | ⟨l, h1, ⟨i, h2, h3⟩ | h2⟩
      · right; right; left; exact ⟨rest, h1, h2⟩
      · left; exact ⟨_, l, i, h1, h2, h3, .inr ⟨_, rfl⟩⟩
      · right; left; exact ⟨_, l, h1, h2, .inr ⟨_, rfl⟩⟩
    · exact .inr (.inr (.inr (.inr (.inr (.inr (.inr ⟨_, hostReset_next h⟩))))))

end Sys2Proof.Machine
end

