-- ==== Sys2Proof/Laws/ModeDriver.lean ====
section
/-! SUPPORT. The laws of block steps and runs: lengths, composition, positions. -/

namespace Sys2Proof.Machine

/-- A driver whose cipher functions answer blocks and whose blocks are S bytes long, as `driverOf` makes
them from a context that CTX_INIT made. -/
structure Driver.Sized (d : Driver) : Prop where
  pos : 0 < d.size
  enc : ∀ b, (d.enc b).length = d.size
  dec : ∀ b, (d.dec b).length = d.size
  iv : d.iv.length = d.size
  delta : d.mode = .randomDelta → d.delta.length = d.size

theorem driverOf_sized {P : Params} {ks : Bytes} {c : Context} {delta : Bytes}
    (hiv : c.iv.length = P.S) (hd : c.mode = .randomDelta → delta.length = P.S) :
    (driverOf P ks c delta).Sized where
  pos := P.S_pos
  enc := by intro b; simp [driverOf]
  dec := by intro b; simp [driverOf]
  iv := hiv
  delta := hd

@[simp] theorem driverOf_size (P : Params) (ks : Bytes) (c : Context) (delta : Bytes) :
    (driverOf P ks c delta).size = P.S := rfl

@[simp] theorem driverOf_mode (P : Params) (ks : Bytes) (c : Context) (delta : Bytes) :
    (driverOf P ks c delta).mode = c.mode := rfl

@[simp] theorem driverOf_pad (P : Params) (ks : Bytes) (c : Context) (delta : Bytes) :
    (driverOf P ks c delta).pad = c.pad := rfl

@[simp] theorem driverOf_iv (P : Params) (ks : Bytes) (c : Context) (delta : Bytes) :
    (driverOf P ks c delta).iv = c.iv := rfl

/-- A run is the run of its first part, continued over the rest. -/
theorem run_append (d : Driver) (dir : Direction) : ∀ (xs ys : List Bytes) (prev : Bytes)
    (b : BitVec 64),
    run d dir prev b (xs ++ ys) =
      ⟨(run d dir prev b xs).out
          ++ (run d dir (run d dir prev b xs).prev (run d dir prev b xs).index ys).out,
        (run d dir (run d dir prev b xs).prev (run d dir prev b xs).index ys).prev,
        (run d dir (run d dir prev b xs).prev (run d dir prev b xs).index ys).index⟩
  | [], _, _, _ => by simp [run]
  | x :: xs, ys, prev, b => by
    simp only [List.cons_append, run]
    rw [run_append d dir xs ys]
    simp

theorem run_index (d : Driver) (dir : Direction) : ∀ (xs : List Bytes) (prev : Bytes)
    (b : BitVec 64), (run d dir prev b xs).index = b + BitVec.ofNat 64 xs.length
  | [], _, _ => by simp [run]
  | x :: xs, prev, b => by
    simp only [run, run_index d dir xs, List.length_cons, BitVec.ofNat_add]
    rw [BitVec.add_assoc, BitVec.add_comm 1 (BitVec.ofNat 64 xs.length)]
    rfl

/-- The output of an encrypt step is as long as its segment, and the chaining register stays a block. -/
theorem blockStep_length {d : Driver} (hd : d.Sized) {dir : Direction} {prev x : Bytes} (i : Nat)
    (hp : prev.length = d.size) (hx : x.length ≤ d.size)
    (hfull : padded d.mode = true → x.length = d.size) :
    (blockStep d dir prev i x).1.length = x.length ∧
      (blockStep d dir prev i x).2.length = d.size := by
  have he := hd.enc
  have hdec := hd.dec
  have hdelta := hd.delta
  unfold blockStep
  cases hm : d.mode <;> cases dir <;>
    simp_all [padded, ecbEncrypt, ecbDecrypt, cbcEncrypt, cbcDecrypt, pcbcEncrypt, pcbcDecrypt,
      cfbEncrypt, cfbDecrypt, ofbEncrypt, ofbDecrypt, ctrEncrypt, ctrDecrypt, randomDeltaEncrypt,
      randomDeltaDecrypt, xorBytes_length, zext_length]

/-- The output of a run is as long as its segments together, and the chaining register stays a block. -/
theorem run_length {d : Driver} (hd : d.Sized) {dir : Direction} :
    ∀ {xs : List Bytes} {prev : Bytes} (b : BitVec 64), prev.length = d.size →
    (∀ x ∈ xs, x.length ≤ d.size) → (padded d.mode = true → ∀ x ∈ xs, x.length = d.size) →
    (run d dir prev b xs).out.length = xs.flatten.length ∧
      (run d dir prev b xs).prev.length = d.size
  | [], _, _, hp, _, _ => by simp [run, hp]
  | x :: xs, prev, b, hp, hx, hfull => by
    have hs := blockStep_length hd (dir := dir) b.toNat hp (hx x (by simp))
      (fun h => hfull h x (by simp))
    have ih := run_length hd (dir := dir) (xs := xs) (b + 1) hs.2 (fun y hy => hx y (by simp [hy]))
      (fun h y hy => hfull h y (by simp [hy]))
    simp only [run, List.flatten_cons, List.length_append]
    exact ⟨by rw [hs.1, ih.1], ih.2⟩

/-- Without any assumption on the blocks of the context, no step gives more bytes than it takes. -/
theorem blockStep_length_le (P : Params) (ks : Bytes) (c : Context) (delta : Bytes) (dir : Direction)
    (prev x : Bytes) (i : Nat) (hfull : padded c.mode = true → x.length = P.S) :
    (blockStep (driverOf P ks c delta) dir prev i x).1.length ≤ x.length := by
  unfold blockStep
  cases hm : c.mode <;> cases dir <;>
    simp_all [padded, ecbEncrypt, ecbDecrypt, cbcEncrypt, cbcDecrypt, pcbcEncrypt, pcbcDecrypt,
      cfbEncrypt, cfbDecrypt, ofbEncrypt, ofbDecrypt, ctrEncrypt, ctrDecrypt, randomDeltaEncrypt,
      randomDeltaDecrypt, xorBytes_length, driverOf]

theorem run_length_le (P : Params) (ks : Bytes) (c : Context) (delta : Bytes) (dir : Direction) :
    ∀ (xs : List Bytes) (prev : Bytes) (b : BitVec 64),
    (padded c.mode = true → ∀ x ∈ xs, x.length = P.S) →
    (run (driverOf P ks c delta) dir prev b xs).out.length ≤ xs.flatten.length
  | [], _, _, _ => by simp [run]
  | x :: xs, prev, b, h => by
    have hs := blockStep_length_le P ks c delta dir prev x b.toNat (fun hp => h hp x (by simp))
    have ih := run_length_le P ks c delta dir xs
      (blockStep (driverOf P ks c delta) dir prev b.toNat x).2 (b + 1)
      (fun hp y hy => h hp y (by simp [hy]))
    simp only [run, List.flatten_cons, List.length_append]
    omega

end Sys2Proof.Machine
end

