-- ==== Sys2Proof/Laws/Padding.lean ====
section
/-! SUPPORT. Lengths of padded messages, and what padding removal strips (40_padding.md R200-R215). -/

namespace Sys2Proof.Machine

/-- The pad length p (40_padding.md R201). -/
theorem padLength_bounds {S n : Nat} (h : 0 < S) : 1 ≤ padLength S n ∧ padLength S n ≤ S ∧ (padLength S
    n = S ↔ n % S = 0) ∧ n + padLength S n = S * (n / S + 1) := by
  have h1 := Nat.mod_lt n h
  have h2 := Nat.div_add_mod n S
  unfold padLength
  refine ⟨by omega, by omega, by omega, ?_⟩
  rw [Nat.mul_add]; omega

/-- ⌈n/S⌉ where S does not divide n. -/
theorem ceil_of_rest {S n : Nat} (h : 0 < S) (hn : n % S ≠ 0) : (n + S - 1) / S = n / S + 1 := by
  have h1 := Nat.mod_lt n h
  have h2 := Nat.div_add_mod n S
  apply Nat.div_eq_of_lt_le
  · rw [Nat.succ_mul, Nat.mul_comm]; omega
  · rw [Nat.succ_mul, Nat.succ_mul, Nat.mul_comm]; omega

/-- ⌈n/S⌉ where S divides n. -/
theorem ceil_of_exact {S n : Nat} (h : 0 < S) (hn : n % S = 0) : (n + S - 1) / S = n / S := by
  have h2 := Nat.div_add_mod n S
  apply Nat.div_eq_of_lt_le
  · rw [Nat.mul_comm]; omega
  · rw [Nat.succ_mul, Nat.mul_comm]; omega

/-- The length of an applied result is the one of 40_padding.md R206. -/
theorem padApply_length {S : Nat} (h : 0 < S) (k fill m) : (padApply S k fill m).length = paddedLength
    S k m.length := by
  have hb := padLength_bounds (n := m.length) h
  cases k with
  | zeros =>
    simp only [padApply, padApplyZeros, paddedLength]
    split
    · simp
    · split
      · rename_i h0 h1
        rw [ceil_of_exact h h1]; have := Nat.div_add_mod m.length S; omega
      · rename_i h0 h1
        rw [ceil_of_rest h h1]; simp; omega
  | pkcs7 => simp [padApply, padApplyPkcs7, paddedLength]; omega
  | ansiX923 => simp [padApply, padApplyX923, paddedLength]; omega
  | iso10126 => simp [padApply, padApplyIso, paddedLength]; omega

/-- That length is a positive multiple of S. -/
theorem paddedLength_pos_mul {S : Nat} (h : 0 < S) (k n) : 0 < paddedLength S k n ∧ paddedLength S k n
    % S = 0 := by
  have : ∀ x, 0 < S * (x + 1) := fun x => Nat.mul_pos h (by omega)
  cases k <;> simp [paddedLength, h, this]
  split
  · simp [h]
  · exact ⟨Nat.mul_pos h (Nat.div_pos (by omega) h), by simp⟩

/-- The last p bytes of a block. -/
theorem slice_last {b : Bytes} {S p : Nat} (hb : b.length = S) : slice b (S - p) S = b.drop (S - p) := by
  rw [← hb]; simp [slice]

/-- The last p bytes are all v. -/
theorem drop_eq_rep_iff {b : Bytes} {S p : Nat} {v} (hb : b.length = S) (hp : p ≤ S) : (b.drop (S - p)
    = rep p v ↔ ∀ j, S - p ≤ j → j < S → b[j]? = some v) := by
  unfold rep
  constructor
  · intro h j h1 h2
    have := congrArg (fun l => l[j - (S-p)]?) h
    simp only [List.getElem?_drop, List.getElem?_replicate] at this
    rw [if_pos (by omega), show S - p + (j - (S-p)) = j by omega] at this
    exact this
  · intro h
    apply List.ext_getElem?
    intro k
    simp only [List.getElem?_drop, List.getElem?_replicate]
    split
    · exact h _ (by omega) (by omega)
    · rw [List.getElem?_eq_none]; omega

/-- The p-1 bytes before the last are all 00. -/
theorem slice_eq_zeros_iff {b : Bytes} {S p : Nat} (hb : b.length = S) (hp : p ≤ S) (h1 : 1 ≤ p):
    (slice b (S - p) (S - 1) = zeros (p-1) ↔ ∀ j, S - p ≤ j → j < S - 1 → b[j]? = some 0#8) := by
  have := drop_eq_rep_iff (b := b.take (S-1)) (S := S - 1) (p := p - 1) (v := 0#8) (by simp; omega) (by omega)
  unfold slice zeros
  rw [show S - 1 - (p-1) = S - p by omega] at this
  have h0 : (0 : Byte) = 0#8 := rfl
  rw [h0, this]
  constructor
  · intro h j h1 h2; have := h j h1 h2; rwa [List.getElem?_take_of_lt h2] at this
  · intro h j h1 h2; rw [List.getElem?_take_of_lt h2]; exact h j h1 h2

/-- How `trailingZeros` is found from the bytes (40_padding.md R211). -/
theorem trailingZeros_eq {b : Bytes} {S t : Nat} (hb : b.length = S) (ht : t ≤ S) (h : ∀ j, S - t ≤ j →
    j < S → b[j]? = some 0#8) (h2 : t = S ∨ b[S - t - 1]? ≠ some 0#8) : trailingZeros b = t := by
  have e : b = b.take (S - t) ++ List.replicate t 0#8 := by
    have := (drop_eq_rep_iff hb ht).mpr h
    unfold rep at this
    rw [← this]; simp
  unfold trailingZeros
  rw [e, List.reverse_append, List.reverse_replicate]
  rw [List.takeWhile_append_of_pos (by simp)]
  rw [List.length_append, List.length_replicate]
  have : ((b.take (S-t)).reverse.takeWhile (· == 0)) = [] := by
    rcases h2 with rfl | h2
    · simp
    · cases hr : (b.take (S-t)).reverse with
      | nil => rfl
      | cons x xs =>
        rw [List.takeWhile_cons]
        have hl : (b.take (S-t)).getLast? = some x := by rw [← List.head?_reverse, hr]; rfl
        rw [List.getLast?_eq_getElem?] at hl
        simp only [List.length_take] at hl
        have hlen : (b.take (S-t)).length ≠ 0 := by intro hh; rw [List.length_eq_zero_iff] at hh; rw [hh] at hr; simp at hr
        simp at hlen
        rw [Nat.min_eq_left (by omega), List.getElem?_take_of_lt (by omega)] at hl
        rw [hl] at h2
        have : (x == 0) = false := by simpa using h2
        rw [this]; simp
  rw [this]; simp

/-- Removal acts on the final block alone (40_padding.md R207). -/
theorem padRemove_append {S : Nat} {x b : Bytes} (k) (hS : 0 < S) (hb : b.length = S) : padRemove S k
    (x ++ b) = x ++ removeLast S k b := by
  have hne : x ++ b ≠ [] := by intro h; simp at h; rw [h.2] at hb; simp at hb; omega
  unfold padRemove
  rw [if_neg hne]
  have e1 : (x ++ b).length - S = x.length := by simp; omega
  rw [e1]
  congr 1
  · simp [slice]
  · congr 1; rw [slice_to_end]; simp

/-- What is left after the whole blocks. -/
theorem drop_blocks_length {S : Nat} (h : 0 < S) (m : Bytes) : (m.drop (S * (m.length / S))).length =
    m.length % S := by
  have := Nat.div_add_mod m.length S
  simp; omega

/-- A message is whole blocks and a rest. -/
theorem split_at_blocks {S : Nat} (h : 0 < S) (m : Bytes) : ∃ x r, m = x ++ r ∧ r.length = m.length % S
    ∧ x.length = S * (m.length / S) := by
  refine ⟨m.take (S * (m.length / S)), m.drop (S * (m.length / S)), by simp, drop_blocks_length h m, ?_⟩
  have := Nat.div_add_mod m.length S
  simp; omega

/-- A pad count fits a byte. -/
theorem padCount_toNat {S p : Nat} (hp : p ≤ S) (hS : S ≤ 32) : (BitVec.ofNat 8 p).toNat = p := by
  simp; omega

/-- Zeros removal drops the trailing zero bytes. -/
theorem removeLast_zeros {S : Nat} {b : Bytes} (hb : b.length = S) : removeLast S .zeros b =
    b.rdropWhile (· == 0#8) := by
  simp only [removeLast, removeLastZeros, slice_zero, trailingZeros, List.rdropWhile]
  have e : b.reverse = b.reverse.takeWhile (· == 0#8) ++ b.reverse.dropWhile (· == 0#8) := by simp
  have e2 : b = (b.reverse.dropWhile (· == 0#8)).reverse ++ (b.reverse.takeWhile (· == 0#8)).reverse := by
    rw [← List.reverse_append, ← e]; simp
  have hl : S = (b.reverse.dropWhile (· == 0#8)).length + (b.reverse.takeWhile (· == 0#8)).length := by
    rw [← hb]; conv_lhs => rw [e2]
    simp
  conv_lhs => rw [show List.take (S - (List.takeWhile (fun x => x == 0) b.reverse).length) b = List.take (S - (List.takeWhile (fun x => x == 0#8) b.reverse).length) ((b.reverse.dropWhile (· == 0#8)).reverse ++ (b.reverse.takeWhile (· == 0#8)).reverse) by rw [← e2]; rfl]
  rw [List.take_append_of_le_length (by simp; omega), List.take_of_length_le (by simp; omega)]

/-- Trailing zeros do not matter to that. -/
theorem rdropWhile_append_zeros (r : Bytes) (n : Nat) : (r ++ zeros n).rdropWhile (· == 0#8) =
    r.rdropWhile (· == 0#8) := by
  unfold List.rdropWhile zeros rep
  rw [List.reverse_append, List.reverse_replicate, List.dropWhile_append_of_pos]
  intro a ha; rw [List.mem_replicate] at ha; rw [ha.2]; rfl

/-- Nothing is dropped where the last byte is not 00. -/
theorem rdropWhile_zero_eq_self {r : Bytes} : r.rdropWhile (· == 0#8) = r ↔ r.getLast? ≠ some 0#8 := by
  rw [List.rdropWhile_eq_self_iff]
  cases hr : r with
  | nil => simp
  | cons a l =>
    rw [List.getLast?_eq_getLast_of_ne_nil (by simp)]
    simp

/-- Removal keeps a prefix of the block. -/
theorem removeLast_prefix {S : Nat} (k) {b : Bytes} (hb : b.length = S) : ∃ t, t ≤ S ∧ removeLast S k b
    = b.take (S - t) := by
  cases k with
  | zeros => exact ⟨trailingZeros b, by unfold trailingZeros; rw [← hb]; have := (List.takeWhile_sublist (· == (0:Byte)) (l := b.reverse)).length_le; rwa [List.length_reverse] at this, by simp [removeLast, removeLastZeros, slice]⟩
  | pkcs7 =>
    simp only [removeLast, removeLastPkcs7]; split
    · rename_i h; exact ⟨_, h.2.1, by simp [slice]⟩
    · exact ⟨0, by omega, by simp [← hb]⟩
  | ansiX923 =>
    simp only [removeLast, removeLastX923]; split
    · rename_i h; exact ⟨_, h.2.1, by simp [slice]⟩
    · exact ⟨0, by omega, by simp [← hb]⟩
  | iso10126 =>
    simp only [removeLast, removeLastIso]; split
    · rename_i h; exact ⟨_, h.2, by simp [slice]⟩
    · exact ⟨0, by omega, by simp [← hb]⟩

/-- Removal drops at most S bytes. -/
theorem padRemove_prefix {S : Nat} (hS : 0 < S) (k) {p : Bytes} (hp : p.length % S = 0) : ∃ t, t ≤ S ∧
    (padRemove S k p).length + t = p.length := by
  by_cases hne : p = []
  · subst hne; exact ⟨0, by omega, by simp [padRemove]⟩
  · have h2 := Nat.div_add_mod p.length S
    have : S ≤ p.length := by
      have hl := List.length_pos_of_ne_nil hne
      by_contra h
      rw [Nat.mod_eq_of_lt (by omega)] at hp; omega
    have e : p = p.take (p.length - S) ++ p.drop (p.length - S) := by simp
    have hd : (p.drop (p.length - S)).length = S := by simp; omega
    obtain ⟨t, ht, h⟩ := removeLast_prefix k hd
    refine ⟨t, ht, ?_⟩
    conv_lhs => rw [e]
    rw [padRemove_append k hS hd, h]
    simp; omega

end Sys2Proof.Machine
end

