-- ==== Sys2Proof/Laws/PerInstr.lean ====
section
/-! SUPPORT. The family of statements made per instruction: FieldUse, the canonical word of a command uses only
the fields its opcode defines (30_encoding.md R142, R148). -/

namespace Sys2Proof.Laws.FieldUse

/-- The canonical word of `i` has a defined opcode and is 0 in every bit the opcode does not use
(30_encoding.md R142). -/
def Statement (i : Instr) : Prop :=
  ∃ mask, allowedBits (opField (encode i)) = some mask ∧ encode i &&& ~~~mask = 0

theorem nop : Statement .nop := ⟨0x000000FF, by decide, by decide⟩

/-- A word `0x01 | MODE<<8 | PAD<<12` keeps OP and the bits R142 allows CTX_INIT. -/
theorem ctxInit (mode : BitVec 3) (pad : PaddingKind) : Statement (.ctxInit mode pad) := by
  have key : ∀ (m : BitVec 3) (p : BitVec 2),
      opField (commandWord 0x01 m p 0) = 0x01 ∧ commandWord 0x01 m p 0 &&& ~~~0x000037FF#32 = 0 := by
    decide
  obtain ⟨hop, hbits⟩ := key mode pad.bits
  exact ⟨0x000037FF, by rw [encode, hop]; rfl, hbits⟩

theorem ctxClear : Statement .ctxClear := ⟨0x000000FF, by decide, by decide⟩

theorem setKey : Statement .setKey := ⟨0x000000FF, by decide, by decide⟩

theorem encrypt : Statement .encrypt := ⟨0x000000FF, by decide, by decide⟩

theorem decrypt : Statement .decrypt := ⟨0x000000FF, by decide, by decide⟩

theorem streamBegin (dir : Direction) : Statement (.streamBegin dir) := by
  cases dir <;> exact ⟨0x000100FF, by decide, by decide⟩

theorem streamUpdate : Statement .streamUpdate := ⟨0x000000FF, by decide, by decide⟩

theorem streamFinal : Statement .streamFinal := ⟨0x000000FF, by decide, by decide⟩

end Sys2Proof.Laws.FieldUse
end

