-- ==== Sys2Proof/Laws/Streams.lean ====
section
/-! SUPPORT. Lengths of runs over segments, the lane table, and the carried state of a stream (41_mode_drivers.md R249-R252, 42_scheduler_streaming.md R281-R292). -/

namespace Sys2Proof.Machine

/-- Segments are at most S bytes long, and whole blocks in a padded mode. -/
theorem segments_fit {d : Driver} (h : 0 < d.size) (m : Bytes) (hp : padded d.mode = true → m.length %
    d.size = 0) : (∀ x ∈ segments d.size m, x.length ≤ d.size) ∧ (padded d.mode = true → ∀ x ∈ segments
    d.size m, x.length = d.size) :=
  ⟨fun x hx => (segments_bounds h m x hx).2, fun hh => segments_blocks h m (hp hh)⟩

/-- A run over the segments of m gives as many bytes as m has. -/
theorem run_segments_length {d : Driver} (hd : d.Sized) (dir prev b m) (hpv : prev.length = d.size) (hp
    : padded d.mode = true → m.length % d.size = 0) : (run d dir prev b (segments d.size m)).out.length
    = m.length ∧ (run d dir prev b (segments d.size m)).prev.length = d.size := by
  have h := segments_fit hd.pos m hp
  have := run_length hd (dir := dir) b hpv h.1 h.2
  rw [segments_flatten hd.pos] at this; exact this

/-- The length of EncMsg (41_mode_drivers.md R252). -/
theorem encMsg_length {d : Driver} (hd : d.Sized) (fill m) : (encMsg d fill m).1.length = if padded
    d.mode then paddedLength d.size d.pad m.length else m.length := by
  simp only [encMsg, encSegments]
  split
  · rename_i h
    rw [(run_segments_length hd _ _ _ _ hd.iv (fun _ => by rw [padApply_length hd.pos]; exact (paddedLength_pos_mul hd.pos _ _).2)).1, padApply_length hd.pos]
  · rename_i h
    rw [(run_segments_length hd _ _ _ _ hd.iv (fun h' => absurd h' h)).1]

/-- Pieces of the lengths of segments are the segments of their join. -/
theorem segments_flatten_of_lengths {n : Nat} (hn : 0 < n) : ∀ (m : Bytes) (ys : List Bytes), ys.map
    List.length = (segments n m).map List.length → segments n ys.flatten = ys := by
  intro m
  induction m using segments_induction hn with
  | nil => intro ys h; simp at h; subst h; simp
  | cons m hm ih =>
    intro ys h
    rw [segments_cons hn hm] at h
    cases ys with
    | nil => simp at h
    | cons y ys =>
      simp at h
      have hy := ih ys h.2
      have hl := List.length_pos_of_ne_nil hm
      have hyne : y ≠ [] := by rintro rfl; simp at h; omega
      by_cases hmn : n ≤ m.length
      · rw [List.flatten_cons, segments_append hn y _ (by rw [h.1, Nat.min_eq_left hmn]; simp), hy, segments_single hyne (by omega)]; rfl
      · have : m.drop n = [] := List.drop_eq_nil_of_le (by omega)
        rw [this] at h; simp at h
        rw [h.2]; simp
        exact segments_single hyne (by omega)

/-- ECB and CTR keep the chaining register. -/
theorem blockStep_independent {d : Driver} (h : independent d.mode = true) (dir prev i x) : (blockStep
    d dir prev i x).2 = prev := by
  unfold blockStep
  cases hm : d.mode <;> rw [hm] at h <;> simp [independent] at h <;> cases dir <;> rfl

/-- So does a run of them. -/
theorem run_independent {d : Driver} (h : independent d.mode = true) (dir prev b xs) : (run d dir prev
    b xs).prev = prev := by
  induction xs generalizing prev b with
  | nil => rfl
  | cons x xs ih => simp only [run, ih, blockStep_independent h]

/-- The table keeps its places. -/
theorem laneTable_length (d dir prev jobs order) : ∀ table : List Bytes, (laneTable d dir prev jobs
    order table).length = table.length := by
  induction order with
  | nil => intro t; rfl
  | cons j order ih => intro t; unfold laneTable; split <;> simp [ih]

/-- What stands at place j when the lanes are done. -/
theorem laneTable_get (d dir prev jobs order) : ∀ (table : List Bytes) (j : Nat) (start xs), jobs[j]? =
    some (start, xs) → j < table.length →
   (laneTable d dir prev jobs order table)[j]? = if j ∈ order then some (laneOutput d dir prev start
       xs) else table[j]? := by
  induction order with
  | nil => intro t j st xs h hl; simp [laneTable]
  | cons k order ih =>
    intro t j st xs h hl
    unfold laneTable
    split
    · rename_i hk
      rw [ih _ j st xs h hl]
      have : j ≠ k := by rintro rfl; rw [h] at hk; cases hk
      simp [this]
    · rename_i st' xs' hk
      rw [ih _ j st xs h (by simpa using hl)]
      by_cases hj : j = k
      · subst hj; rw [h] at hk; cases hk
        simp [hl]
      · have hk' : ¬ k = j := fun h' => hj h'.symm
        simp [hj, List.getElem?_set, hk']

/-- One job per slice. -/
theorem withStarts_length (b slices) : (withStarts b slices).length = slices.length := by
  induction slices generalizing b with
  | nil => rfl
  | cons x xs ih => simp [withStarts, ih]

/-- Slices in order are the segments. -/
theorem cut_flatten {n : Nat} (hn : 0 < n) : ∀ fuel (xs : List Bytes), xs.length ≤ fuel → (cutUpTo n
    fuel xs).flatten = xs := by
  intro fuel
  induction fuel with
  | zero => intro xs h; simp at h; subst h; rfl
  | succ k ih =>
    intro xs h
    unfold cutUpTo
    split
    · simp [*]
    · rename_i hne
      have := List.length_pos_of_ne_nil hne
      rw [List.flatten_cons, ih _ (by simp; omega)]; simp

/-- The blocks processed now are there. -/
theorem blocksNow_le {S mode dir len} (hS : 0 < S) : blocksNow S mode dir len * S ≤ len := by
  unfold blocksNow
  split
  · split
    · omega
    · have := Nat.div_mul_le_self (len - 1) S; omega
  · exact Nat.div_mul_le_self len S

/-- What is left withheld (42_scheduler_streaming.md R290). -/
theorem blocksNow_rest {S mode dir len} (hS : 0 < S) : (paddedDecrypt mode dir = false → len -
    blocksNow S mode dir len * S ≤ S - 1) ∧ (paddedDecrypt mode dir = true → (len ≠ 0 → 1 ≤ len -
    blocksNow S mode dir len * S) ∧ len - blocksNow S mode dir len * S ≤ S) := by
  unfold blocksNow
  have h1 := Nat.div_add_mod len S
  have h2 := Nat.mod_lt len hS
  have h3 := Nat.div_add_mod (len - 1) S
  have h4 := Nat.mod_lt (len - 1) hS
  rw [Nat.mul_comm] at h1 h3
  refine ⟨fun h => ?_, fun h => ?_⟩
  · simp only [h]; simp; omega
  · simp only [h, if_true]
    split
    · subst_vars; simp
    · omega

/-- The carried state after input m and output `out`: one run over the whole blocks taken so far. -/
structure StreamAfter (d : Driver) (dir : Direction) (m : Bytes) (c : Carried) (out : Bytes) : Prop where
  n : ∃ n, c.hold = m.drop (n * d.size) ∧ n * d.size ≤ m.length ∧ out = (run d dir d.iv 0 (segments
      d.size (m.take (n * d.size)))).out ∧
    c.prev = (run d dir d.iv 0 (segments d.size (m.take (n * d.size)))).prev ∧ c.index = BitVec.ofNat
        64 n ∧ (c.index = (run d dir d.iv 0 (segments d.size (m.take (n * d.size)))).index)
  plain : paddedDecrypt d.mode dir = false → c.hold.length < d.size
  pd : paddedDecrypt d.mode dir = true → (m ≠ [] → 1 ≤ c.hold.length) ∧ c.hold.length ≤ d.size

/-- n whole blocks are n segments. -/
theorem segments_take_length {S n : Nat} (hS : 0 < S) {m : Bytes} (h : n * S ≤ m.length) : (segments S
    (m.take (n * S))).length = n := by
  apply segments_length_mul hS; simp [h]

/-- At STREAM_BEGIN. -/
theorem streamAfter_start (d : Driver) (hS : 0 < d.size) (dir) : StreamAfter d dir [] (streamStart d)
    [] := by
  refine ⟨⟨0, ?_, ?_, ?_, ?_, ?_, ?_⟩, ?_, ?_⟩ <;> simp [streamStart, run, hS]

/-- Across one update. -/
theorem streamAfter_step {d : Driver} (hS : 0 < d.size) {dir m c out} (h : StreamAfter d dir m c out)
    (x : Bytes) : StreamAfter d dir (m ++ x) (updateStep d dir c x).2 (out ++ (updateStep d dir c x).1)
    := by
  obtain ⟨⟨n, h1, h2, h3, h4, h5, h6⟩, hp, hq⟩ := h
  set b := c.hold ++ x with hb
  set k := blocksNow d.size d.mode dir b.length with hk
  have hkle : k * d.size ≤ b.length := blocksNow_le hS
  have hrest := blocksNow_rest (mode := d.mode) (dir := dir) (len := b.length) hS
  rw [← hk] at hrest
  have emx : m ++ x = m.take (n * d.size) ++ b := by rw [hb, h1, ← List.append_assoc, List.take_append_drop]
  have htl : (m.take (n * d.size)).length = n * d.size := by simp [h2]
  have hnk : (n + k) * d.size = n * d.size + k * d.size := Nat.add_mul _ _ _
  have et : (m ++ x).take ((n + k) * d.size) = m.take (n * d.size) ++ b.take (k * d.size) := by
    rw [emx, hnk, List.take_append, htl]
    rw [List.take_of_length_le (by rw [htl]; omega)]; congr 2; omega
  have ed : (m ++ x).drop ((n + k) * d.size) = b.drop (k * d.size) := by
    rw [emx, hnk, List.drop_append, htl, List.drop_of_length_le (by rw [htl]; omega)]; simp
  have es : segments d.size ((m ++ x).take ((n + k) * d.size)) = segments d.size (m.take (n * d.size))
      ++ segments d.size (b.take (k * d.size)) := by
    rw [et, segments_append hS _ _ (by rw [htl]; simp)]
  have hu : updateStep d dir c x = ((run d dir c.prev c.index (segments d.size (b.take (k *
      d.size)))).out, ⟨(run d dir c.prev c.index (segments d.size (b.take (k * d.size)))).prev, (run d
      dir c.prev c.index (segments d.size (b.take (k * d.size)))).index, b.drop (k * d.size)⟩) := by
    simp only [updateStep, slice_zero, slice_to_end]; rfl
  rw [hu]
  refine ⟨⟨n + k, ?_, ?_, ?_, ?_, ?_, ?_⟩, ?_, ?_⟩
  · exact ed.symm
  · rw [emx, List.length_append, htl]; omega
  · simp only; rw [es, run_append]; simp only; rw [h3, ← h4, ← h6]
  · simp only; rw [es, run_append]; simp only; rw [← h4, ← h6]
  · simp only; rw [run_index, segments_take_length hS hkle, h5]; simp [BitVec.ofNat_add]
  · simp only; rw [es, run_append]; simp only; rw [← h4, ← h6]
  · intro hh; have := hrest.1 hh; simp; omega
  · intro hh
    have := hrest.2 hh
    refine ⟨?_, by simp; omega⟩
    intro hne
    simp only [List.length_drop]
    apply this.1
    intro h0
    have hb0 : b = [] := by simpa using h0
    rw [hb] at hb0
    simp at hb0
    have hm : m ≠ [] := by rintro rfl; simp [hb0.2] at hne
    have := (hq hh).1 hm
    rw [hb0.1] at this; simp at this

/-- Across all updates of a stream. -/
theorem streamFrom_after {d : Driver} (hS : 0 < d.size) (dir fill) : ∀ (ms : List Bytes) m c out,
    StreamAfter d dir m c out →
    ∃ c' out', StreamAfter d dir (m ++ ms.flatten) c' (out ++ out') ∧ streamFrom d dir fill c ms =
        (out' ++ (finalStep d dir fill c').1, (finalStep d dir fill c').2) := by
  intro ms
  induction ms with
  | nil => intro m c out h; exact ⟨c, [], by simpa using h, by simp [streamFrom]⟩
  | cons x ms ih =>
    intro m c out h
    obtain ⟨c', out', h1, h2⟩ := ih _ _ _ (streamAfter_step hS h x)
    refine ⟨c', (updateStep d dir c x).1 ++ out', ?_, ?_⟩
    · simpa [List.append_assoc] using h1
    · simp only [streamFrom, h2, List.append_assoc]

/-- Whole blocks with less than a block left. -/
theorem blocks_and_rest {S n : Nat} (hS : 0 < S) {m : Bytes} (h : n * S ≤ m.length) (h2 : (m.drop (n *
    S)).length < S) : n = m.length / S ∧ (m.drop (n*S)).length = m.length % S := by
  simp at h2 ⊢
  have : n = m.length / S := by
    symm; apply Nat.div_eq_of_lt_le
    · exact h
    · rw [Nat.succ_mul]; omega
  refine ⟨this, ?_⟩
  have h1 := Nat.div_add_mod m.length S
  rw [this, Nat.mul_comm]; omega

/-- Padding acts on the last incomplete block. -/
theorem padApply_split {S n : Nat} (hS : 0 < S) {m : Bytes} {k fill} (h : n * S ≤ m.length) (h2 :
    (m.drop (n * S)).length < S) (hk : k ≠ .zeros) :
   padApply S k fill m = m.take (n * S) ++ padApply S k fill (m.drop (n * S)) := by
  have hl := (blocks_and_rest hS h h2).2
  have hp : padLength S (m.drop (n*S)).length = padLength S m.length := by
    unfold padLength; rw [hl]; simp
  have e : m = m.take (n*S) ++ m.drop (n*S) := by simp
  cases k with
  | zeros => exact absurd rfl hk
  | pkcs7 => simp only [padApply, padApplyPkcs7, hp]; rw [← List.append_assoc, ← e]
  | ansiX923 => simp only [padApply, padApplyX923, hp]; simp only [← List.append_assoc]; rw [← e]
  | iso10126 => simp only [padApply, padApplyIso, hp]; simp only [← List.append_assoc]; rw [← e]

/-- A context as CTX_INIT makes it gives a driver of the right sizes. -/
theorem Context.Ok.sized {P : Params} {ks c} (hc : Context.Ok P c) : (driverOf P ks c (c.delta.getD
    [])).Sized := driverOf_sized hc.ivBlock (by
    intro h; have := hc.deltaMode.mpr h
    cases hh : c.delta with
    | none => rw [hh] at this; cases this
    | some d => exact hc.deltaBlock d hh)

/-- An update gives n·S bytes and a chaining register of S bytes. -/
theorem updateStep_length {d : Driver} (hd : d.Sized) (dir) {p : Bytes} (hp : p.length = d.size) (i
    hold m) : (updateStep d dir ⟨p, i, hold⟩ m).1.length = blocksNow d.size d.mode dir (hold ++
    m).length * d.size ∧ (updateStep d dir ⟨p, i, hold⟩ m).2.prev.length = d.size := by
  simp only [updateStep, slice_zero]
  have hle := blocksNow_le (mode := d.mode) (dir := dir) (len := (hold ++ m).length) hd.pos
  have := run_segments_length hd dir p i ((hold ++ m).take (blocksNow d.size d.mode dir (hold ++ m).length * d.size)) hp (fun _ => by rw [List.length_take, Nat.min_eq_left hle]; simp)
  rw [this.1]
  exact ⟨by rw [List.length_take, Nat.min_eq_left hle], this.2⟩

/-- DecMsg is no longer than its input. -/
theorem decMsg_length_le {P : Params} {ks c delta} (m : Bytes) (hm : padded c.mode = true → m.length %
    P.S = 0) : (decMsg (driverOf P ks c delta) m).1.length ≤ m.length := by
  have hS := P.S_pos
  have hr := run_length_le P ks c delta .dec (segments P.S m) c.iv 0 (fun h => segments_blocks hS m (hm h))
  rw [segments_flatten hS] at hr
  simp only [decMsg, driverOf_mode, driverOf_size, driverOf_pad, driverOf_iv]
  by_cases hp : padded c.mode = true
  · simp only [hp, if_true]
    have : ∀ p : Bytes, (padRemove P.S c.pad p).length ≤ p.length := by
      intro p
      unfold padRemove
      split
      · simp
      · have h1 : ∀ b : Bytes, (removeLast P.S c.pad b).length ≤ b.length := by
          intro b
          cases c.pad <;> simp only [removeLast, removeLastZeros, removeLastPkcs7, removeLastX923,
              removeLastIso]
          · simp [slice]
          · split <;> simp [slice]
          · split <;> simp [slice]
          · split <;> simp [slice]
        have h2 := h1 (slice p (p.length - P.S) p.length)
        rw [slice_to_end] at h2 ⊢
        simp only [List.length_append, slice_zero, List.length_take, List.length_drop] at h2 ⊢
        omega
    exact Nat.le_trans (this _) hr
  · simp only [hp]; exact hr

end Sys2Proof.Machine
end

