-- ==== Sys2Proof/Laws/Transfer.lean ====
section
/-! SUPPORT. Everything the DMA transfer of a data command can do: its frame, its completion, its confinement, and the invariant across it (43_commands.md R334-R339). -/

namespace Sys2Proof.Machine

/-- The part of the state that the body of a data command may write. -/
def BodyFrame (body : Bytes → State → Bytes × State) : Prop :=
  ∀ x s1, ∃ pv bi h so f, (body x s1).2 =
    { s1 with prev := pv, blkIdx := bi, hold := h, streamOpen := so, free := f }

theorem encryptBody_frame (P d) : BodyFrame (encryptBody P d) := fun _ s1 => ⟨s1.prev, _, s1.hold,
    s1.streamOpen, _, rfl⟩

theorem decryptBody_frame (d) : BodyFrame (decryptBody d) := fun _ s1 => ⟨s1.prev, _, s1.hold,
    s1.streamOpen, s1.free, rfl⟩

theorem updateBody_frame (d c) : BodyFrame (updateBody d c) := fun _ s1 => ⟨_, _, _, s1.streamOpen,
    s1.free, rfl⟩

theorem finalBody_frame (P d c) : BodyFrame (fun _ s1 => finalBody P d c s1) := fun _ _ => ⟨_, _, _,
    _, _, rfl⟩

/-- What a transfer that answers next leaves. -/
theorem transfer_frame {P : Params} {l : Latch} {count wlen : Nat} {body} {s t : State}
    (hb : BodyFrame body) (h : transfer P l count wlen body s = .next t) :
    (∃ a, t = busError P l wlen { s with busAnswers := a }) ∨
    (∃ x s1, ∃ a bi pv hd so f n,
      s1 = (body x { s with busAnswers := a }).2 ∧
      t = { s with
        mem := s.mem.writeRange l.dstAddr.toNat
          ((body x { s with busAnswers := a }).1
            ++ freeBytes P s1.free (wlen - (body x { s with busAnswers := a }).1.length))
        prev := pv, blkIdx := bi, hold := hd, streamOpen := so, free := f, busAnswers := a
        ecode := .none, err := false, outLen := n, done := true, pending := none }) := by
  obtain ⟨a, ha⟩ := rangesAnswered_frame s count wlen
  rcases transfer_next h with ⟨_, h⟩ | ⟨_, work, hw, ht⟩
  · exact .inl ⟨a, by rw [h, ha]⟩
  · right
    rw [ha] at hw
    obtain ⟨pv, bi, hd, so, f, hs⟩ := hb (s.mem.readRange l.srcAddr.toNat count) { s with busAnswers := a }
    refine ⟨s.mem.readRange l.srcAddr.toNat count, work.2, a, bi, pv, hd, so, work.2.free + (wlen -
        work.1.length), BitVec.ofNat 32 work.1.length, by rw [hw], ?_⟩
    subst hw
    rw [ht]
    simp only [complete, writeOutput]
    rw [hs]
    rfl

/-- A range read has its length. -/
theorem readRange_length (m : Memory) (a n) : (m.readRange a n).length = n := by simp [Memory.readRange]

/-- The output stands at the start of the write range. -/
theorem read_writeRange_prefix {m : Memory} (hm : m.wf = true) (a : Nat) (out rest : Bytes) (k : Nat)
    (h : k < out.length) : (m.writeRange a (out ++ rest)).read (a + k) = out[k] := by
  rw [Memory.read_writeRange_inside hm (by simp; omega)]
  rw [List.getElem_append_left h]

/-- A transfer whose accesses are admitted completes. -/
theorem transfer_completes {P : Params} {l : Latch} {count wlen} {body : Bytes → State → Bytes × State}
    {s : State} (hm : s.mem.wf = true) (ha : Admits s) (hb : BodyFrame body) (out : Bytes)
   (ho : ∀ s0 : State, s0.mem = s.mem → s0.free = s.free → s0.streamDir = s.streamDir → (body
       (s.mem.readRange l.srcAddr.toNat count) s0).1 = out) (hle : out.length ≤ wlen) :
   ∃ a0 a1, ∃ t, transfer P l count wlen body s = .next t ∧
     t = { (body (s.mem.readRange l.srcAddr.toNat count) { s with busAnswers := a0 }).2 with
       mem := t.mem, busAnswers := a1, outLen := BitVec.ofNat 32 out.length, ecode := .none, err :=
           false, done := true, pending := none, free := (body (s.mem.readRange l.srcAddr.toNat count)
           { s with busAnswers := a0 }).2.free + (wlen - out.length) } ∧
     (∀ k (h : k < out.length), t.mem.read (l.dstAddr.toNat + k) = out[k]) ∧
     (∀ a, Range.has ⟨l.dstAddr.toNat, wlen⟩ a = false → t.mem.read a = s.mem.read a) := by
  have hbm : ∀ x s1, (body x s1).2.mem = s1.mem := by
    intro x s1; obtain ⟨_, _, _, _, _, h⟩ := hb x s1; rw [h]
  have hba : ∀ x s1, (body x s1).2.busAnswers = s1.busAnswers := by
    intro x s1; obtain ⟨_, _, _, _, _, h⟩ := hb x s1; rw [h]
  obtain ⟨a0, ha0⟩ := rangesAnswered_frame s count wlen
  rw [transfer_admitted (ha.rangesAnswer count wlen), ha0]
  have ho1 := ho { s with busAnswers := a0 } rfl rfl rfl
  refine ⟨a0, a0, _, rfl, ?_, ?_, ?_⟩
  · rw [ho1]; simp only [complete, writeOutput]
    have := hba (s.mem.readRange l.srcAddr.toNat count) { s with busAnswers := a0 }
    simp only at this
    rw [this]
    rfl
  · intro k h
    simp only [complete_mem, writeOutput_mem, ho1, hbm]
    exact read_writeRange_prefix hm _ _ _ k h
  · intro a h
    simp only [complete_mem, writeOutput_mem, ho1, hbm]
    apply Memory.read_writeRange_outside
    rw [range_has_false] at h
    simp only at h
    simp only [List.length_append, freeBytes_length]; omega

/-- A transfer changes no byte outside its write range. -/
theorem transfer_confined {P : Params} {l : Latch} {count wlen : Nat} {body} {s t : State} (hb :
    BodyFrame body) (hle : ∀ a, (body (s.mem.readRange l.srcAddr.toNat count) { s with busAnswers := a
    }).1.length ≤ wlen)
   (h : transfer P l count wlen body s = .next t) (a : Nat) (ha : Range.has ⟨l.dstAddr.toNat, wlen⟩ a =
       false) : t.mem.read a = s.mem.read a := by
  rw [range_has_false] at ha
  simp only at ha
  obtain ⟨a0, ha0⟩ := rangesAnswered_frame s count wlen
  rcases transfer_next h with ⟨_, rfl⟩ | ⟨_, work, hw, rfl⟩
  · rw [busError_eq, rangesAnswered_mem]
    apply Memory.read_writeRange_outside
    simp only [freeBytes_length]; omega
  · rw [ha0] at hw
    have hl := hle a0
    obtain ⟨_, _, _, _, _, hs⟩ := hb (s.mem.readRange l.srcAddr.toNat count) { s with busAnswers := a0 }
    have : work.2.mem = s.mem := by rw [hw, hs]
    simp only [complete_mem, writeOutput_mem, this]
    apply Memory.read_writeRange_outside
    rw [← hw] at hl
    simp only [List.length_append, freeBytes_length]; omega

/-- The final step gives at most FINAL_BOUND bytes. -/
theorem finalStep_length {P : Params} {ks c} (hok : Context.Ok P c) (s : State) (fill) {p : Bytes} (hp
    : p.length = P.S) (hh : HoldOk P c s) (hlenok : finalLengthFails P c s = false) : (finalStep
    (driverOf P ks c (c.delta.getD [])) s.streamDir fill ⟨p, s.blkIdx, s.hold⟩).1.length ≤ finalBound P
    c s ∧ (paddedDecrypt c.mode s.streamDir = false → (finalStep (driverOf P ks c (c.delta.getD []))
    s.streamDir fill ⟨p, s.blkIdx, s.hold⟩).1.length = finalBound P c s) := by
  have hs := Context.Ok.sized (ks := ks) hok
  set d := driverOf P ks c (c.delta.getD []) with hd
  have hS := P.S_pos
  have hmode : d.mode = c.mode := rfl
  have hpad : d.pad = c.pad := rfl
  have hsz : d.size = P.S := rfl
  unfold HoldOk at hh
  by_cases hpd : paddedDecrypt c.mode s.streamDir = true
  · refine ⟨?_, fun h => by rw [hpd] at h; cases h⟩
    simp only [finalStep, hmode, hpd, if_true]
    have hpm : padded c.mode = true ∧ s.streamDir = .dec := by simpa [paddedDecrypt] using hpd
    have hfb : finalBound P c s = s.hold.length := by simp [finalBound, hpm.2]
    split
    · simp
    · rename_i hne
      have hhl : s.hold.length = P.S := by
        have := hlenok
        rw [← Bool.not_eq_true, finalLengthFails_iff] at this
        have h0 : s.hold.length ≠ 0 := by simpa using hne
        by_contra h1; exact this ⟨hpm, h0, h1⟩
      have := (run_segments_length hs .dec p s.blkIdx s.hold hp (fun _ => by rw [hhl, hsz]; simp)).1
      rw [segments_single hne (by rw [hhl, hsz])] at this
      obtain ⟨t, ht, h⟩ := removeLast_prefix d.pad (b := (run d .dec p s.blkIdx [s.hold]).out) (S :=
          P.S) (by rw [this, hhl])
      simp only
      rw [hsz, h, hfb]; simp; omega
  · have hpd' : paddedDecrypt c.mode s.streamDir = false := by simpa using hpd
    rw [if_neg hpd] at hh
    suffices h : (finalStep d s.streamDir fill ⟨p, s.blkIdx, s.hold⟩).1.length = finalBound P c s from
        ⟨by omega, fun _ => h⟩
    simp only [finalStep, hmode, hpd', Bool.false_eq_true, if_false]
    by_cases hp' : padded c.mode = true
    · have hdir : s.streamDir = .enc := by
        cases hd : s.streamDir with
        | enc => rfl
        | dec => rw [hd] at hpd'; simp [paddedDecrypt, hp'] at hpd'
      simp only [hp', if_true, finalBound, hdir, true_and]
      have hft : (finalTail d fill ⟨p, s.blkIdx, s.hold⟩).length = if c.pad = .zeros ∧ s.hold = [] ∧
          s.blkIdx ≠ 0 then 0 else P.S := by
        unfold finalTail
        simp only [hpad, hsz]
        by_cases hz : c.pad = .zeros
        · simp only [hz, if_true, true_and]
          by_cases h0 : s.hold = []
          · by_cases hb : s.blkIdx = 0#64 <;> simp [h0, hb]
          · simp [h0]; omega
        · simp only [hz, if_false, false_and]
          rw [padApply_length hS]
          cases hk : c.pad <;> simp [paddedLength] <;> first | exact absurd hk hz | (rw [Nat.div_eq_of_lt hh]; simp)
      rw [(run_segments_length hs .enc p s.blkIdx _ hp (fun _ => by rw [hft]; split <;> simp [hsz])).1, hft]
    · simp only [hp']
      have hfb : finalBound P c s = s.hold.length := by simp [finalBound, hp']
      rw [hfb]
      have h1 : segments d.size s.hold = if s.hold = [] then [] else [s.hold] := by
        split
        · rename_i h; rw [h]; simp
        · exact segments_single ‹_› (by rw [hsz]; omega)
      have := (run_segments_length hs s.streamDir p s.blkIdx s.hold hp (fun h => absurd h hp')).1
      rw [h1] at this
      simpa using this

/-- Completion keeps the invariant. -/
theorem complete_keeps_inv {P : Params} {s : State} (code n) (h : s.Inv P) : (complete code n s).Inv P :=
  ⟨h.memForm, h.memSpace, rfl, fun hh => by simp at hh, h.context, h.openStream, h.closedStream⟩

/-- So does a transfer whose body keeps the stream part. -/
theorem transfer_keeps_inv {P : Params} {l : Latch} {count wlen : Nat} {body} {s t : State} (hi : s.Inv
    P) (hb : BodyFrame body) (hle : ∀ a, (body (s.mem.readRange l.srcAddr.toNat count) { s with
    busAnswers := a }).1.length ≤ wlen)
   (hr : wlen = 0 ∨ l.dstAddr.toNat + wlen ≤ addressLimit)
   (hbo : ∀ a, let s2 := (body (s.mem.readRange l.srcAddr.toNat count) { s with busAnswers := a }).2
     (s2.streamOpen = true → ∃ c p, s2.ctx = some c ∧ s2.ks.isSome = true ∧ s2.prev = some p ∧ p.length
         = P.S ∧ HoldOk P c s2) ∧ (s2.streamOpen = false → s2.prev = none ∧ s2.hold = []))
   (h : transfer P l count wlen body s = .next t) : t.Inv P := by
  obtain ⟨a0, ha0⟩ := rangesAnswered_frame s count wlen
  rcases transfer_next h with ⟨_, rfl⟩ | ⟨_, work, hw, rfl⟩
  · rw [ha0, busError_eq]
    refine ⟨Memory.writeRange_wf _ _ hi.memForm, ?_, rfl, fun hh => by simp at hh, hi.context, fun hh
        => by simp at hh, ?_⟩
    · apply Memory.writeRange_inSpace _ hi.memSpace
      rcases hr with hr | hr
      · left; rw [hr]; rfl
      · right; simpa using hr
    · intro _
      cases ho : s.streamOpen with
      | true => simp
      | false => simpa using hi.closedStream ho
  · rw [ha0] at hw
    have hl := hle a0
    have hbo := hbo a0
    obtain ⟨pv, bi, hd, so, f, hs⟩ := hb (s.mem.readRange l.srcAddr.toNat count) { s with busAnswers := a0 }
    rw [← hw] at hl hbo hs
    have : work.2.mem = s.mem := by rw [hs]
    have hctx : work.2.ctx = s.ctx := by rw [hs]
    refine ⟨?_, ?_, rfl, fun hh => by simp at hh, ?_, ?_, ?_⟩
    · simp only [complete_mem, writeOutput_mem, this]
      exact Memory.writeRange_wf _ _ hi.memForm
    · simp only [complete_mem, writeOutput_mem, this]
      apply Memory.writeRange_inSpace _ hi.memSpace
      rcases hr with hr | hr
      · left; rw [hr] at hl ⊢
        have : work.1 = [] := by simpa using hl
        rw [this]; rfl
      · right; simp only [List.length_append, freeBytes_length]; omega
    · intro c hc; apply hi.context c; simpa [hctx] using hc
    · intro ho
      simp only [complete_streamOpen, writeOutput_streamOpen] at ho
      obtain ⟨c, p, h1, h2, h3, h4, h5⟩ := hbo.1 ho
      refine ⟨c, p, by simpa using h1, by simpa using h2, by simpa using h3, h4, ?_⟩
      unfold HoldOk at h5 ⊢
      exact h5
    · intro ho
      simp only [complete_streamOpen, writeOutput_streamOpen] at ho
      simpa using hbo.2 ho

/-- The state with another memory. -/
def withMem (s : State) (m : Memory) : State := { s with mem := m }

/-- A transfer over another memory with the same source bytes. -/
theorem transfer_other_memory {P : Params} {l : Latch} {count wlen : Nat} {body : Bytes → State → Bytes
    × State} {s t : State} {m : Memory} (hm : s.mem.wf = true) (hm' : m.wf = true)
   (hb : ∀ x s1 m, body x (withMem s1 m) = ((body x s1).1, withMem (body x s1).2 m)) (hmem : ∀ x s1,
       (body x s1).2.mem = s1.mem)
   (hr : m.readRange l.srcAddr.toNat count = s.mem.readRange l.srcAddr.toNat count)
   (h : transfer P l count wlen body s = .next t) : ∃ m', transfer P l count wlen body (withMem s m) =
       .next (withMem t m') ∧ ∀ a, Range.has ⟨l.dstAddr.toNat, wlen⟩ a = true → m'.read a = t.mem.read
       a := by
  have na : ∀ s1, rangesAnswer (withMem s1 m) count wlen = rangesAnswer s1 count wlen := by
    intro s1; unfold rangesAnswer State.answered; split <;> rfl
  have an : ∀ s1, (withMem s1 m).rangesAnswered count wlen
      = withMem (s1.rangesAnswered count wlen) m := by
    intro s1; unfold State.rangesAnswered State.answered; split <;> split <;> rfl
  have wmm : ∀ s1, (withMem s1 m).mem = m := fun _ => rfl
  have wmf : ∀ s1, (withMem s1 m).free = s1.free := fun _ => rfl
  have key : ∀ x : Bytes, wlen ≤ x.length → ∀ a, Range.has ⟨l.dstAddr.toNat, wlen⟩ a = true →
      (m.writeRange l.dstAddr.toNat x).read a = (s.mem.writeRange l.dstAddr.toNat x).read a := by
    intro x hx a ha
    rw [range_has] at ha
    simp only at ha
    obtain ⟨k, rfl⟩ : ∃ k, a = l.dstAddr.toNat + k := ⟨a - l.dstAddr.toNat, by omega⟩
    rw [Memory.read_writeRange_inside hm' (by omega), Memory.read_writeRange_inside hm (by omega)]
  rcases transfer_next h with ⟨hr', rfl⟩ | ⟨hr', work, hw, rfl⟩
  · rw [transfer_refused (by rw [na]; exact hr'), an]
    refine ⟨(busError P l wlen (withMem (s.rangesAnswered count wlen) m)).mem, ?_, ?_⟩
    · simp only [busError_eq]; rfl
    · intro a ha
      simp only [busError_mem, wmm, wmf, rangesAnswered_mem, rangesAnswered_free]
      exact key _ (by simp) a ha
  · rw [transfer_admitted (by rw [na]; exact hr'), an, wmm, hr, hb, ← hw]
    refine ⟨(writeOutput P l wlen work.1 (withMem work.2 m)).mem, rfl, ?_⟩
    intro a ha
    have hm2 : work.2.mem = s.mem := by rw [hw, hmem, rangesAnswered_mem]
    simp only [complete_mem, writeOutput_mem, wmm, wmf, hm2]
    apply key _ _ a ha
    simp only [List.length_append, freeBytes_length]; omega

end Sys2Proof.Machine
end

