-- ==== Sys2Proof/Tests/Slice0.lean ====
section
/-! SUPPORT. Tests, and one witness for the hypotheses of every statement. Expected values are those of
95_test_vectors.md (named beside each test) or of the encoding tables of 30_encoding.md, never the model's
own answers. -/

namespace Sys2Proof.Tests

open Sys2Proof Sys2Proof.Machine

/-! ### The test cipher and small states -/

/-- TOY8 (95_test_vectors.md section 0), with S = 8. -/
def toy : Params where
  sizeIndex := 1
  setKey k := if k.length = 8 then some k else none
  encRaw k x := (xorBytes x k).drop 1 ++ (xorBytes x k).take 1
  decRaw k y := xorBytes (y.drop 7 ++ y.take 7) k
  freeByte t := BitVec.ofNat 8 (t + 1)
  freeIndex _ := 0
  mmioBase := 0
  extraLanes := 1
  extraChunkBlocks := 0
  streamChunk := 16
  directThreshold := 0

/-- `"12345678"`. -/
def keyA : Bytes := [0x31, 0x32, 0x33, 0x34, 0x35, 0x36, 0x37, 0x38]

/-- `IV` of section 0. -/
def ivA : Bytes := [0xa0, 0xa1, 0xa2, 0xa3, 0xa4, 0xa5, 0xa6, 0xa7]

/-- `p0` of section 0. -/
def p0 : Bytes := [0x41, 0x42, 0x43, 0x44, 0x45, 0x46, 0x47, 0x48]

/-- `p1` of section 0. -/
def p1 : Bytes := [0x49, 0x4a, 0x4b, 0x4c, 0x4d, 0x4e, 0x4f, 0x50]

/-- `delta` of section 0. -/
def deltaA : Bytes := List.replicate 8 0x0f

/-- A window whose first bytes are written. -/
def windowOf (n : Nat) (x : Bytes) : Window n := Vector.ofFn fun i => x[i.val]?

/-- A context with IV and delta. -/
def contextA (m : Mode) (p : PaddingKind) : Context :=
  ⟨m, p, m != .ecb, if m = .ecb then zeros 8 else ivA, if m = .randomDelta then some deltaA else none⟩

/-- A session under TOY8: key, context, staged windows and operands, idle. -/
def session (m : Mode) (p : PaddingKind) (len cap : Word) (x : Bytes) : State :=
  { State.reset with
    ctx := some (contextA m p), ks := some keyA, iv := windowOf 32 ivA, ivLen := 8
    key := windowOf 64 keyA, keyLen := 8
    srcAddr := 0x1000, srcLen := len, dstAddr := 0x2000, dstCap := cap
    mem := Memory.writeRange [] 0x1000 x }

/-- An open stream. -/
def streaming (d : Direction) (prev hold : Bytes) (i : BitVec 64) (s : State) : State :=
  { s with streamOpen := true, streamDir := d, prev := some prev, hold := hold, blkIdx := i }

/-- The state a result is about, or the reset state. -/
def stateOf : Result → State
  | .next s => s
  | .fault _ => State.reset
  | .refused _ => State.reset

/-- The output at 0x2000, as long as OUT_LEN says. -/
def outputOf (r : Result) : Bytes := (stateOf r).mem.readRange 0x2000 (stateOf r).outLen.toNat

/-- The driver of a session. -/
def driverA (m : Mode) (p : PaddingKind) : Driver :=
  driverOf toy keyA (contextA m p) deltaA

/-! ### Well-formedness and decoding -/

/-- MODE = 7 is no mode (30_encoding.md R143), and its word is refused (R146). -/
theorem test_wellFormed_refuses_mode_seven :
    (Instr.ctxInit 7 .zeros).wellFormed = false ∧
      decode (encode (.ctxInit 7 .zeros)) = .error .reservedMode := by decide

theorem test_wellFormed_accepts_mode_six : (Instr.ctxInit 6 .iso10126).wellFormed = true := by decide

/-- `OP | MODE<<8 | PAD<<12`, bit by bit: 0000 0000 0000 0000 0011 0110 0000 0001. -/
theorem test_decode_ctxInit :
    decode 0b00000000000000000011011000000001#32 = .ok (.ctxInit 6 .iso10126) := by decide

/-- DIR is bit 16: 0000 0000 0000 0001 0000 0000 0010 0000. -/
theorem test_decode_streamBegin :
    decode 0b00000000000000010000000000100000#32 = .ok (.streamBegin .dec) := by decide

/-- The words of 30_encoding.md R141 without fields. -/
theorem test_decode_plain_words :
    [0x00, 0x02, 0x03, 0x10, 0x11, 0x21, 0x22].map (fun w => decodeTableWord 32 w) =
      [some .nop, some .ctxClear, some .setKey, some .encrypt, some .decrypt, some .streamUpdate,
        some .streamFinal] := by decide

/-- The BAD_CMD words of 95_test_vectors.md 2.10, and a PAD field on STREAM_BEGIN. -/
theorem test_decode_illegal_words :
    [0x00000100, 0x00000004, 0x00000701, 0x00000811, 0x00001020, 0x00020020, 0x00010001].map
      (fun w => decodeTableWord 32 w) = [none, none, none, none, none, none, none] := by decide

/-! ### Padding (95_test_vectors.md 2.1 and 2.2) -/

theorem test_padApply_three_bytes :
    padApply 8 .pkcs7 toy.freeByte [0x41, 0x42, 0x43] = [0x41, 0x42, 0x43, 5, 5, 5, 5, 5] ∧
    padApply 8 .ansiX923 toy.freeByte [0x41, 0x42, 0x43] = [0x41, 0x42, 0x43, 0, 0, 0, 0, 5] ∧
    padApply 8 .iso10126 toy.freeByte [0x41, 0x42, 0x43] = [0x41, 0x42, 0x43, 1, 2, 3, 4, 5] ∧
    padApply 8 .zeros toy.freeByte [0x41, 0x42, 0x43] = [0x41, 0x42, 0x43, 0, 0, 0, 0, 0] := by
  decide

theorem test_padApply_whole_block :
    padApply 8 .pkcs7 toy.freeByte p0 = p0 ++ List.replicate 8 8 ∧
    padApply 8 .zeros toy.freeByte p0 = p0 ∧
    padApply 8 .zeros toy.freeByte [] = List.replicate 8 0 := by decide

theorem test_padRemove_mismatch :
    removeLast 8 .pkcs7 [0x41, 0x42, 0x43, 5, 5, 4, 5, 5] = [0x41, 0x42, 0x43, 5, 5, 4, 5, 5] ∧
    removeLast 8 .ansiX923 [0x41, 0x42, 0x43, 0, 7, 0, 0, 5] = [0x41, 0x42, 0x43, 0, 7, 0, 0, 5] ∧
    removeLast 8 .iso10126 [0x41, 0x42, 0x43, 0x9a, 0x17, 0, 0xff, 5] = [0x41, 0x42, 0x43] ∧
    removeLast 8 .pkcs7 [0x41, 0x42, 0x43, 0x44, 0x45, 0x46, 0x47, 9]
      = [0x41, 0x42, 0x43, 0x44, 0x45, 0x46, 0x47, 9] := by decide

theorem test_padRemove_zeros :
    removeLast 8 .zeros [0x41, 0, 0x43, 0, 0, 0, 0, 0] = [0x41, 0, 0x43] ∧
    padRemove 8 .zeros (List.replicate 16 0) = List.replicate 8 0 := by decide

/-! ### Block steps and counters (95_test_vectors.md 2.3, 2.4 and 2.5) -/

/-- The second block, and st.PREV after it, of PCBC, OFB and RandomDelta. -/
theorem test_run_chaining :
    ((run (driverA .pcbc .pkcs7) .enc ivA 0 [p0, p1]).out.drop 8,
      (run (driverA .pcbc .pkcs7) .enc ivA 0 [p0, p1]).prev) =
      ([0xe8, 0xe8, 0xe8, 0xe8, 0xe8, 0xe8, 0xf0, 0xe8],
        [0xa1, 0xa2, 0xa3, 0xa4, 0xa5, 0xa6, 0xbf, 0xb8]) ∧
    ((run (driverA .ofb .pkcs7) .enc ivA 0 [p0, p1]).out.drop 8,
      (run (driverA .ofb .pkcs7) .enc ivA 0 [p0, p1]).prev) =
      ([0xea, 0xee, 0xee, 0xea, 0xea, 0xe6, 0xe6, 0xf2],
        [0xa3, 0xa4, 0xa5, 0xa6, 0xa7, 0xa8, 0xa9, 0xa2]) ∧
    ((run (driverA .randomDelta .pkcs7) .enc ivA 0 [p0, p1]).out.drop 8,
      (run (driverA .randomDelta .pkcs7) .enc ivA 0 [p0, p1]).prev) =
      ([0xd6, 0xd5, 0xd4, 0xd3, 0xd2, 0xd1, 0xc0, 0xd7],
        [0xa0, 0xa1, 0xa2, 0xa3, 0xa4, 0xa5, 0xa6, 0xa7]) := by decide

/-- A last segment of three bytes in CFB and CTR. -/
theorem test_run_partial_segment :
    (run (driverA .cfb .pkcs7) .enc ivA 0 [p0, [0x58, 0x59, 0x5a]]).out.drop 8 = [0xb9, 0xbe, 0xbb] ∧
    (run (driverA .ctr .pkcs7) .enc ivA 0 [p0, [0x58, 0x59, 0x5a]]).out.drop 8 = [0xcb, 0xc8, 0xcd] := by
  decide

theorem test_counterBlock :
    counterBlock (driverA .ctr .zeros) 256 = [0xa0, 0xa1, 0xa2, 0xa3, 0xa4, 0xa5, 0xa7, 0xa7] ∧
    counterBlock { driverA .ctr .zeros with iv := List.replicate 8 0xff } 1 = List.replicate 8 0 ∧
    counterBlock { driverA .ctr .zeros with iv := zeros 8 } (2 ^ 64) = List.replicate 8 0 := by decide

/-! ### One step of each instruction -/

/-- NOP after reset, then IRQ_EN = 1 (95_test_vectors.md 2.11). -/
theorem test_nop_sets_done :
    statusWord (stateOf (execNop (accept State.reset 0))) = 0x00000002 ∧
    (writeReg (stateOf (execNop (accept State.reset 0))) .irqEn 1).irq = true := by decide

/-- CTX_INIT CBC/PKCS7 with IVLEN = 8 after SET_KEY (95_test_vectors.md 2.11). -/
theorem test_ctxInit_latches_iv :
    let t := stateOf (ctxInitWith toy 1 .pkcs7
      (accept { session .cbc .pkcs7 0 0 [] with ctx := none } 0x00001101))
    statusWord t = 0x00030002 ∧ ctxCfgWord t = 0x00000111 ∧ t.ctx = some (contextA .cbc .pkcs7) := by
  decide

/-- CTX_INIT on a valid context inside P3's stream (95_test_vectors.md P3): CTX_LOCKED. -/
theorem test_ctxInit_locked :
    statusWord (stateOf (ctxInitWith toy 1 .pkcs7
      (accept (streaming .enc ivA [] 0 (session .cbc .pkcs7 0 0 [])) 0x00001101))) = 0x00070036 := by
  decide

/-- CTX_CLEAR ends P3's stream and keeps the key (95_test_vectors.md P3). -/
theorem test_ctxClear_keeps_key :
    let t := stateOf (execCtxClear (accept (streaming .dec ivA p0 3 (session .cbc .pkcs7 0 0 [])) 2))
    statusWord t = 0x00020002 ∧ ctxCfgWord t = 0 ∧ t.hold = [] ∧ t.blkIdx = 3 := by decide

/-- SET_KEY "12345678" after reset (95_test_vectors.md 2.11). -/
theorem test_setKey_installs :
    statusWord (stateOf (setKeyWith toy
      (accept { session .cbc .pkcs7 0 0 [] with ctx := none, ks := none } 3))) = 0x00020002 := by decide

/-- A failed re-key with KEYLEN = 5 (95_test_vectors.md V-L1-10). -/
theorem test_setKey_failed_keeps_key :
    let t := stateOf (setKeyWith toy (accept { session .cbc .pkcs7 0 0 [] with ctx := none, keyLen := 5 } 3))
    statusWord t = 0x00020066 ∧ t.ks = some keyA := by decide

/-- ENCRYPT of p0 under CBC/PKCS7 (95_test_vectors.md V-L1-4). -/
theorem test_encrypt_cbc :
    let r := encryptWith toy (accept (session .cbc .pkcs7 8 16 p0) 0x10)
    outputOf r = [0xd1, 0xd2, 0xd3, 0xd4, 0xd5, 0xd6, 0xd7, 0xd0,
      0xe8, 0xe8, 0xe8, 0xe8, 0xe8, 0xe8, 0xe0, 0xe8] ∧ (stateOf r).blkIdx = 2 := by decide

/-- ENCRYPT with L = 0 and DST_CAP = 7: CAPACITY (95_test_vectors.md 2.10). -/
theorem test_encrypt_capacity :
    (stateOf (encryptWith toy (accept (session .cbc .pkcs7 0 7 []) 0x10))).ecode = .capacity := by decide

/-- DECRYPT of a lone full padding block (95_test_vectors.md V-L1-8): OUT_LEN = 0. -/
theorem test_decrypt_collapse :
    let t := stateOf (decryptWith toy
      (accept (session .cbc .pkcs7 8 8 [0x9b, 0x99, 0x9f, 0x99, 0x9b, 0x99, 0x97, 0x99]) 0x11))
    t.ecode = .none ∧ t.outLen = 0 ∧ t.blkIdx = 1 := by decide

/-- The same with a write range that has side effects: refused, though no output byte is left (20_memory.md
R105). -/
theorem test_decrypt_collapse_sideEffects :
    (match decryptWith toy { accept (session .cbc .pkcs7 8 8
        [0x9b, 0x99, 0x9f, 0x99, 0x9b, 0x99, 0x97, 0x99]) 0x11 with busAnswers := [.admits, .sideEffects] } with
      | .refused r => r == .sideEffectMemory
      | .next _ => false
      | .fault _ => false) = true := by decide

/-- DECRYPT of ff×8 returns the block unchanged (95_test_vectors.md P3). -/
theorem test_decrypt_garbage :
    outputOf (decryptWith toy (accept (session .cbc .pkcs7 8 8 (List.replicate 8 0xff)) 0x11)) =
      [0x6e, 0x6c, 0x6e, 0x68, 0x6e, 0x6c, 0x6e, 0x60] := by decide

/-- STREAM_BEGIN DEC (95_test_vectors.md 2.11). -/
theorem test_streamBegin_dec :
    statusWord (stateOf (execStreamBegin .dec (accept (session .cbc .pkcs7 0 0 []) 0x00010020)))
      = 0x000F0002 := by decide

/-- The second update of a padded-decrypt stream (95_test_vectors.md P5): one block out, one withheld. -/
theorem test_streamUpdate_withholds :
    let r := streamUpdateWith toy (accept (streaming .dec ivA
      [0xf6, 0xfd, 0xfb, 0xfe, 0xbf, 0xb1, 0xe8, 0xd9] 0 (session .cbc .pkcs7 8 16
      [0xbd, 0xa4, 0xae, 0xab, 0x8d, 0xdd, 0xe3, 0xa8])) 0x21)
    outputOf r = [0x48, 0x65, 0x6c, 0x6c, 0x6f, 0x2c, 0x20, 0x77] ∧
      (stateOf r).hold.length = 8 ∧ (stateOf r).blkIdx = 1 := by decide

/-- P5's STREAM_FINAL: the last six bytes (95_test_vectors.md P5). -/
theorem test_streamFinal_strips :
    let r := streamFinalWith toy (accept (streaming .dec
      [0xf6, 0xfd, 0xfb, 0xfe, 0xbf, 0xb1, 0xe8, 0xd9]
      [0xbd, 0xa4, 0xae, 0xab, 0x8d, 0xdd, 0xe3, 0xa8] 1 (session .cbc .pkcs7 0 8 [])) 0x22)
    outputOf r = [0x6f, 0x72, 0x6c, 0x64, 0x21, 0x0a] ∧ statusWord (stateOf r) = 0x00030002 ∧
      (stateOf r).blkIdx = 2 := by decide

/-- STREAM_FINAL with three bytes withheld: LENGTH, and the stream stays open (95_test_vectors.md 2.8). -/
theorem test_streamFinal_length :
    let t := stateOf (streamFinalWith toy
      (accept (streaming .dec ivA [1, 2, 3] 1 (session .cbc .pkcs7 0 8 [])) 0x22))
    statusWord t = 0x000F0096 ∧ t.hold.length = 3 ∧ t.blkIdx = 1 := by decide

/-- The step after placing ENCRYPT at reset performs it: NO_CONTEXT (95_test_vectors.md 2.10). -/
theorem test_step_performs_placed_word :
    (stateOf (step (State.reset.withFetchWord 32 0x10))).ecode = .noContext := by decide

theorem test_reset_memory_wf : State.reset.mem.wf = true := by decide

/-! ### Witnesses: for every statement with hypotheses, states and operands that meet them together -/

/-- A chip context that uses neither IV nor padding: CFB with the zero block. -/
def cfbContext : Context := ⟨.cfb, .zeros, false, zeros Config.chip.S, none⟩

theorem cfbContext_ok : cfbContext.Ok Config.chip where
  ivBlock := by simp [cfbContext, zeros, rep]
  deltaBlock := by simp [cfbContext]
  deltaMode := by simp [cfbContext]
  noIv _ := rfl
  ecbNoIv h := by simp [cfbContext] at h

/-- The chip with a context, a key schedule, three source bytes and the word `w` in flight. -/
def busy (w : Word) : State :=
  accept { State.reset with
    ctx := some cfbContext, ks := some [], srcAddr := 0x1000, srcLen := 3, dstAddr := 0x2000, dstCap := 3 } w

/-- The same inside an open encrypt stream. -/
def busyStream (w : Word) : State :=
  { busy w with streamOpen := true, prev := some (zeros Config.chip.S) }

/-- The latch of `busy w`. -/
def busyLatch (w : Word) : Latch := latchOf (busy w) w

theorem busy_pending (w : Word) : (busy w).pending = some (busyLatch w) := rfl

theorem busy_inv (w : Word) : (busy w).Inv Config.chip where
  memForm := rfl
  memSpace := rfl
  errCode := by rfl
  flight _ := ⟨rfl, rfl⟩
  context := by intro c h; cases h; exact cfbContext_ok
  openStream h := by cases h
  closedStream _ := ⟨rfl, rfl⟩

theorem busyStream_inv (w : Word) : (busyStream w).Inv Config.chip where
  memForm := rfl
  memSpace := rfl
  errCode := by rfl
  flight _ := ⟨rfl, rfl⟩
  context := by intro c h; cases h; exact cfbContext_ok
  openStream _ := ⟨cfbContext, zeros Config.chip.S, rfl, rfl, rfl, by simp [zeros, rep], by
    show HoldOk _ _ _
    unfold HoldOk
    rw [if_neg (by simp [busyStream, busy, cfbContext, paddedDecrypt, padded])]
    exact Config.chip.S_pos⟩
  closedStream h := by cases h

theorem busy_encrypt_noCause : NoCause Config.chip .encrypt (busyLatch 0x10) (busy 0x10) :=
  noCause_iff.mpr (by decide)

theorem busy_decrypt_noCause : NoCause Config.chip .decrypt (busyLatch 0x11) (busy 0x11) :=
  noCause_iff.mpr (by decide)

theorem busy_admits (w : Word) : Admits (busy w) := by
  intro a h; simp [busy, accept, State.reset] at h

theorem busyStream_admits (w : Word) : Admits (busyStream w) := by
  intro a h; simp [busyStream, busy, accept, State.reset] at h

/-- Three bytes are less than a block: nothing is written by the update. -/
theorem busyStream_update_bound :
    writeBound Config.chip .streamUpdate (busyLatch 0x21) (busyStream 0x21) = 0 := by
  have h := Config.chip.four_le_S
  have hn : blocksNow Config.chip.S .cfb .enc 3 = 0 := by
    unfold blocksNow
    rw [if_neg (by decide), Nat.div_eq_of_lt (by omega)]
  show blocksNow Config.chip.S .cfb .enc 3 * Config.chip.S = 0
  rw [hn, Nat.zero_mul]

theorem busyStream_update_noCause :
    NoCause Config.chip .streamUpdate (busyLatch 0x21) (busyStream 0x21) := by
  have hb := busyStream_update_bound
  refine noCause_iff.mpr ?_
  show firstFailure [(ErrorCode.streamState, false), (ErrorCode.addrRange, _), (ErrorCode.overlap, _),
    (ErrorCode.capacity, _)] = none
  simp only [firstFailure, addrRangeFails, overlapFails, capacityFails, writeRange, hb]
  decide

theorem admitted_next {P : Params} {l : Latch} {count wlen : Nat} {body : Bytes → State → Bytes × State}
    {s : State} (ha : Admits s) : ∃ t, transfer P l count wlen body s = .next t ∧ t.ecode = .none :=
  ⟨_, transfer_admitted (ha.rangesAnswer count wlen), rfl⟩

theorem cfbContext_delta : cfbContext.mode = .randomDelta → cfbContext.delta.isSome = true := by
  simp [cfbContext]

theorem busy_decrypt_next : ∃ t, exec .decrypt (busy 0x11) = .next t := by
  have hc : (busy 0x11).ctx = some cfbContext := rfl
  have hk : (busy 0x11).ks = some [] := rfl
  rw [exec_of_noCause (busy_pending 0x11) busy_decrypt_noCause]
  simp only [effectOf, withContext_some _ hc, withDriver_some _ hk cfbContext_delta]
  obtain ⟨t, ht, _⟩ := admitted_next (busy_admits 0x11)
  exact ⟨t, ht⟩

/-- The latch of an ENCRYPT with another destination, and the state it is in flight in. -/
def latchTo (dst : Word) : Latch := { busyLatch 0x10 with dstAddr := dst }

def busyTo (dst : Word) : State := { busy 0x10 with pending := some (latchTo dst) }

theorem busyTo_inv (dst : Word) : (busyTo dst).Inv Config.chip :=
  { busy_inv 0x10 with flight := fun _ => ⟨rfl, rfl⟩ }

theorem busyTo_next (dst : Word) (hdst : dst = 0x2000 ∨ dst = 0x3000) :
    ∃ t, exec .encrypt (busyTo dst) = .next t ∧ t.ecode = .none := by
  have hn : NoCause Config.chip .encrypt (latchTo dst) (busyTo dst) := by
    rcases hdst with rfl | rfl <;> exact noCause_iff.mpr (by decide)
  have hp : (busyTo dst).pending = some (latchTo dst) := rfl
  have hc : (busyTo dst).ctx = some cfbContext := rfl
  have hk : (busyTo dst).ks = some [] := rfl
  have ha : Admits (busyTo dst) := fun a h => by simp [busyTo, busy, accept, State.reset] at h
  rw [exec_of_noCause hp hn]
  simp only [effectOf, withContext_some _ hc, withDriver_some _ hk cfbContext_delta]
  exact admitted_next ha

theorem busyStream_final_noCause :
    NoCause Config.chip .streamFinal (busyLatch 0x22) (busyStream 0x22) := noCause_iff.mpr (by decide)

/-- A performed command answers next where the statement's hypotheses hold. -/
theorem busy_exec_next (w : Word) : ∃ t, exec .nop (busy w) = .next t := ⟨_, rfl⟩

theorem witness_DecodeOfEncode : (Instr.ctxInit 6 .iso10126).wellFormed = true := by decide

theorem witness_EncodeOfDecode : decode 0x00003601#32 = .ok (.ctxInit 6 .iso10126) := by decide

/-- R146's cases one by one (an opcode beside each defined one; each reserved bit range at both ends; MODE
= 7), an idle engine, and an illegal word in flight. -/
theorem witness_IllegalWordsFailWithBadCmd :
    (∀ w ∈ [0x04#32, 0x0F#32, 0x12#32, 0x1F#32, 0x23#32, 0xFF#32, 0x0801#32, 0x4001#32, 0x8001#32,
      0x10001#32, 0x80000001#32, 0x0701#32, 0x0120#32, 0x8020#32, 0x20020#32, 0x80000020#32, 0x0100#32,
      0x80000022#32], (match decode w with | .ok _ => false | .error _ => true) = true) ∧
    State.reset.pending = none ∧ (busy 0x04).pending = some (busyLatch 0x04) ∧
    decode (busyLatch 0x04).word = .error .unknownOpcode := by
  refine ⟨?_, rfl, rfl, by decide⟩
  simp only [List.forall_mem_cons]
  refine ⟨?_, ?_, ?_, ?_, ?_, ?_, ?_, ?_, ?_, ?_, ?_, ?_, ?_, ?_, ?_, ?_, ?_, ?_, by simp⟩ <;> decide

theorem witness_StepPerformsTheCommandInFlight :
    (busy 0x10).pending = some (busyLatch 0x10) ∧ decode (busyLatch 0x10).word = .ok .encrypt ∧
    (busy 0x10).events = [] ∧
    ({ busy 0x10 with events := [.engine, .engine] } : State).events = .engine :: [.engine] := by
  refine ⟨rfl, by decide, rfl, rfl⟩

theorem witness_PlacedWordIsPerformedNext : (Instr.streamBegin .dec).wellFormed = true := by decide

theorem witness_StepKeepsInvariant : ∃ t, (busy 0).Inv Config.chip ∧ step (busy 0) = .next t :=
  ⟨_, busy_inv 0, rfl⟩

theorem witness_StepKeepsKeyFromCore :
    ∃ t, ({ busy 0 with ks := none } : State).KeyFromCore Config.chip ∧
      step { busy 0 with ks := none } = .next t :=
  ⟨_, (fun ks h => by cases h), rfl⟩

/-- A read of IV.w0 right after reset. -/
theorem witness_OnlyWindowBytesCanBeAbsent :
    ({ busy 0 with events := [.regRead 0x080 4] } : State).Inv Config.chip ∧
    step { busy 0 with events := [.regRead 0x080 4] } = .fault (.noValue .ivWindow) :=
  ⟨{ busy_inv 0 with }, rfl⟩

theorem witness_CommandWriteIssuesOrIsRejected :
    State.reset.pending = none ∧ (busy 0x10).pending = some (busyLatch 0x10) := ⟨rfl, rfl⟩

/-- The range check at its boundary: the last byte of the address space is no cause, one more is. -/
theorem witness_LowestCauseIsReported_addrRange :
    let l := { busyLatch 0x11 with srcAddr := 0xFFFFFFFF, srcLen := 2, dstCap := 2 }
    let l1 := { busyLatch 0x11 with srcAddr := 0xFFFFFFFF, srcLen := 1, dstCap := 1 }
    let s := { busy 0x11 with pending := some l }
    let s1 := { busy 0x11 with pending := some l1 }
    Cause Config.chip .decrypt l s .addrRange ∧
      (∀ c, ErrorCode.before c .addrRange → ¬ Cause Config.chip .decrypt l s c) ∧
      NoCause Config.chip .decrypt l1 s1 := by
  intro l l1 s s1
  exact ⟨(cause_of_firstFailure (by decide)).1, (cause_of_firstFailure (by decide)).2,
    noCause_iff.mpr (by decide)⟩

/-- The overlap and capacity checks at their boundaries. -/
theorem witness_LowestCauseIsReported_overlap :
    let l := { busyLatch 0x11 with dstAddr := 0x1002 }
    let l1 := { busyLatch 0x11 with dstAddr := 0x1003 }
    let l2 := { busyLatch 0x11 with dstCap := 2 }
    Cause Config.chip .decrypt l (busy 0x11) .overlap ∧
      (∀ c, ErrorCode.before c .overlap → ¬ Cause Config.chip .decrypt l (busy 0x11) c) ∧
      NoCause Config.chip .decrypt l1 (busy 0x11) ∧
      Cause Config.chip .decrypt l2 (busy 0x11) .capacity := by
  intro l l1 l2
  exact ⟨(cause_of_firstFailure (by decide)).1, (cause_of_firstFailure (by decide)).2,
    noCause_iff.mpr (by decide), (cause_of_firstFailure (by decide)).1⟩

/-- The other codes, each with a command and a state. -/
theorem witness_LowestCauseIsReported_others :
    Cause Config.chip (.ctxInit 7 .zeros) (busyLatch 0) (busy 0) .badCmd ∧
    Cause Config.chip .encrypt (busyLatch 0x10) { busy 0x10 with ctx := none } .noContext ∧
    Cause Config.chip (.ctxInit 0 .zeros) (busyLatch 1) (busy 1) .ctxLocked ∧
    Cause Config.chip .streamUpdate (busyLatch 0x21) (busy 0x21) .streamState ∧
    Cause Config.chip .setKey (busyLatch 3) (busyStream 3) .streamState ∧
    Cause Config.chip .encrypt (busyLatch 0x10) { busy 0x10 with ks := none } .noKey ∧
    Cause Config.chip .setKey { busyLatch 3 with keyLen := 65 } (busy 3) .keyError ∧
    Cause Config.chip (.ctxInit 1 .zeros) { busyLatch 0x101 with ivLen := 1 } { busy 0x101 with ctx := none }
      .ivLength ∧
    Cause Config.chip (.ctxInit 6 .zeros) (busyLatch 0x601) { busy 0x601 with ctx := none } .deltaLength ∧
    Cause Config.chip .decrypt (busyLatch 0x11)
      { busy 0x11 with ctx := some { cfbContext with mode := .cbc } } .length := by
  have h := Config.chip.four_le_S
  refine ⟨⟨.zeros, rfl⟩, ⟨trivial, rfl⟩, ⟨⟨0, .zeros, rfl⟩, by simp [busy, accept]⟩, .inr ⟨.inl rfl, rfl⟩,
    .inl ⟨trivial, rfl⟩, ⟨trivial, rfl⟩, ⟨rfl, by decide⟩, ⟨1, .zeros, rfl, by decide, by decide, ?_⟩,
    ⟨.zeros, rfl, ?_⟩, ⟨_, rfl, by decide, .inl ⟨rfl, ?_⟩⟩⟩
  · show (1 : Nat) ≠ _; omega
  · show (0 : Nat) ≠ _; omega
  · show 3 % _ ≠ 0; rw [Nat.mod_eq_of_lt (by omega)]; decide

theorem witness_LowestCauseIsReported_next :
    ∃ t, (accept State.reset 0x10).pending = some (latchOf State.reset 0x10) ∧
      exec .encrypt (accept State.reset 0x10) = .next t ∧ t.ecode ≠ .none ∧ t.ecode ≠ .busError :=
  ⟨_, rfl, rfl, by decide, by decide⟩

theorem witness_FailedCheckChangesOnlyTheRecord :
    ∃ t, exec .encrypt (accept State.reset 0x10) = .next t ∧ t.ecode ≠ .none ∧ t.ecode ≠ .busError :=
  ⟨_, rfl, by decide, by decide⟩

theorem witness_NopOnlyCompletes :
    (busy 0).pending = some (busyLatch 0) ∧ (busy 0x100).pending = some (busyLatch 0x100) ∧
    (busyLatch 0x100).word.extractLsb' 0 8 = 0#8 ∧ (busyLatch 0x100).word ≠ 0#32 ∧
    (busyLatch 0x80000000).word.extractLsb' 0 8 = 0#8 ∧ (busyLatch 0x80000000).word ≠ 0#32 := by
  refine ⟨rfl, rfl, by decide, by decide, by decide, by decide⟩

/-- The reset state with windows of zeros and the lengths `ivLen` and `deltaLen`, and a word in flight. -/
def staged (ivLen deltaLen keyLen : Nat) (w : Word) : State :=
  accept { State.reset with
    ivLen := BitVec.ofNat 32 ivLen, deltaLen := BitVec.ofNat 32 deltaLen, keyLen := BitVec.ofNat 32 keyLen
    iv := Vector.replicate 32 (some 0), delta := Vector.replicate 32 (some 0)
    key := Vector.replicate 64 (some 0) } w

theorem chip_S_toNat : (BitVec.ofNat 32 Config.chip.S).toNat = Config.chip.S := by
  have h := Config.chip.S_le
  simp; omega

theorem replicate_byte {n j : Nat} (h : j < n) :
    windowByte (Vector.replicate n (some (0 : Byte))) j = some 0 := by
  simp [windowByte, h]

theorem zeros_byte {n j : Nat} (h : j < n) : (zeros n)[j]? = some 0 := by simp [zeros, rep, h]

/-- The four checks: MODE = 7, a context there, IVLEN one below S, and DELTALEN = 0 with each legal IVLEN. -/
theorem witness_CtxInit_checks :
    (busy 0x701).pending = some (busyLatch 0x701) ∧ (busy 0x701).ctx ≠ none ∧
    (∃ l, (staged (Config.chip.S - 1) 0 0 0x101).pending = some l ∧
      (staged (Config.chip.S - 1) 0 0 0x101).ctx = none ∧ (1 : BitVec 3) ≠ 7 ∧ (1 : BitVec 3) ≠ 0 ∧
      l.ivLen.toNat ≠ 0 ∧ l.ivLen.toNat ≠ Config.chip.S) ∧
    (∃ l, (staged Config.chip.S 0 0 0x601).pending = some l ∧
      (l.ivLen.toNat = 0 ∨ l.ivLen.toNat = Config.chip.S) ∧ l.deltaLen.toNat ≠ Config.chip.S) := by
  have h4 := Config.chip.four_le_S
  have h32 := Config.chip.S_le
  have hS : (BitVec.ofNat 32 (Config.chip.S - 1)).toNat = Config.chip.S - 1 := by
    rw [BitVec.toNat_ofNat]; omega
  refine ⟨rfl, by simp [busy, accept], ⟨_, rfl, rfl, by decide, by decide, ?_, ?_⟩, ⟨_, rfl, .inr chip_S_toNat, ?_⟩⟩
  · show (BitVec.ofNat 32 (Config.chip.S - 1)).toNat ≠ 0; omega
  · show (BitVec.ofNat 32 (Config.chip.S - 1)).toNat ≠ _; omega
  · show (0 : Nat) ≠ _; omega

/-- Three forms: CBC without an IV, CBC with the staged IV, and RandomDelta with IV and delta. -/
theorem witness_CtxInitCreatesTheContext :
    ∃ l0 l1, (staged 0 0 0 0x101).pending = some l0 ∧ l0.ivLen.toNat = 0 ∧
      (staged Config.chip.S Config.chip.S 0 0x601).pending = some l1 ∧
      (staged Config.chip.S Config.chip.S 0 0x601).ctx = none ∧
      Mode.ofBits 6 = some .randomDelta ∧ Mode.ofBits 1 = some .cbc ∧
      l1.ivLen.toNat = Config.chip.S ∧ l1.deltaLen.toNat = Config.chip.S ∧
      (zeros Config.chip.S).length = Config.chip.S ∧
      (∀ j, j < Config.chip.S → windowByte l1.iv j = (zeros Config.chip.S)[j]?) ∧
      (∀ j, j < Config.chip.S → windowByte l1.delta j = (zeros Config.chip.S)[j]?) := by
  have hS := Config.chip.S_le
  refine ⟨_, _, rfl, rfl, rfl, rfl, by decide, by decide, chip_S_toNat, chip_S_toNat, by simp [zeros, rep], ?_, ?_⟩
  · intro j h; rw [zeros_byte h]; exact replicate_byte (by omega)
  · intro j h; rw [zeros_byte h]; exact replicate_byte (by omega)

/-- Right after reset no window byte is written: the first and the last byte used. -/
theorem witness_UnwrittenWindowBytesFault :
    (∃ l, (accept { State.reset with ivLen := BitVec.ofNat 32 Config.chip.S } 0x101).pending = some l ∧
      NoCause Config.chip (.ctxInit 1 .zeros) l
        (accept { State.reset with ivLen := BitVec.ofNat 32 Config.chip.S } 0x101) ∧
      l.ivLen.toNat = Config.chip.S ∧ 0 < Config.chip.S ∧ windowByte l.iv 0 = none) ∧
    (∃ l, (accept { State.reset with deltaLen := BitVec.ofNat 32 Config.chip.S } 0x601).pending = some l ∧
      NoCause Config.chip (.ctxInit 6 .zeros) l
        (accept { State.reset with deltaLen := BitVec.ofNat 32 Config.chip.S } 0x601) ∧
      l.ivLen.toNat = 0 ∧ windowByte l.delta 3 = none) ∧
    (∃ l, (accept { staged Config.chip.S Config.chip.S 0 0 with pending := none, delta := State.reset.delta }
        0x601).pending = some l ∧
      NoCause Config.chip (.ctxInit 6 .zeros) l
        (accept { staged Config.chip.S Config.chip.S 0 0 with pending := none, delta := State.reset.delta } 0x601) ∧
      l.ivLen.toNat = Config.chip.S ∧ (∀ k, k < Config.chip.S → windowByte l.iv k ≠ none) ∧
      windowByte l.delta 0 = none) ∧
    (∃ l, (accept { State.reset with keyLen := 64 } 3).pending = some l ∧
      NoCause Config.chip .setKey l (accept { State.reset with keyLen := 64 } 3) ∧
      63 < l.keyLen.toNat ∧ windowByte l.key 63 = none) := by
  refine ⟨⟨_, rfl, noCause_iff.mpr ?_, chip_S_toNat, Config.chip.S_pos, by decide⟩,
    ⟨_, rfl, noCause_iff.mpr ?_, rfl, by decide⟩,
    ⟨_, rfl, noCause_iff.mpr ?_, chip_S_toNat, ?_, by decide⟩,
    ⟨_, rfl, noCause_iff.mpr (by decide), by decide, by decide⟩⟩
  · show firstFailure [(_, false), (_, ivLengthFails Config.chip .cbc _), (_, false)] = none
    simp only [firstFailure, ivLengthFails, latchOf, chip_S_toNat, bne_self_eq_false, Bool.and_false]
    rfl
  · show firstFailure [(_, false), (_, false), (_, deltaLengthFails Config.chip .randomDelta _)] = none
    simp only [firstFailure, deltaLengthFails, latchOf, chip_S_toNat, bne_self_eq_false, Bool.and_false]
    rfl
  · show firstFailure [(_, false), (_, ivLengthFails Config.chip .randomDelta _),
      (_, deltaLengthFails Config.chip .randomDelta _)] = none
    simp only [firstFailure, ivLengthFails, deltaLengthFails, latchOf, staged, accept, chip_S_toNat,
      bne_self_eq_false, Bool.and_false]
    rfl
  · intro k hk
    have hS := Config.chip.S_le
    have h : windowByte (Vector.replicate 32 (some (0 : Byte))) k = some 0 := replicate_byte (by omega)
    exact fun e => by cases h.symm.trans e

theorem witness_CtxClearEndsTheSession : (busyStream 2).pending = some (busyLatch 2) := rfl

/-- Its checks: a stream open, and KEYLEN = 65 with none open. -/
theorem witness_SetKey_checks :
    (busyStream 3).pending = some (busyLatch 3) ∧ (busyStream 3).streamOpen = true ∧
    (∃ l, (staged 0 0 65 3).pending = some l ∧ (staged 0 0 65 3).streamOpen = false ∧ 64 < l.keyLen.toNat) :=
  ⟨rfl, rfl, _, rfl, rfl, by decide⟩

/-- A key of MAXKEY bytes. -/
theorem witness_SetKeyFollowsTheCipherCore :
    ∃ l, (staged 0 0 64 3).pending = some l ∧ (staged 0 0 64 3).streamOpen = false ∧
      l.keyLen.toNat ≤ 64 ∧ (zeros 64).length = l.keyLen.toNat ∧
      (∀ j, j < l.keyLen.toNat → windowByte l.key j = (zeros 64)[j]?) := by
  refine ⟨_, rfl, rfl, by decide, by decide, ?_⟩
  intro j h
  have h : j < 64 := h
  rw [zeros_byte h]; exact replicate_byte h

theorem witness_EncryptWritesTheCiphertext :
    (busy 0x10).pending = some (busyLatch 0x10) ∧ (busy 0x10).ctx = some cfbContext ∧
    cfbContext.Ok Config.chip ∧ (busy 0x10).ks = some [] ∧ (busy 0x10).mem.wf = true ∧
    NoCause Config.chip .encrypt (busyLatch 0x10) (busy 0x10) ∧ Admits (busy 0x10) :=
  ⟨rfl, rfl, cfbContext_ok, rfl, by decide, busy_encrypt_noCause, busy_admits _⟩

theorem witness_DecryptWritesThePlaintext :
    (busy 0x11).pending = some (busyLatch 0x11) ∧ (busy 0x11).ctx = some cfbContext ∧
    (busy 0x11).ks = some [] ∧ (cfbContext.mode = .randomDelta → cfbContext.delta.isSome = true) ∧
    (busy 0x11).mem.wf = true ∧
    NoCause Config.chip .decrypt (busyLatch 0x11) (busy 0x11) ∧ Admits (busy 0x11) :=
  ⟨rfl, rfl, rfl, by simp [cfbContext], by decide, busy_decrypt_noCause, busy_admits _⟩

/-- Its checks: no context; a stream open; no key. -/
theorem witness_StreamBegin_checks :
    (accept State.reset 0x20).pending = some (latchOf State.reset 0x20) ∧ (accept State.reset 0x20).ctx = none ∧
    (busyStream 0x20).ctx ≠ none ∧ (busyStream 0x20).streamOpen = true ∧
    ({ busy 0x20 with ks := none } : State).ctx ≠ none ∧
    ({ busy 0x20 with ks := none } : State).streamOpen = false := by
  refine ⟨rfl, rfl, ?_, rfl, ?_, rfl⟩ <;> simp [busyStream, busy, accept]

theorem witness_StreamBeginOpensTheStream :
    (busy 0x20).pending = some (busyLatch 0x20) ∧ (busy 0x20).ctx = some cfbContext ∧
    (busy 0x20).streamOpen = false ∧ (busy 0x20).ks ≠ none := ⟨rfl, rfl, rfl, by decide⟩

theorem witness_StreamUpdateProcessesWholeBlocks :
    (busyStream 0x21).pending = some (busyLatch 0x21) ∧ (busyStream 0x21).ctx = some cfbContext ∧
    cfbContext.Ok Config.chip ∧ (busyStream 0x21).ks = some [] ∧
    (busyStream 0x21).prev = some (zeros Config.chip.S) ∧
    (zeros Config.chip.S).length = Config.chip.S ∧ (busyStream 0x21).mem.wf = true ∧
    NoCause Config.chip .streamUpdate (busyLatch 0x21) (busyStream 0x21) ∧ Admits (busyStream 0x21) :=
  ⟨rfl, rfl, cfbContext_ok, rfl, rfl, by simp [zeros, rep], by decide, busyStream_update_noCause,
    busyStream_admits _⟩

theorem witness_StreamFinalFlushesTheHold :
    (busyStream 0x22).pending = some (busyLatch 0x22) ∧ (busyStream 0x22).ctx = some cfbContext ∧
    cfbContext.Ok Config.chip ∧ (busyStream 0x22).ks = some [] ∧
    (busyStream 0x22).prev = some (zeros Config.chip.S) ∧
    (zeros Config.chip.S).length = Config.chip.S ∧ HoldOk Config.chip cfbContext (busyStream 0x22) ∧
    (busyStream 0x22).mem.wf = true ∧
    NoCause Config.chip .streamFinal (busyLatch 0x22) (busyStream 0x22) ∧ Admits (busyStream 0x22) :=
  ⟨rfl, rfl, cfbContext_ok, rfl, rfl, by simp [zeros, rep], by
    unfold HoldOk
    rw [if_neg (by decide)]
    exact Config.chip.S_pos, by decide, busyStream_final_noCause, busyStream_admits _⟩

/-- The memory agent's answers of a DECRYPT: the read refused, the write refused, and side effects in either
range, also where the other is refused. -/
def busyAnswers (l : List MemAnswer) : State := { busy 0x11 with busAnswers := l }

theorem witness_BusErrorIsConfined :
    (∀ l, (busyAnswers l).Inv Config.chip ∧ (busyAnswers l).pending = some (busyLatch 0x11) ∧
      NoCause Config.chip .decrypt (busyLatch 0x11) (busyAnswers l)) ∧
    sourceCount .decrypt (busyLatch 0x11) = 3 ∧
    writeBound Config.chip .decrypt (busyLatch 0x11) (busyAnswers []) = 3 ∧
    (∀ l ∈ [[MemAnswer.refuses], [.refuses, .refuses], [.admits, .refuses]],
      rangesAnswer (busyAnswers l) 3 3 = .refuses) ∧
    (∀ l ∈ [[MemAnswer.sideEffects], [.admits, .sideEffects], [.refuses, .sideEffects]],
      rangesAnswer (busyAnswers l) 3 3 = .sideEffects) ∧
    (∃ t, exec .decrypt (busyAnswers [.admits, .refuses]) = .next t ∧ t.ecode = .busError) ∧
    exec .decrypt (busyAnswers [.admits, .sideEffects]) = .refused .sideEffectMemory :=
  ⟨fun _ => ⟨{ busy_inv 0x11 with }, rfl, busy_decrypt_noCause⟩, rfl, rfl, by decide, by decide,
    ⟨_, rfl, rfl⟩, rfl⟩

/-- A STREAM_FINAL with one byte withheld: the write range is its only range. -/
theorem witness_BusErrorIsConfined_final :
    let s := { busyStream 0x22 with hold := [7], busAnswers := [.refuses] }
    s.Inv Config.chip ∧ NoCause Config.chip .streamFinal (busyLatch 0x22) s ∧
    sourceCount .streamFinal (busyLatch 0x22) = 0 ∧
    writeBound Config.chip .streamFinal (busyLatch 0x22) s = 1 ∧
    ∃ t, exec .streamFinal s = .next t ∧ t.ecode = .busError := by
  refine ⟨{ busyStream_inv 0x22 with openStream := fun _ => ?_, closedStream := fun h => by cases h },
    noCause_iff.mpr (by decide), rfl, rfl, _, rfl, rfl⟩
  refine ⟨cfbContext, zeros Config.chip.S, rfl, rfl, rfl, by simp [zeros, rep], ?_⟩
  unfold HoldOk
  rw [if_neg (by decide)]
  have := Config.chip.four_le_S
  show 1 < Config.chip.S; omega

/-- The bytes just below and just above the write range of a DECRYPT. -/
theorem witness_WritesStayInTheWriteRange :
    ∃ t, (busy 0x11).Inv Config.chip ∧ exec .decrypt (busy 0x11) = .next t ∧
      (writeRange Config.chip .decrypt (busyLatch 0x11) (busy 0x11)).has 0x1FFF = false ∧
      (writeRange Config.chip .decrypt (busyLatch 0x11) (busy 0x11)).has 0x2003 = false ∧
      (writeRange Config.chip .decrypt (busyLatch 0x11) (busy 0x11)).has 0x2002 = true := by
  obtain ⟨t, ht⟩ := busy_decrypt_next
  exact ⟨t, busy_inv _, ht, by decide, by decide, by decide⟩

/-- Two memories that agree on the source range and differ outside it. -/
theorem witness_OutputDependsOnlyOnTheSourceRange :
    ∃ t, (busy 0x11).mem.wf = true ∧ Memory.wf [(0x1003, 7)] = true ∧
      (∀ a, (sourceRange .decrypt (busyLatch 0x11)).has a = true →
        Memory.read [(0x1003, 7)] a = (busy 0x11).mem.read a) ∧
      exec .decrypt (busy 0x11) = .next t := by
  obtain ⟨t, ht⟩ := busy_decrypt_next
  refine ⟨t, by decide, by decide, ?_, ht⟩
  intro a h
  rw [range_has] at h
  have h2 : a < 0x1000 + 3 := h.2
  have hm : (busy 0x11).mem = [] := rfl
  rw [hm]
  simp only [Memory.read]
  rw [if_neg (by omega)]

theorem witness_CtxCfgReadsTheContext :
    State.reset.ctx = none ∧ (busy 0).ctx = some cfbContext ∧ (∃ t, exec .nop (busy 0) = .next t) ∧
    (∃ t, hostRegWrite 0x00C 4 0xFFFFFFFF (busy 0) = .next t) := ⟨rfl, rfl, ⟨_, rfl⟩, ⟨_, rfl⟩⟩

/-- Each clause of the window's access rules at the ends of its range. -/
theorem witness_WindowAccessRules :
    (¬ (2 = 4 ∧ (0x004#12).toNat % 4 = 0)) ∧ (¬ (4 = 4 ∧ (0x005#12).toNat % 4 = 0)) ∧
    (∀ off ∈ [0x044#12, 0x07C#12, 0x100#12, 0xFFC#12], off.toNat % 4 = 0 ∧
      ((0x044 ≤ off.toNat ∧ off.toNat ≤ 0x07C) ∨ 0x100 ≤ off.toNat)) ∧
    (0x040#12).toNat ∈ [0x00C, 0x020, 0x030, 0x034, 0x038, 0x03C, 0x040] ∧
    (∃ t, hostRegRead Config.chip 0x004 4 State.reset = .next t) := by
  refine ⟨by decide, by decide, by decide, by decide, _, rfl⟩

/-- Each register's offset is in the range the statement names, and a hold of S bytes, the most there is. -/
theorem witness_RegistersHoldWhatIsWritten :
    (∀ off ∈ [0x010#12, 0x014, 0x018, 0x01C, 0x024, 0x028, 0x02C], wordAccess off 4 = true) ∧
    ({ State.reset with hold := zeros Config.chip.S } : State).hold.length ≤ Config.chip.S := by
  refine ⟨by decide, ?_⟩
  show (zeros Config.chip.S).length ≤ _
  simp [zeros, rep]

/-- Byte 0 and byte 31 after reset. -/
theorem witness_WindowWordsAreLittleEndianLanes :
    windowByte State.reset.iv 0 = none ∧ windowByte State.reset.delta 31 = none := by decide

theorem witness_InterruptLineFollowsDone :
    (∃ t, (busy 0).pending = some (busyLatch 0) ∧ engineTurn exec (busy 0) = .next t) ∧
    (∃ t, hostRegWrite 0x004 4 0x002 (busy 0) = .next t ∧ (0x002#32).getLsbD 1 = true) ∧
    (∃ t, hostRegWrite 0x008 4 0 (busy 0) = .next t ∧ (0#32).getLsbD 0 = false) ∧
    (∃ t, State.reset.pending = none ∧ hostRegWrite 0x000 4 0 State.reset = .next t) :=
  ⟨⟨_, rfl, rfl⟩, ⟨_, rfl, by decide⟩, ⟨_, rfl, by decide⟩, ⟨_, rfl, rfl⟩⟩

/-- No command in flight, and an illegal word in flight. -/
theorem witness_ResetSetsEveryRegister :
    (∀ l i, ({ State.reset with doneIe := true, ks := some [], mem := [(1, 2)] } : State).pending = some l →
      decode l.word ≠ .ok i) ∧
    (∀ l i, (busy 0x04).pending = some l → decode l.word ≠ .ok i) := by
  refine ⟨?_, ?_⟩ <;> intro l i h <;> cases h
  show decode 0x04#32 ≠ _
  rw [show decode 0x04#32 = .error .unknownOpcode by decide]
  exact fun h => by cases h

theorem witness_ResetAbandonsTheCommand :
    (busy 0x11).pending = some (busyLatch 0x11) ∧ decode (busyLatch 0x11).word = .ok .decrypt ∧
    (busy 0x11).mem.wf = true ∧
    (writeRange Config.chip .decrypt (busyLatch 0x11) (busy 0x11)).has 0x1FFF = false ∧
    (sourceRange .decrypt (busyLatch 0x11)).has 0x1002 = true ∧
    (busy 0x04).pending = some (busyLatch 0x04) ∧ (busy 0x04).mem.wf = true ∧
    decode (busyLatch 0x04).word = .error .unknownOpcode ∧
    rangesAnswer (busy 0x11) (sourceCount .decrypt (busyLatch 0x11))
      (writeBound Config.chip .decrypt (busyLatch 0x11) (busy 0x11)) = .admits ∧
    rangesAnswer (busyAnswers [.admits, .sideEffects]) (sourceCount .decrypt (busyLatch 0x11))
      (writeBound Config.chip .decrypt (busyLatch 0x11) (busyAnswers [.admits, .sideEffects])) = .sideEffects := by
  refine ⟨rfl, by decide, by decide, by decide, by decide, rfl, by decide, by decide, by decide, by decide⟩

/-- A DECRYPT whose source and write ranges share the byte at 0x1002. -/
def overlapping : State := { busy 0x11 with pending := some { busyLatch 0x11 with dstAddr := 0x1002 } }

/-- The first and last byte of the write range, the last of the source range, a byte of neither, a byte of both,
and a state with an illegal word in flight. -/
theorem witness_HostMemoryAccessInFlight :
    (busy 0x11).pending = some (busyLatch 0x11) ∧ decode (busyLatch 0x11).word = .ok .decrypt ∧
    (busy 0x11).mem.wf = true ∧
    (writeRange Config.chip .decrypt (busyLatch 0x11) (busy 0x11)).has (0x2000#32).toNat = true ∧
    (writeRange Config.chip .decrypt (busyLatch 0x11) (busy 0x11)).has (0x2002#32).toNat = true ∧
    (sourceRange .decrypt (busyLatch 0x11)).has (0x1002#32).toNat = true ∧
    (writeRange Config.chip .decrypt (busyLatch 0x11) (busy 0x11)).has (0x1003#32).toNat = false ∧
    (sourceRange .decrypt (busyLatch 0x11)).has (0x1003#32).toNat = false ∧
    (∃ l, overlapping.pending = some l ∧ decode l.word = .ok .decrypt ∧ overlapping.mem.wf = true ∧
      (writeRange Config.chip .decrypt l overlapping).has (0x1002#32).toNat = true ∧
      (sourceRange .decrypt l).has (0x1002#32).toNat = true) ∧
    (busy 0x04).pending = some (busyLatch 0x04) ∧
    decode (busyLatch 0x04).word = .error .unknownOpcode := by
  refine ⟨rfl, by decide, by decide, by decide, by decide, by decide, by decide, by decide,
    ⟨_, rfl, by decide, by decide, by decide, by decide⟩, rfl, by decide⟩

theorem witness_StagingWritesDoNotReachTheCommand :
    staging .srcAddr = true ∧ staging (.ivWord 7) = true ∧ staging (.keyWord 15) = true := by decide

theorem witness_CommandWriteAndPerformInBothOrders :
    ∃ t, (busy 0).pending = some (busyLatch 0) ∧ engineTurn exec (busy 0) = .next t := ⟨_, rfl, rfl⟩

/-- A stream that stays open across the perform of a NOP, and a command that stays in flight across a host
write. -/
theorem witness_RekeyNeverOverlaps :
    (busyStream 3).pending = some (busyLatch 3) ∧ (busyStream 3).streamOpen = true ∧
    (∃ t, step (busyStream 0) = .next t ∧ (busyStream 0).streamOpen = true ∧ t.streamOpen = true) ∧
    (∃ t, step { busy 3 with events := [.regWrite 0x010 4 5] } = .next t ∧
      (busy 3).pending ≠ none ∧ t.pending ≠ none) :=
  ⟨rfl, rfl, ⟨_, rfl, rfl, rfl⟩, ⟨_, rfl, by simp [busy_pending], by simp [writeReg, regAt, busy_pending]⟩⟩

/-- p at both ends: one byte short of a block, and none short. -/
theorem witness_PaddingBytesByKind :
    1 = toy.S - (p0.take 7).length % toy.S ∧ 8 = toy.S - p0.length % toy.S ∧ (p0.take 7).length % toy.S ≠ 0 ∧
    p0 ≠ [] ∧ p0.length % toy.S = 0 := by decide

/-- Blocks with p = 1, p = S, p = 0 and p = S + 1, and t = 1 and t = S trailing zeros. -/
theorem witness_RemovalStripsTheCountedPadding :
    (∀ b ∈ [[0x41, 0x42, 0x43, 0x44, 0x45, 0x46, 0x47, (1 : Byte)], List.replicate 8 8,
        [0x41, 0x42, 0x43, 0x44, 0x45, 0x46, 0x47, 0], [0x41, 0x42, 0x43, 0x44, 0x45, 0x46, 0x47, 9]],
      b.length = toy.S) ∧
    [1, 8, 0, 9] = [[0x41, 0x42, 0x43, 0x44, 0x45, 0x46, 0x47, (1 : Byte)], List.replicate 8 8,
        [0x41, 0x42, 0x43, 0x44, 0x45, 0x46, 0x47, 0], [0x41, 0x42, 0x43, 0x44, 0x45, 0x46, 0x47, 9]].map
      (fun b => (b.getD (toy.S - 1) 0).toNat) ∧
    [0x41, 0x42, 0x43, 0x44, 0x45, 0x46, 0x47, (0 : Byte)][toy.S - 1 - 1]? ≠ some 0#8 := by decide

theorem witness_PadRemoveUndoesPadApply :
    (PaddingKind.pkcs7 ≠ .zeros) ∧ (([0x41, 0x00] : Bytes).getLast? = some 0#8) := by decide

theorem witness_PadApplyIsInjective :
    PaddingKind.iso10126 ≠ .zeros ∧
    padApply toy.S .iso10126 toy.freeByte p0 = padApply toy.S .iso10126 toy.freeByte p0 :=
  ⟨by decide, rfl⟩

theorem witness_FullPaddingBlockCollapses :
    p0.length % toy.S = 0 ∧ ([0x5a, 0x11, 0x00, 0xff, 0x42, 0x99, 0x07, 0x08] : Bytes).length = toy.S ∧
    ([0x5a, 0x11, 0x00, 0xff, 0x42, 0x99, 0x07, 0x08] : Bytes).getLast?
      = some (BitVec.ofNat 8 toy.S) := by decide

theorem witness_StepFormulas :
    [Mode.ecb, .cbc, .pcbc, .cfb, .ofb, .ctr, .randomDelta].map (fun m => (driverA m .zeros).mode) =
      [.ecb, .cbc, .pcbc, .cfb, .ofb, .ctr, .randomDelta] := by decide

/-- A whole segment in OFB and in CTR: the keystream block is as long. -/
theorem witness_DecryptStepFormulas_keystream :
    p0.length ≤ ((driverA .ofb .zeros).enc p1).length ∧
    p0.length ≤ ((driverA .ctr .zeros).enc (counterBlock (driverA .ctr .zeros) 1)).length := by decide

/-- TOY8 satisfies the law of 00_scope.md R7. -/
theorem toy_cipherLaw : toy.CipherLaw := by
  intro key ks b hk hb
  have hk : (if key.length = 8 then some key else none) = some ks := hk
  split at hk
  case isFalse => cases hk
  case isTrue hlen =>
    cases hk
    match key, hlen with
    | [k0, k1, k2, k3, k4, k5, k6, k7], _ =>
      match b, hb with
      | [b0, b1, b2, b3, b4, b5, b6, b7], _ =>
        have hx : ∀ x y : Byte, x ^^^ y ^^^ y = x := by intro x y; rw [BitVec.xor_assoc]; simp
        simp [decWith, encWith, toy, fitBlock, zext, zeros, rep, xorBytes, Params.S, hx]

theorem witness_DecryptStepUndoesEncryptStep :
    toy.CipherLaw ∧ toy.setKey keyA = some keyA ∧ ivA.length = toy.S ∧ p0.length ≤ toy.S ∧
    (padded (contextA .cbc .pkcs7).mode = true → p0.length = toy.S) ∧
    (padded (contextA .cfb .pkcs7).mode = true → (p0.take 3).length = toy.S) :=
  ⟨toy_cipherLaw, by decide, by decide, by decide, by decide, by decide⟩

theorem witness_CounterBlockIsTheBigEndianSum : (contextA .ctr .zeros).iv.length = toy.S := by decide

theorem witness_EncryptionNeverCallsDec :
    padded (driverA .cfb .zeros).mode = false ∧ padded (driverA .ofb .zeros).mode = false ∧
    padded (driverA .ctr .zeros).mode = false := by decide

theorem witness_OutputLengths :
    (contextA .randomDelta .pkcs7).iv.length = toy.S ∧
    ((contextA .randomDelta .pkcs7).mode = .randomDelta → deltaA.length = toy.S) ∧
    padded (contextA .cbc .zeros).mode = true ∧ padded (contextA .cfb .zeros).mode = false ∧
    p0.length % toy.S = 0 := by decide

theorem witness_MessageRoundTrip :
    toy.CipherLaw ∧ toy.setKey keyA = some keyA ∧ (contextA .randomDelta .pkcs7).iv.length = toy.S ∧
    ((contextA .randomDelta .pkcs7).mode = .randomDelta → deltaA.length = toy.S) :=
  ⟨toy_cipherLaw, by decide, by decide, by decide⟩

/-- Two ENCRYPTs of the same three bytes, the second to another address. -/
theorem witness_EncryptIsDeterministic :
    ∃ t t', (busyTo 0x2000).Inv Config.chip ∧ (busyTo 0x3000).Inv Config.chip ∧
      (busyTo 0x2000).pending = some (latchTo 0x2000) ∧ (busyTo 0x3000).pending = some (latchTo 0x3000) ∧
      (busyTo 0x2000).ctx = some cfbContext ∧ (busyTo 0x3000).ctx = some cfbContext ∧
      (busyTo 0x2000).ks = (busyTo 0x3000).ks ∧
      (padded cfbContext.mode = true → cfbContext.pad ≠ .iso10126) ∧
      (busyTo 0x2000).mem.readRange (latchTo 0x2000).srcAddr.toNat (latchTo 0x2000).srcLen.toNat
        = (busyTo 0x3000).mem.readRange (latchTo 0x3000).srcAddr.toNat (latchTo 0x3000).srcLen.toNat ∧
      exec .encrypt (busyTo 0x2000) = .next t ∧ exec .encrypt (busyTo 0x3000) = .next t' ∧
      t.ecode = .none ∧ t'.ecode = .none := by
  obtain ⟨t, h1, h2⟩ := busyTo_next 0x2000 (.inl rfl)
  obtain ⟨t', h3, h4⟩ := busyTo_next 0x3000 (.inr rfl)
  exact ⟨t, t', busyTo_inv _, busyTo_inv _, rfl, rfl, rfl, rfl, rfl, by decide, rfl, h1, h3, h2, h4⟩

/-- Two slices whose lanes finish in the other order. -/
theorem witness_LaneOrderIsInvisible :
    independent (driverA .ctr .zeros).mode = true ∧ independent (driverA .ecb .zeros).mode = true ∧
    (∀ j, j < [[p0], [p1]].length → j ∈ [1, 0]) := by
  refine ⟨by decide, by decide, ?_⟩
  intro j h
  have h : j < 2 := h
  simp; omega

theorem witness_UpdateWithholdsTheRightBytes :
    paddedDecrypt .cbc .dec = true ∧ paddedDecrypt .cbc .enc = false ∧ paddedDecrypt .cfb .dec = false := by
  decide

theorem witness_StreamEqualsSingleShot :
    (contextA .cbc .pkcs7).iv.length = toy.S ∧
    ((contextA .cbc .pkcs7).mode = .randomDelta → deltaA.length = toy.S) ∧
    ([p0, [], p1.take 3] : List Bytes).flatten.length < 2 ^ 64 ∧
    (padded (contextA .cbc .pkcs7).mode = true → ([p0, p1] : List Bytes).flatten.length % toy.S = 0) := by
  decide

end Sys2Proof.Tests
end

section
/-! What CTX_CFG reads (10_state.md R38), and what leaves the context, and so CTX_CFG, as it was. -/

namespace Sys2Proof.Machine

/-- The fields and the reserved bits of R38. -/
theorem ctxCfgWord_layout {s : State} {c : Context} (h : s.ctx = some c) :
    (ctxCfgWord s).extractLsb' 0 3 = c.mode.bits ∧ (ctxCfgWord s).getLsbD 3 = false ∧
      (ctxCfgWord s).extractLsb' 4 2 = c.pad.bits ∧ (ctxCfgWord s).extractLsb' 6 2 = 0#2 ∧
      (ctxCfgWord s).getLsbD 8 = c.ivp ∧ (ctxCfgWord s).extractLsb' 9 23 = 0#23 := by
  simp only [ctxCfgWord, h]
  generalize c.mode.bits = mode, c.pad.bits = pad, c.ivp = ivp
  revert mode pad ivp
  decide

theorem ctxCfgWord_none {s : State} (h : s.ctx = none) : ctxCfgWord s = 0 := by simp [ctxCfgWord, h]

/-- CTX_CFG is a view of the context alone. -/
theorem readReg_ctxCfg_congr (P : Params) {s t : State} (h : t.ctx = s.ctx) :
    readReg P t .ctxCfg = readReg P s .ctxCfg := by simp [readReg, ctxCfgWord, h]

@[simp] theorem issue_ctx (s : State) (w : Word) : (issue s w).ctx = s.ctx := by
  unfold issue; split <;> rfl

@[simp] theorem writeReg_ctx (s : State) (r : Reg) (v : Word) : (writeReg s r v).ctx = s.ctx := by
  cases r with
  | cmd => exact issue_ctx s v
  | _ => rfl

/-- A register write that is not refused. -/
theorem hostRegWrite_next {off : BitVec 12} {bytes : Nat} {v : Word} {s t : State}
    (h : hostRegWrite off bytes v s = .next t) : t = writeReg s (regAt off) v := by
  unfold hostRegWrite at h
  split at h <;> cases h
  rfl

/-- The DMA transfer of a data command leaves the context, after a bus error too. -/
theorem transfer_ctx {P : Params} {l : Latch} {count wlen : Nat} {body : Bytes → State → Bytes × State}
    {s t : State} (hb : BodyFrame body) (h : transfer P l count wlen body s = .next t) :
    t.ctx = s.ctx := by
  obtain ⟨a, rfl⟩ | ⟨x, s1, a, bi, pv, hd, so, f, n, -, rfl⟩ := transfer_frame hb h
  · exact busError_ctx P l wlen _
  · rfl

/-- SET_KEY reports a key error or replaces st.KS. -/
theorem setKey_effect {P : Params} {l : Latch} {s t : State} (h : effectOf P .setKey l s = .next t) :
    t = complete .keyError 0 s ∨ ∃ ks, t = complete .none 0 { s with ks := some ks } := by
  simp only [effectOf] at h
  split at h
  · cases h
  · split at h <;> cases h
    · exact .inl rfl
    · exact .inr ⟨_, rfl⟩

/-- Every command but CTX_INIT and CTX_CLEAR leaves the context: a failed one by its completion record, a data
command by the frame of its transfer. -/
theorem exec_ctx {i : Instr} {s t : State} (h : exec i s = .next t)
    (hinit : ∀ mode pad, i ≠ .ctxInit mode pad) (hclear : i ≠ .ctxClear) : t.ctx = s.ctx := by
  obtain ⟨l, -, ⟨code, -, rfl⟩ | ⟨hchecks, heffect⟩⟩ := exec_next h
  · exact complete_ctx code 0 s
  · have hctx : needsContext i → s.ctx ≠ none := fun hi => ctx_of_checks hi hchecks
    cases i with
    | nop => cases heffect; rfl
    | ctxInit mode pad => exact absurd rfl (hinit mode pad)
    | ctxClear => exact absurd rfl hclear
    | setKey => obtain rfl | ⟨ks, rfl⟩ := setKey_effect heffect <;> rfl
    | encrypt =>
      obtain ⟨c, ks, -, -, -, htransfer⟩ := encrypt_effect (hctx trivial) heffect
      exact transfer_ctx (encryptBody_frame _ _) htransfer
    | decrypt =>
      obtain ⟨c, ks, -, -, -, htransfer⟩ := decrypt_effect (hctx trivial) heffect
      exact transfer_ctx (decryptBody_frame _) htransfer
    | streamBegin dir =>
      obtain ⟨-, rfl⟩ | ⟨c, -, hbegin⟩ := withContext_next heffect
      · rfl
      · cases hbegin; rfl
    | streamUpdate =>
      obtain ⟨c, ks, p, -, -, -, -, htransfer⟩ := update_effect (hctx trivial) heffect
      exact transfer_ctx (updateBody_frame _ _) htransfer
    | streamFinal =>
      obtain ⟨c, ks, p, -, -, -, -, htransfer⟩ := final_effect (hctx trivial) heffect
      exact transfer_ctx (finalBody_frame _ _ _) htransfer

/-- Settles O30: CTX_CFG is a view of the context, laid out as R38 says, and neither a command other than
CTX_INIT and CTX_CLEAR nor a register write touches the context. -/
theorem ctxCfgReadsTheContext : Obligations.CtxCfgReadsTheContext := by
  unfold Obligations.CtxCfgReadsTheContext
  refine ⟨fun s hs => congrArg some (ctxCfgWord_none hs),
    fun s c hc => ⟨ctxCfgWord s, rfl, ctxCfgWord_layout hc⟩, congrArg some (ctxCfgWord_none rfl),
    fun i s t h hinit hclear => ?_, fun s t off bytes v h => ?_⟩
  · exact readReg_ctxCfg_congr _ (exec_ctx h hinit hclear)
  · rw [hostRegWrite_next h]
    exact readReg_ctxCfg_congr _ (writeReg_ctx s _ v)

end Sys2Proof.Machine
end

section
/-! The register window by register name, and the byte lanes of the IV, DELTA and KEY windows (20_memory.md
R102, 10_state.md R51-R53). -/

namespace Sys2Proof.Machine

/-- The offset of every register selects that register (10_state.md R33). -/
@[simp] theorem regAt_regOffset (r : Reg) : regAt (regOffset r) = r := by
  cases r with
  | ivWord k => revert k; decide
  | deltaWord k => revert k; decide
  | keyWord k => revert k; decide
  | _ => rfl

/-- Every register is reached by an aligned 32-bit access (10_state.md R34). -/
@[simp] theorem wordAccess_regOffset (r : Reg) : wordAccess (regOffset r) 4 = true := by
  cases r with
  | ivWord k => revert k; decide
  | deltaWord k => revert k; decide
  | keyWord k => revert k; decide
  | _ => rfl

theorem hostRegWrite_regOffset (r : Reg) (v : Word) (s : State) :
    hostRegWrite (regOffset r) 4 v s = .next (writeReg s r v) := by
  simp [hostRegWrite]

theorem hostRegRead_regOffset_some {P : Params} {s : State} {r : Reg} {w : Word}
    (h : readReg P s r = some w) :
    hostRegRead P (regOffset r) 4 s = .next { s with answer := some (.word w) } := by
  simp [hostRegRead, h]

theorem hostRegRead_regOffset_none {P : Params} {s : State} {r : Reg} (h : readReg P s r = none) :
    hostRegRead P (regOffset r) 4 s = .fault (.noValue (absentOf r)) := by
  simp [hostRegRead, h]

/-- Settles O32: the offset of word `k` of a window is that of a register of its own, a write of it sets the
four lanes of `setWindowWord`, and a read of it is `windowWord`, or 0 for KEY. -/
theorem windowWordsAreLittleEndianLanes : Obligations.WindowWordsAreLittleEndianLanes := by
  unfold Obligations.WindowWordsAreLittleEndianLanes
  intro s v
  refine ⟨fun k hk => ?iv, fun k hk => ?delta, fun k hk => ?key, fun j hj hnone => ?ivAbsent,
    fun j hj hnone => ?deltaAbsent⟩
  case iv =>
    have hword : 4 * k + 3 < 32 := by omega
    exact ⟨_, hostRegWrite_regOffset (.ivWord ⟨k, hk⟩) v s, rfl, windowByte_setWindowWord s.iv k v hword,
      hostRegRead_regOffset_some (r := .ivWord ⟨k, hk⟩) (windowWord_setWindowWord s.iv k v hword)⟩
  case delta =>
    have hword : 4 * k + 3 < 32 := by omega
    exact ⟨_, hostRegWrite_regOffset (.deltaWord ⟨k, hk⟩) v s, rfl,
      windowByte_setWindowWord s.delta k v hword,
      hostRegRead_regOffset_some (r := .deltaWord ⟨k, hk⟩) (windowWord_setWindowWord s.delta k v hword)⟩
  case key =>
    have hword : 4 * k + 3 < 64 := by omega
    exact ⟨_, hostRegWrite_regOffset (.keyWord ⟨k, hk⟩) v s, rfl, windowByte_setWindowWord s.key k v hword,
      hostRegRead_regOffset_some (r := .keyWord ⟨k, hk⟩) rfl⟩
  case ivAbsent =>
    have hk : j / 4 < 8 := by omega
    exact hostRegRead_regOffset_none (r := .ivWord ⟨j / 4, hk⟩) (windowWord_none s.iv j hnone)
  case deltaAbsent =>
    have hk : j / 4 < 8 := by omega
    exact hostRegRead_regOffset_none (r := .deltaWord ⟨j / 4, hk⟩) (windowWord_none s.delta j hnone)

end Sys2Proof.Machine
end

section
/-! Which words the decoder rejects, in the bit fields of 30_encoding.md R140-R146, and what issue and perform
do with such a word. -/

namespace Sys2Proof.Machine

/-! ### Bit fields of a command word -/

/-- The word that is 1 exactly in the `n` bits from bit `i` on. -/
def fieldMask (i n : Nat) : Word := (BitVec.allOnes n).setWidth 32 <<< i

theorem and_fieldMask_eq_zero_iff {w : Word} {i n : Nat} (hn : i + n ≤ 32) :
    w &&& fieldMask i n = 0#32 ↔ w.extractLsb' i n = 0#n := by
  constructor
  · intro h
    ext j hj
    have hlt : i + j < 32 := by omega
    have hbit := congrArg (BitVec.getLsbD · (i + j)) h
    simpa [fieldMask, hlt, hj] using hbit
  · intro h
    ext j hj
    by_cases hin : i ≤ j ∧ j - i < n
    · obtain ⟨hij, hjn⟩ := hin
      have hbit := congrArg (BitVec.getLsbD · (j - i)) h
      have hw : w[j] = false := by simpa [hjn, Nat.add_sub_cancel' hij, hj] using hbit
      simp [hw]
    · have hmask : (fieldMask i n)[j] = false := by simp [fieldMask]; omega
      simp [hmask]

theorem and_or_eq_zero_iff {w a b : Word} : w &&& (a ||| b) = 0#32 ↔ w &&& a = 0#32 ∧ w &&& b = 0#32 := by
  rw [BitVec.and_or_distrib_left, BitVec.or_eq_zero_iff]

theorem extractLsb'_one_eq_zero_iff {w : Word} {i : Nat} :
    w.extractLsb' i 1 = 0#1 ↔ w.getLsbD i = false := by
  simp [BitVec.eq_of_getLsbD_eq_iff]

/-! ### The map of opcodes -/

/-- The opcodes of the map of 30_encoding.md R141. -/
def definedOpcodes : List (BitVec 8) :=
  [0x00#8, 0x01#8, 0x02#8, 0x03#8, 0x10#8, 0x11#8, 0x20#8, 0x21#8, 0x22#8]

/-- The four kinds of opcode in R142: not in the map, CTX_INIT, STREAM_BEGIN, and those that use OP alone. -/
theorem allowedBits_cases (op : BitVec 8) :
    (op ∉ definedOpcodes ∧ allowedBits op = none) ∨
    (op = 0x01#8 ∧ allowedBits op = some 0x000037FF#32) ∨
    (op = 0x20#8 ∧ allowedBits op = some 0x000100FF#32) ∨
    (op ∈ definedOpcodes ∧ op ≠ 0x01#8 ∧ op ≠ 0x20#8 ∧ allowedBits op = some 0x000000FF#32) := by
  revert op
  decide

/-- Of the defined opcodes only CTX_INIT has a field value that names no command: MODE = 7. -/
theorem commandOf_error_iff {w : Word} (hop : opField w ∈ definedOpcodes) :
    (∃ e, commandOf w = .error e) ↔ opField w = 0x01#8 ∧ modeField w = 7#3 := by
  simp only [definedOpcodes, List.mem_cons, List.not_mem_nil, or_false] at hop
  rcases hop with h | h | h | h | h | h | h | h | h
  case inr.inl => by_cases hmode : modeField w = 7#3 <;> simp [commandOf, h, hmode]
  all_goals simp [commandOf, h]

/-! ### The decoder's verdict -/

theorem decode_error_of_allowedBits_none {w : Word} (h : allowedBits (opField w) = none) :
    ∃ e, decode w = .error e := ⟨.unknownOpcode, by simp [decode, h]⟩

theorem decode_error_iff_of_allowedBits {w mask : Word} (h : allowedBits (opField w) = some mask) :
    (∃ e, decode w = .error e) ↔ w &&& ~~~mask ≠ 0#32 ∨ ∃ e, commandOf w = .error e := by
  by_cases hbits : w &&& ~~~mask = 0#32 <;> simp [decode, h, hbits]

/-- R142 for an opcode that uses OP alone. -/
theorem reservedBits_ne_zero_plain_iff {w : Word} :
    w &&& ~~~0x000000FF#32 ≠ 0#32 ↔ w.extractLsb' 8 24 ≠ 0#24 := by
  rw [Ne, show ~~~0x000000FF#32 = fieldMask 8 24 by decide, and_fieldMask_eq_zero_iff (by decide)]

/-- R142 for CTX_INIT, which uses OP, MODE and PAD. -/
theorem reservedBits_ne_zero_ctxInit_iff {w : Word} : w &&& ~~~0x000037FF#32 ≠ 0#32 ↔
    w.getLsbD 11 = true ∨ w.extractLsb' 14 2 ≠ 0#2 ∨ w.extractLsb' 16 16 ≠ 0#16 := by
  rw [Ne, show ~~~0x000037FF#32 = fieldMask 11 1 ||| (fieldMask 14 2 ||| fieldMask 16 16) by decide,
    and_or_eq_zero_iff, and_or_eq_zero_iff, and_fieldMask_eq_zero_iff (by decide),
    and_fieldMask_eq_zero_iff (by decide), and_fieldMask_eq_zero_iff (by decide),
    extractLsb'_one_eq_zero_iff, not_and_or, not_and_or, Bool.not_eq_false]

/-- R142 for STREAM_BEGIN, which uses OP and DIR. -/
theorem reservedBits_ne_zero_streamBegin_iff {w : Word} : w &&& ~~~0x000100FF#32 ≠ 0#32 ↔
    w.extractLsb' 8 8 ≠ 0#8 ∨ w.extractLsb' 17 15 ≠ 0#15 := by
  rw [Ne, show ~~~0x000100FF#32 = fieldMask 8 8 ||| fieldMask 17 15 by decide, and_or_eq_zero_iff,
    and_fieldMask_eq_zero_iff (by decide), and_fieldMask_eq_zero_iff (by decide), not_and_or]

/-- R146's three cases, by the kind of the opcode. -/
theorem decode_error_iff (w : Word) : (∃ e, decode w = .error e) ↔
    (opField w ∉ definedOpcodes
      ∨ (opField w = 0x01#8 ∧
          (w.getLsbD 11 = true ∨ w.extractLsb' 14 2 ≠ 0#2 ∨ w.extractLsb' 16 16 ≠ 0#16
            ∨ modeField w = 7#3))
      ∨ (opField w = 0x20#8 ∧ (w.extractLsb' 8 8 ≠ 0#8 ∨ w.extractLsb' 17 15 ≠ 0#15))
      ∨ (opField w ≠ 0x01#8 ∧ opField w ≠ 0x20#8 ∧ w.extractLsb' 8 24 ≠ 0#24)) := by
  obtain ⟨hop, hmask⟩ | ⟨hop, hmask⟩ | ⟨hop, hmask⟩ | ⟨hop, hinit, hbegin, hmask⟩ :=
    allowedBits_cases (opField w)
  · exact iff_of_true (decode_error_of_allowedBits_none hmask) (.inl hop)
  · have hdefined : 0x01#8 ∈ definedOpcodes := by decide
    rw [decode_error_iff_of_allowedBits hmask, commandOf_error_iff (hop ▸ hdefined),
      reservedBits_ne_zero_ctxInit_iff]
    simp [hop, hdefined, or_assoc]
  · have hdefined : 0x20#8 ∈ definedOpcodes := by decide
    rw [decode_error_iff_of_allowedBits hmask, commandOf_error_iff (hop ▸ hdefined),
      reservedBits_ne_zero_streamBegin_iff]
    simp [hop, hdefined]
  · rw [decode_error_iff_of_allowedBits hmask, commandOf_error_iff hop, reservedBits_ne_zero_plain_iff]
    simp [hop, hinit, hbegin]

/-! ### Issue and perform -/

theorem issue_idle {s : State} (h : s.pending = none) (w : Word) : issue s w = accept s w := by
  simp [issue, h]

/-- A failure leaves the completion record of R403 and nothing else. -/
theorem fail_eq_afterFailure {code : ErrorCode} (hcode : code ≠ .none) (s : State) :
    fail code s = .next (afterFailure code s) := by
  simp [fail, complete, afterFailure, hcode]

/-- An illegal word in flight is performed as BAD_CMD (30_encoding.md R146). -/
theorem engineTurn_illegal {s : State} {l : Latch} {e : DecodeError} (hp : s.pending = some l)
    (he : decode l.word = .error e) : engineTurn exec s = .next (afterFailure .badCmd s) := by
  simp only [engineTurn_pending hp, he]
  exact fail_eq_afterFailure (by decide) s

/-- Settles O4: R146's three cases are those of the mask of the opcode and of MODE = 7, issue latches any word
into an idle engine, and the engine's turn fails an illegal one. -/
theorem illegalWordsFailWithBadCmd : Obligations.IllegalWordsFailWithBadCmd := by
  unfold Obligations.IllegalWordsFailWithBadCmd
  refine ⟨decode_error_iff, fun s w hidle => ?issued, fun s l e => engineTurn_illegal⟩
  case issued =>
    have hwrite : hostRegWrite 0x000 4 w s = .next (issue s w) := hostRegWrite_regOffset .cmd w s
    exact ⟨accept s w, by rw [hwrite, issue_idle hidle], rfl, accept_pending s w⟩

end Sys2Proof.Machine
end

section
/-! The padding unit (40_padding.md R200-R215): the bytes that application appends, the block it completes, and
what removal strips from a final block. -/

namespace Sys2Proof.Machine

/-! ### Application -/

/-- Every kind appends to the message. -/
theorem isPrefix_padApply (S : Nat) (k : PaddingKind) (fill : Nat → Byte) (m : Bytes) :
    m <+: padApply S k fill m := by
  cases k with
  | zeros =>
    simp only [padApply, padApplyZeros]
    split
    · rename_i hlen
      rw [List.length_eq_zero_iff.mp hlen]
      exact List.nil_prefix
    · split
      · exact List.prefix_refl m
      · exact List.prefix_append _ _
  | pkcs7 => exact List.prefix_append _ _
  | ansiX923 => exact (List.prefix_append _ _).trans (List.prefix_append _ _)
  | iso10126 => exact (List.prefix_append _ _).trans (List.prefix_append _ _)

/-- The four lengths of R206 as two formulas: Zeros adds no block to an aligned message that is not empty. -/
theorem paddedLength_eq {S : Nat} (hS : 0 < S) (k : PaddingKind) (n : Nat) :
    paddedLength S k n = if k = .zeros then max S (S * ((n + S - 1) / S)) else S * (n / S + 1) := by
  cases k with
  | zeros =>
    simp only [paddedLength, if_true]
    split
    · rename_i hn
      rw [hn, Nat.div_eq_of_lt (by omega)]
      simp
    · have hceil : 1 ≤ (n + S - 1) / S := (Nat.one_le_div_iff hS).mpr (by omega)
      exact (max_eq_right (Nat.le_mul_of_pos_right S hceil)).symm
  | _ => rfl

/-- Settles O40: the length is R206's by `padApply_length`, and every kind appends to the message. -/
theorem paddedLengthIsAPositiveMultiple : Obligations.PaddedLengthIsAPositiveMultiple := by
  unfold Obligations.PaddedLengthIsAPositiveMultiple
  intro P k fill m
  rw [padApply_length P.S_pos]
  obtain ⟨hpos, hmul⟩ := paddedLength_pos_mul P.S_pos k m.length
  exact ⟨paddedLength_eq P.S_pos k m.length, hpos, hmul,
    (List.prefix_iff_eq_take.mp (isPrefix_padApply P.S k fill m)).symm⟩

/-- Settles O41: `p` is `padLength`, and the bytes are those of the branches of `padApply`. -/
theorem paddingBytesByKind : Obligations.PaddingBytesByKind := by
  unfold Obligations.PaddingBytesByKind
  rintro P fill m p rfl
  obtain ⟨hone, hle, hfull, -⟩ := padLength_bounds (n := m.length) P.S_pos
  refine ⟨hone, hle, hfull, by have := P.S_le; omega, rfl, rfl, rfl, fun hnil => ?empty,
    fun hne haligned => ?aligned, fun hrest => ?rest⟩
  case empty => simp [hnil, padApply, padApplyZeros, zeros, rep]
  case aligned => simp [hne, haligned, padApply, padApplyZeros]
  case rest =>
    have hlen : m.length ≠ 0 := fun h => hrest (by simp [h])
    simp only [padApply, padApplyZeros, if_neg hlen, if_neg hrest]
    rfl

/-! ### Removal from the final block -/

/-- The final block `b` carries `p` bytes of padding of kind `k` (R208-R210); Zeros has no count. -/
def CountedPadding (S : Nat) (b : Bytes) (p : Nat) : PaddingKind → Prop
  | .zeros => False
  | .pkcs7 => 1 ≤ p ∧ p ≤ S ∧ ∀ j, S - p ≤ j → j < S → b[j]? = some (BitVec.ofNat 8 p)
  | .ansiX923 => 1 ≤ p ∧ p ≤ S ∧ ∀ j, S - p ≤ j → j < S - 1 → b[j]? = some 0#8
  | .iso10126 => 1 ≤ p ∧ p ≤ S

/-- The comparison that PKCS7 removal makes is `CountedPadding`. -/
theorem pkcs7_check_iff {S p : Nat} {b : Bytes} (hb : b.length = S) :
    (1 ≤ p ∧ p ≤ S ∧ slice b (S - p) S = rep p (BitVec.ofNat 8 p)) ↔ CountedPadding S b p .pkcs7 := by
  rw [slice_last hb]
  exact and_congr_right fun _ => and_congr_right fun hle => drop_eq_rep_iff hb hle

/-- The comparison that ANSI_X923 removal makes is `CountedPadding`. -/
theorem ansiX923_check_iff {S p : Nat} {b : Bytes} (hb : b.length = S) :
    (1 ≤ p ∧ p ≤ S ∧ slice b (S - p) (S - 1) = zeros (p - 1)) ↔ CountedPadding S b p .ansiX923 :=
  and_congr_right fun hone => and_congr_right fun hle => slice_eq_zeros_iff hb hle hone

theorem removeLast_of_countedPadding {S : Nat} {b : Bytes} {k : PaddingKind} (hb : b.length = S)
    (h : CountedPadding S b (lastCount S b) k) : removeLast S k b = b.take (S - lastCount S b) := by
  rw [← slice_zero]
  cases k with
  | zeros => exact h.elim
  | pkcs7 => exact if_pos ((pkcs7_check_iff hb).mpr h)
  | ansiX923 => exact if_pos ((ansiX923_check_iff hb).mpr h)
  | iso10126 => exact if_pos h

/-- R212: a mismatch strips nothing. -/
theorem removeLast_of_not_countedPadding {S : Nat} {b : Bytes} {k : PaddingKind} (hb : b.length = S)
    (hk : k ≠ .zeros) (h : ¬ CountedPadding S b (lastCount S b) k) : removeLast S k b = b := by
  cases k with
  | zeros => exact absurd rfl hk
  | pkcs7 => exact if_neg (mt (pkcs7_check_iff hb).mp h)
  | ansiX923 => exact if_neg (mt (ansiX923_check_iff hb).mp h)
  | iso10126 => exact if_neg h

/-- Settles O42: the counted kinds strip what `CountedPadding` says, and Zeros its `trailingZeros`. -/
theorem removalStripsTheCountedPadding : Obligations.RemovalStripsTheCountedPadding := by
  unfold Obligations.RemovalStripsTheCountedPadding
  rintro P b p hb rfl
  refine ⟨removeLast_of_countedPadding (k := .pkcs7) hb,
    removeLast_of_not_countedPadding (k := .pkcs7) hb (by decide),
    removeLast_of_countedPadding (k := .ansiX923) hb,
    removeLast_of_not_countedPadding (k := .ansiX923) hb (by decide),
    removeLast_of_countedPadding (k := .iso10126) hb,
    removeLast_of_not_countedPadding (k := .iso10126) hb (by decide), fun t ht hrun hstop => ?zeros⟩
  case zeros =>
    simp only [removeLast, removeLastZeros, slice_zero, trailingZeros_eq hb ht hrun hstop]

/-! ### Removal of a counted padding just applied -/

/-- The count that removal reads is the last byte of the block. -/
theorem lastCount_of_getLast? {S : Nat} {b : Bytes} {v : Byte} (hb : b.length = S)
    (hv : b.getLast? = some v) : lastCount S b = v.toNat := by
  rw [List.getLast?_eq_getElem?, hb] at hv
  simp [lastCount, List.getD, hv]

/-- A counted padding ends in its count p. -/
theorem padApply_getLast? {S : Nat} (hS : 0 < S) {k : PaddingKind} (hk : k ≠ .zeros) (fill : Nat → Byte)
    (m : Bytes) : (padApply S k fill m).getLast? = some (BitVec.ofNat 8 (padLength S m.length)) := by
  obtain ⟨hone, -⟩ := padLength_bounds (n := m.length) hS
  cases k with
  | zeros => exact absurd rfl hk
  | pkcs7 =>
    have hp : padLength S m.length ≠ 0 := by omega
    simp [padApply, padApplyPkcs7, rep, List.getLast?_replicate, hp]
  | ansiX923 => simp [padApply, padApplyX923]
  | iso10126 => simp [padApply, padApplyIso]

/-- What is left of a message after its whole blocks is padded to one block. -/
theorem padApply_length_of_lt {S : Nat} {k : PaddingKind} (hk : k ≠ .zeros) (fill : Nat → Byte) {r : Bytes}
    (hr : r.length < S) : (padApply S k fill r).length = S := by
  have hS : 0 < S := by omega
  simp [padApply_length hS, paddedLength_eq hS, hk, Nat.div_eq_of_lt hr]

theorem padLength_of_lt {S n : Nat} (h : n < S) : padLength S n = S - n := by
  rw [padLength, Nat.mod_eq_of_lt h]

/-- Application makes the padding that removal looks for. -/
theorem countedPadding_padApply {S : Nat} {k : PaddingKind} (hk : k ≠ .zeros) (fill : Nat → Byte)
    {r : Bytes} (hr : r.length < S) : CountedPadding S (padApply S k fill r) (S - r.length) k := by
  have hlen := padApply_length_of_lt hk fill hr
  have hone : 1 ≤ S - r.length := by omega
  have hle : S - r.length ≤ S := by omega
  have hstart : S - (S - r.length) = r.length := by omega
  cases k with
  | zeros => exact absurd rfl hk
  | pkcs7 =>
    refine ⟨hone, hle, (drop_eq_rep_iff hlen hle).mp ?_⟩
    simp [padApply, padApplyPkcs7, padLength_of_lt hr, hstart]
  | ansiX923 =>
    refine ⟨hone, hle, (slice_eq_zeros_iff hlen hle hone).mp ?_⟩
    have hend : S - 1 = (r ++ zeros (S - r.length - 1)).length := by simp; omega
    simp only [padApply, padApplyX923, padLength_of_lt hr, slice, hstart]
    rw [hend, List.take_left, List.drop_left]
  | iso10126 => exact ⟨hone, hle⟩

theorem removeLast_padApply {S : Nat} (hS : S ≤ 32) {k : PaddingKind} (hk : k ≠ .zeros)
    (fill : Nat → Byte) {r : Bytes} (hr : r.length < S) : removeLast S k (padApply S k fill r) = r := by
  have hlen := padApply_length_of_lt hk fill hr
  have hcount : lastCount S (padApply S k fill r) = S - r.length := by
    rw [lastCount_of_getLast? hlen (padApply_getLast? (by omega) hk fill r), padLength_of_lt hr,
      padCount_toNat (by omega) hS]
  have hstart : S - (S - r.length) = r.length := by omega
  rw [removeLast_of_countedPadding hlen (hcount ▸ countedPadding_padApply hk fill hr), hcount, hstart]
  exact (List.prefix_iff_eq_take.mp (isPrefix_padApply S k fill r)).symm

/-- R214 for the counted kinds: both sides act on what is left after the whole blocks. -/
theorem padRemove_padApply {S : Nat} (hpos : 0 < S) (hS : S ≤ 32) {k : PaddingKind} (hk : k ≠ .zeros)
    (fill : Nat → Byte) (m : Bytes) : padRemove S k (padApply S k fill m) = m := by
  have hrest : (m.drop (m.length / S * S)).length < S := by
    rw [Nat.mul_comm, drop_blocks_length hpos]
    exact Nat.mod_lt _ hpos
  rw [padApply_split hpos (Nat.div_mul_le_self m.length S) hrest hk,
    padRemove_append k hpos (padApply_length_of_lt hk fill hrest), removeLast_padApply hS hk fill hrest,
    List.take_append_drop]

/-! ### Zeros -/

/-- Where the final S-aligned segment of a message of `n` bytes begins (R214). -/
def finalSegmentStart (S n : Nat) : Nat := S * ((n - 1) / S)

theorem finalSegmentStart_of_aligned {S n : Nat} (hS : 0 < S) (hn : n ≠ 0) (h : n % S = 0) :
    finalSegmentStart S n + S = n := by
  obtain ⟨q, rfl⟩ := Nat.dvd_of_mod_eq_zero h
  obtain ⟨q, rfl⟩ := Nat.exists_eq_succ_of_ne_zero (Nat.ne_zero_of_mul_ne_zero_right hn)
  have hdiv : (S * (q + 1) - 1) / S = q := by
    rw [Nat.mul_succ, Nat.add_sub_assoc hS, Nat.mul_add_div hS, Nat.div_eq_of_lt (by omega), Nat.add_zero]
  rw [finalSegmentStart, hdiv, Nat.mul_succ]

theorem finalSegmentStart_of_rest {S n : Nat} (hS : 0 < S) (h : n % S ≠ 0) :
    finalSegmentStart S n + n % S = n := by
  have hlt := Nat.mod_lt n hS
  have hdm := Nat.div_add_mod n S
  have hdiv : (n - 1) / S = n / S := by
    apply Nat.div_eq_of_lt_le
    · rw [Nat.mul_comm]; omega
    · rw [Nat.succ_mul, Nat.mul_comm]; omega
  rw [finalSegmentStart, hdiv, hdm]

/-- The final segment of a message that is not empty holds 1 to S bytes. -/
theorem finalSegmentStart_bounds {S n : Nat} (hS : 0 < S) (hn : n ≠ 0) :
    finalSegmentStart S n < n ∧ n ≤ finalSegmentStart S n + S := by
  have hlt := Nat.mod_lt n hS
  by_cases h : n % S = 0
  · have := finalSegmentStart_of_aligned hS hn h
    omega
  · have := finalSegmentStart_of_rest hS h
    omega

/-- The three cases of R205 in one: zeros fill the final segment up. -/
theorem padApply_zeros_eq {S : Nat} (hS : 0 < S) (fill : Nat → Byte) (m : Bytes) :
    padApply S .zeros fill m = m ++ zeros (S - (m.length - finalSegmentStart S m.length)) := by
  simp only [padApply, padApplyZeros]
  split
  · rename_i hlen
    simp [List.length_eq_zero_iff.mp hlen]
  · rename_i hlen
    split
    · rename_i haligned
      have hstart := finalSegmentStart_of_aligned hS hlen haligned
      rw [show S - (m.length - finalSegmentStart S m.length) = 0 by omega]
      simp
    · rename_i hrest
      have hstart := finalSegmentStart_of_rest hS hrest
      rw [padLength, show m.length - finalSegmentStart S m.length = m.length % S by omega]

/-- What Zeros leaves of a message: the trailing zeros of its final segment are gone. -/
theorem padRemove_padApply_zeros {S : Nat} (hS : 0 < S) (fill : Nat → Byte) (m : Bytes) :
    padRemove S .zeros (padApply S .zeros fill m) = m.take (finalSegmentStart S m.length)
      ++ (m.drop (finalSegmentStart S m.length)).rdropWhile (· == 0#8) := by
  have hlen : m.length - finalSegmentStart S m.length ≤ S := by
    by_cases hn : m.length = 0
    · omega
    · obtain ⟨-, hle⟩ := finalSegmentStart_bounds hS hn
      omega
  rw [padApply_zeros_eq hS]
  generalize finalSegmentStart S m.length = start at hlen
  have hblock : (m.drop start ++ zeros (S - (m.length - start))).length = S := by simp; omega
  calc padRemove S .zeros (m ++ zeros (S - (m.length - start)))
      = padRemove S .zeros (m.take start ++ (m.drop start ++ zeros (S - (m.length - start)))) := by
        rw [← List.append_assoc, List.take_append_drop]
    _ = m.take start ++ (m.drop start).rdropWhile (· == 0#8) := by
        rw [padRemove_append .zeros hS hblock, removeLast_zeros hblock, rdropWhile_append_zeros]

/-- Zeros undoes itself exactly where the final segment does not end in 00. -/
theorem padRemove_padApply_zeros_eq_self_iff {S : Nat} (hS : 0 < S) (fill : Nat → Byte) (m : Bytes) :
    padRemove S .zeros (padApply S .zeros fill m) = m ↔ m = [] ∨ m.getLast? ≠ some 0#8 := by
  rw [padRemove_padApply_zeros hS]
  by_cases hm : m = []
  · simp [hm]
  obtain ⟨hlt, -⟩ := finalSegmentStart_bounds hS (mt List.length_eq_zero_iff.mp hm)
  generalize finalSegmentStart S m.length = start at hlt
  have hlast : (m.drop start).getLast? = m.getLast? := by rw [List.getLast?_drop, if_neg (by omega)]
  calc m.take start ++ (m.drop start).rdropWhile (· == 0#8) = m
      ↔ m.take start ++ (m.drop start).rdropWhile (· == 0#8) = m.take start ++ m.drop start := by
        rw [List.take_append_drop]
    _ ↔ m.getLast? ≠ some 0#8 := by rw [List.append_right_inj, rdropWhile_zero_eq_self, hlast]
    _ ↔ m = [] ∨ m.getLast? ≠ some 0#8 := (or_iff_right hm).symm

/-- Settles O43: the counted kinds by `padRemove_padApply`, Zeros by its final segment. -/
theorem padRemoveUndoesPadApply : Obligations.PadRemoveUndoesPadApply := by
  unfold Obligations.PadRemoveUndoesPadApply
  intro P fill m
  exact ⟨fun k hk => padRemove_padApply P.S_pos P.S_le hk fill m,
    padRemove_padApply_zeros_eq_self_iff P.S_pos fill m,
    fun _ => padRemove_padApply_zeros P.S_pos fill m⟩

/-- Settles O44: removal is a left inverse whatever the draws; Zeros fills [41] and [41, 00] up to one block. -/
theorem padApplyIsInjective : Obligations.PadApplyIsInjective := by
  unfold Obligations.PadApplyIsInjective
  refine ⟨fun P k fill fill' m m' hk heq => ?counted, fun P fill => ?zeros⟩
  case counted =>
    calc m = padRemove P.S k (padApply P.S k fill m) := (padRemove_padApply P.S_pos P.S_le hk fill m).symm
      _ = padRemove P.S k (padApply P.S k fill' m') := by rw [heq]
      _ = m' := padRemove_padApply P.S_pos P.S_le hk fill' m'
  case zeros =>
    obtain ⟨n, hn⟩ := Nat.exists_eq_add_of_le P.four_le_S
    have hdiv : 1 / (4 + n) = 0 := Nat.div_eq_of_lt (by omega)
    rw [padApply_zeros_eq P.S_pos, padApply_zeros_eq P.S_pos, hn]
    simp [finalSegmentStart, hdiv, zeros, rep, show 4 + n - 1 = 4 + n - 2 + 1 by omega, List.replicate_succ]

/-! ### A final block that is all padding -/

/-- Padding whole blocks appends a block of its own. -/
theorem padLength_of_aligned {S n : Nat} (h : n % S = 0) : padLength S n = S := by simp [padLength, h]

/-- Settles O45: the PKCS7 and ANSI_X923 blocks are what application appends to `x`, a count of S strips a whole
ISO10126 block, and the zero block is all trailing zeros. -/
theorem fullPaddingBlockCollapses : Obligations.FullPaddingBlockCollapses := by
  unfold Obligations.FullPaddingBlockCollapses
  intro P x b hx hb
  have hpos := P.S_pos
  have happlied : ∀ k, k ≠ .zeros → padRemove P.S k (padApply P.S k (fun _ => 0) x) = x :=
    fun k hk => padRemove_padApply hpos P.S_le hk _ x
  refine ⟨?pkcs7, ?ansiX923, fun hlast => ?iso10126, ?zeros, fun k => padRemove_append k hpos hb⟩
  case pkcs7 =>
    simpa [padApply, padApplyPkcs7, padLength_of_aligned hx, rep] using happlied .pkcs7 (by decide)
  case ansiX923 =>
    simpa [padApply, padApplyX923, padLength_of_aligned hx, zeros, rep] using happlied .ansiX923 (by decide)
  case iso10126 =>
    have hcount : lastCount P.S b = P.S := by
      rw [lastCount_of_getLast? hb hlast, padCount_toNat le_rfl P.S_le]
    have hpadding : CountedPadding P.S b (lastCount P.S b) .iso10126 := ⟨by omega, by omega⟩
    rw [padRemove_append _ hpos hb, removeLast_of_countedPadding hb hpadding, hcount]
    simp
  case zeros =>
    have hzeros : (List.replicate P.S 0#8).length = P.S := List.length_replicate
    have hnone : (List.replicate P.S 0#8).rdropWhile (· == 0#8) = [] := rdropWhile_append_zeros [] P.S
    rw [padRemove_append _ hpos hzeros, removeLast_zeros hzeros, hnone, List.append_nil]

end Sys2Proof.Machine
end

section
/-! The mode drivers (41_mode_drivers.md R230-R254): the formulas of the block steps, the counter block, and what a
whole message and its decryption give. -/

namespace Sys2Proof.Machine

/-! ### Block steps -/

/-- Settles O46: each mode's step is its own definition. -/
theorem encryptStepFormulas : Obligations.EncryptStepFormulas := by
  unfold Obligations.EncryptStepFormulas
  intro d prev x i
  refine ⟨fun h => ?ecb, fun h => ?cbc, fun h => ?pcbc, fun h => ?cfb, fun h => ?ofb, fun h => ?ctr,
    fun h => ?randomDelta⟩ <;> simp only [blockStep, h] <;> rfl

/-- Exclusive-or with the keystream `ks`, cut to the segment both times, gives the segment back. -/
theorem xorBytes_keystream_twice {x ks : Bytes} (h : x.length ≤ ks.length) :
    xorBytes (xorBytes x (trunc x.length ks)) (trunc (xorBytes x (trunc x.length ks)).length ks) = x := by
  have hlen : x.length = (trunc x.length ks).length := by simp [h]
  rw [xorBytes_length_of_eq hlen]
  exact xorBytes_cancel hlen.le

/-- Settles O47: each mode's step is its own definition; OFB and CTR add the same keystream again. -/
theorem decryptStepFormulas : Obligations.DecryptStepFormulas := by
  unfold Obligations.DecryptStepFormulas
  intro d prev x i
  refine ⟨fun h => ?ecb, fun h => ?cbc, fun h => ?pcbc, fun h => ?cfb, fun h => ?ofb, fun h => ?ctr,
    fun h => ?randomDelta⟩ <;> simp only [blockStep, h]
  case ofb => exact ⟨rfl, rfl, xorBytes_keystream_twice⟩
  case ctr => exact ⟨rfl, rfl, xorBytes_keystream_twice⟩
  all_goals rfl

/-! ### The counter block -/

@[simp] theorem counterBlock_length (d : Driver) (i : Nat) : (counterBlock d i).length = d.size :=
  toBigEndian_length d.size _

theorem bigEndian_counterBlock (d : Driver) (i : Nat) :
    bigEndian (counterBlock d i) = (bigEndian d.iv + i % 2 ^ 64) % 256 ^ d.size := by
  rw [counterBlock, bigEndian_toBigEndian, Nat.mod_mod]

theorem counterBlock_zero {d : Driver} (hiv : d.iv.length = d.size) : counterBlock d 0 = d.iv := by
  have hlt : bigEndian d.iv < 256 ^ d.size := hiv ▸ bigEndian_lt d.iv
  rw [counterBlock, Nat.zero_mod, Nat.add_zero, Nat.mod_eq_of_lt hlt, ← hiv, toBigEndian_bigEndian]

/-- Settles O49: `toBigEndian` is inverse to `bigEndian` modulo 256^S. -/
theorem counterBlockIsTheBigEndianSum : Obligations.CounterBlockIsTheBigEndianSum := by
  unfold Obligations.CounterBlockIsTheBigEndianSum
  intro P ks c delta i
  exact ⟨counterBlock_length _ i, bigEndian_counterBlock _ i, fun hiv => counterBlock_zero hiv⟩

/-! ### Which steps use `D` -/

/-- R248 for one step: only the decrypt steps of the padded modes read `dec`. -/
theorem blockStep_with_dec {d : Driver} (dec' : Bytes → Bytes) {dir : Direction}
    (h : dir = .enc ∨ padded d.mode = false) (prev : Bytes) (i : Nat) (x : Bytes) :
    blockStep { d with dec := dec' } dir prev i x = blockStep d dir prev i x := by
  unfold blockStep
  cases dir with
  | enc => cases d.mode <;> rfl
  | dec =>
    have hm : padded d.mode = false := h.resolve_left (by decide)
    cases hmode : d.mode with
    | cfb | ofb | ctr => rfl
    | ecb | cbc | pcbc | randomDelta => simp [hmode, padded] at hm

/-- Settles O50, by induction on the segments. -/
theorem encryptionNeverCallsDec : Obligations.EncryptionNeverCallsDec := by
  unfold Obligations.EncryptionNeverCallsDec
  intro d dec' dir prev b xs h
  induction xs generalizing prev b with
  | nil => rfl
  | cons x xs ih => simp only [run, blockStep_with_dec dec' h, ih]

/-! ### Lengths of whole messages -/

theorem encMsg_length_padded {d : Driver} (hd : d.Sized) (hp : padded d.mode = true) (fill : Nat → Byte)
    (m : Bytes) : (encMsg d fill m).1.length = paddedLength d.size d.pad m.length := by
  rw [encMsg_length hd, if_pos hp]

theorem encMsg_length_unpadded {d : Driver} (hd : d.Sized) (hp : padded d.mode = false) (fill : Nat → Byte)
    (m : Bytes) : (encMsg d fill m).1.length = m.length := by
  rw [encMsg_length hd, if_neg (by simp [hp])]

/-- DecMsg of whole blocks in a padded mode loses what removal strips from the run's output. -/
theorem decMsg_length_padded {d : Driver} (hd : d.Sized) (hp : padded d.mode = true) {m : Bytes}
    (hm : m.length % d.size = 0) : ∃ t, t ≤ d.size ∧ (decMsg d m).1.length + t = m.length := by
  obtain ⟨hlen, -⟩ := run_segments_length hd .dec d.iv 0 m hd.iv (fun _ => hm)
  obtain ⟨t, ht, hremoved⟩ := padRemove_prefix hd.pos d.pad (hlen ▸ hm)
  exact ⟨t, ht, by simp only [decMsg, hp, if_true, hremoved, hlen]⟩

theorem decMsg_length_unpadded {d : Driver} (hd : d.Sized) (hp : padded d.mode = false) (m : Bytes) :
    (decMsg d m).1.length = m.length := by
  obtain ⟨hlen, -⟩ := run_segments_length hd .dec d.iv 0 m hd.iv (by simp [hp])
  simpa [decMsg, hp] using hlen

/-- Settles O51: a run keeps the length of its segments, and padding adds and removes R206's. -/
theorem outputLengths : Obligations.OutputLengths := by
  unfold Obligations.OutputLengths
  intro P ks c delta fill m hiv hdelta
  have hd := driverOf_sized (ks := ks) hiv hdelta
  refine ⟨fun hp hk => ?counted, fun hp hk => ?zeros,
    fun hp => ⟨encMsg_length_unpadded hd hp fill m, decMsg_length_unpadded hd hp m⟩,
    fun hp hm => decMsg_length_padded hd hp hm⟩
  case counted =>
    rw [encMsg_length_padded hd hp, driverOf_size, driverOf_pad, paddedLength_eq P.S_pos, if_neg hk]
  case zeros =>
    rw [encMsg_length_padded hd hp, driverOf_size, driverOf_pad, hk]
    simp only [paddedLength, List.length_eq_zero_iff]

/-! ### Decryption undoes encryption -/

/-- `D` undoes `E` on blocks, as the cipher law gives it under a key schedule that SetKey returned. -/
def Driver.DecUndoesEnc (d : Driver) : Prop := ∀ b, b.length = d.size → d.dec (d.enc b) = b

theorem driverOf_decUndoesEnc {P : Params} {key ks : Bytes} (hlaw : P.CipherLaw)
    (hkey : P.setKey key = some ks) (c : Context) (delta : Bytes) :
    (driverOf P ks c delta).DecUndoesEnc := fun b => hlaw key ks b hkey

/-- The decrypt steps of CBC, PCBC and RandomDelta take the chaining register off again. -/
theorem xorBytes_dec_enc_xorBytes {d : Driver} (hlaw : d.DecUndoesEnc) {prev x : Bytes}
    (hp : prev.length = d.size) (hx : x.length = d.size) :
    xorBytes (d.dec (d.enc (xorBytes x prev))) prev = x := by
  have hlen : x.length = prev.length := hx.trans hp.symm
  rw [hlaw _ ((xorBytes_length_of_eq hlen).trans hx)]
  exact xorBytes_cancel hlen.le

/-- In every mode the decrypt step undoes the encrypt step and reaches the same chaining register. -/
theorem blockStep_dec_enc {d : Driver} (hd : d.Sized) (hlaw : d.DecUndoesEnc) {prev x : Bytes} (i : Nat)
    (hp : prev.length = d.size) (hx : x.length ≤ d.size)
    (hfull : padded d.mode = true → x.length = d.size) :
    blockStep d .dec prev i (blockStep d .enc prev i x).1 = (x, (blockStep d .enc prev i x).2) := by
  have hkeystream : ∀ b, xorBytes (xorBytes x (trunc x.length (d.enc b)))
      (trunc (xorBytes x (trunc x.length (d.enc b))).length (d.enc b)) = x :=
    fun b => xorBytes_keystream_twice (hx.trans (hd.enc b).ge)
  have hchained : padded d.mode = true → xorBytes (d.dec (d.enc (xorBytes x prev))) prev = x :=
    fun h => xorBytes_dec_enc_xorBytes hlaw hp (hfull h)
  unfold blockStep
  cases hm : d.mode with
  | ecb => simp only [ecbDecrypt, ecbEncrypt, hlaw x (hfull (by rw [hm]; rfl))]
  | cbc => simp only [cbcDecrypt, cbcEncrypt, hchained (by rw [hm]; rfl)]
  | pcbc => simp only [pcbcDecrypt, pcbcEncrypt, hchained (by rw [hm]; rfl)]
  | randomDelta => simp only [randomDeltaDecrypt, randomDeltaEncrypt, hchained (by rw [hm]; rfl)]
  | cfb => simp only [cfbDecrypt, cfbEncrypt, hkeystream]
  | ofb => simp only [ofbDecrypt, ofbEncrypt, hkeystream]
  | ctr => simp only [ctrDecrypt, ctrEncrypt, hkeystream]

/-- Two pieces as long as the first segment of a message and the rest of it are cut apart again. -/
theorem segments_append_of_lengths {n : Nat} (hn : 0 < n) {m x y : Bytes} (hm : m ≠ [])
    (hx : x.length = (m.take n).length) (hy : y.length = (m.drop n).length) :
    segments n (x ++ y) = x :: segments n y := by
  have hpos := List.length_pos_of_ne_nil hm
  rw [List.length_take] at hx
  rw [List.length_drop] at hy
  have hne : x ≠ [] := List.ne_nil_of_length_pos (by omega)
  by_cases hle : n ≤ m.length
  · rw [segments_append hn x y (by rw [hx, Nat.min_eq_left hle, Nat.mod_self]),
      segments_single hne (by omega)]
    rfl
  · have hnil : y = [] := List.length_eq_zero_iff.mp (by omega)
    rw [hnil, List.append_nil, segments_single hne (by omega), segments_nil]

/-- Dropping a block leaves whole blocks whole. -/
theorem drop_length_mod {n : Nat} {m : Bytes} (h : m.length % n = 0) : (m.drop n).length % n = 0 := by
  by_cases hle : n ≤ m.length
  · rw [List.length_drop, ← Nat.mod_eq_sub_mod hle, h]
  · rw [List.drop_eq_nil_of_le (by omega), List.length_nil, Nat.zero_mod]

/-- The decrypt run over what the encrypt run gave: the message, the same chaining register, the same position. -/
theorem run_dec_enc {d : Driver} (hd : d.Sized) (hlaw : d.DecUndoesEnc) (m prev : Bytes) (b : BitVec 64)
    (hm : padded d.mode = true → m.length % d.size = 0) (hp : prev.length = d.size) :
    run d .dec prev b (segments d.size (run d .enc prev b (segments d.size m)).out) =
      { run d .enc prev b (segments d.size m) with out := m } := by
  induction m using segments_induction hd.pos generalizing prev b with
  | nil => simp [run]
  | cons m hne ih =>
    obtain ⟨hle, hfull⟩ := segments_fit hd.pos m hm
    rw [segments_cons hd.pos hne] at hle hfull ⊢
    have hmem : m.take d.size ∈ m.take d.size :: segments d.size (m.drop d.size) := List.mem_cons_self
    have hfirst : padded d.mode = true → (m.take d.size).length = d.size := fun h => hfull h _ hmem
    have hrest : padded d.mode = true → (m.drop d.size).length % d.size = 0 :=
      fun h => drop_length_mod (hm h)
    obtain ⟨hout, hprev⟩ := blockStep_length hd (dir := .enc) b.toNat hp (hle _ hmem) hfirst
    obtain ⟨hlen, -⟩ := run_segments_length hd .enc _ (b + 1) (m.drop d.size) hprev hrest
    simp only [run]
    rw [segments_append_of_lengths hd.pos hne hout hlen]
    simp only [run, blockStep_dec_enc hd hlaw b.toNat hp (hle _ hmem) hfirst, ih _ (b + 1) hrest hprev,
      List.take_append_drop]

/-- Decrypting the encryption of a message in a padded mode removes the padding just applied. -/
theorem decMsg_encMsg_padded {d : Driver} (hd : d.Sized) (hlaw : d.DecUndoesEnc) (hp : padded d.mode = true)
    (fill : Nat → Byte) (m : Bytes) :
    (decMsg d (encMsg d fill m).1).1 = padRemove d.size d.pad (padApply d.size d.pad fill m) := by
  obtain ⟨-, hmul⟩ := paddedLength_pos_mul hd.pos d.pad m.length
  have hblocks : (padApply d.size d.pad fill m).length % d.size = 0 := padApply_length hd.pos .. ▸ hmul
  have hrun := run_dec_enc hd hlaw _ d.iv 0 (fun _ => hblocks) hd.iv
  simp only [decMsg, encMsg, encSegments, hp, if_true, hrun]

theorem decMsg_encMsg_unpadded {d : Driver} (hd : d.Sized) (hlaw : d.DecUndoesEnc)
    (hp : padded d.mode = false) (fill : Nat → Byte) (m : Bytes) :
    (decMsg d (encMsg d fill m).1).1 = m := by
  have hrun := run_dec_enc hd hlaw m d.iv 0 (by simp [hp]) hd.iv
  simp only [decMsg, encMsg, encSegments, hp, Bool.false_eq_true, if_false, hrun]

/-- Settles O52: every run is undone, and removal undoes padding but for Zeros on a message that ends in 00. -/
theorem messageRoundTrip : Obligations.MessageRoundTrip := by
  unfold Obligations.MessageRoundTrip
  intro P key ks c delta fill m hlaw hkey hiv hdelta
  have hd := driverOf_sized (ks := ks) hiv hdelta
  have hundo := driverOf_decUndoesEnc hlaw hkey c delta
  cases hp : padded c.mode with
  | false => simp [decMsg_encMsg_unpadded hd hundo hp]
  | true =>
    rw [decMsg_encMsg_padded hd hundo hp, driverOf_size, driverOf_pad]
    by_cases hk : c.pad = .zeros
    · have hempty : m = [] → m.getLast? ≠ some 0#8 := by rintro rfl; simp
      rw [hk, padRemove_padApply_zeros_eq_self_iff P.S_pos, or_iff_right_of_imp hempty]
      simp
    · simp [hk, padRemove_padApply P.S_pos P.S_le hk]

end Sys2Proof.Machine
end

section
/-! The scheduler and the streams (42_scheduler_streaming.md R280-R291, 43_commands.md R336): lanes and chunks give
the ordered run, an update withholds what R290 says, and STREAM_BEGIN opens a stream. -/

namespace Sys2Proof.Machine

/-! ### Lanes -/

/-- The lanes' outputs in the order of their slices. -/
def laneOutputs (d : Driver) (dir : Direction) (prev : Bytes) (jobs : List (BitVec 64 × List Bytes)) :
    List Bytes :=
  jobs.map fun job => laneOutput d dir prev job.1 job.2

/-- Once every job is done, the table holds each job's output at its own place, whatever it held before. -/
theorem laneTable_of_all_done (d : Driver) (dir : Direction) (prev : Bytes)
    {jobs : List (BitVec 64 × List Bytes)} {order : List Nat} {table : List Bytes}
    (hlen : table.length = jobs.length) (hdone : ∀ j, j < jobs.length → j ∈ order) :
    laneTable d dir prev jobs order table = laneOutputs d dir prev jobs := by
  refine List.ext_getElem? fun j => ?_
  by_cases hj : j < jobs.length
  · rw [laneTable_get d dir prev jobs order table j jobs[j].1 jobs[j].2 (List.getElem?_eq_getElem hj)
      (hlen ▸ hj), if_pos (hdone j hj)]
    simp [laneOutputs, hj]
  · have hle := Nat.le_of_not_lt hj
    rw [List.getElem?_eq_none (by rwa [laneTable_length, hlen]),
      List.getElem?_eq_none (by rwa [laneOutputs, List.length_map])]

/-- In ECB and CTR each lane starts where the ordered run comes to its slice: from the same chaining register,
which these modes keep, and at the position after all earlier slices. -/
theorem laneOutputs_flatten {d : Driver} (hd : independent d.mode = true) (dir : Direction) (prev : Bytes)
    (b : BitVec 64) (slices : List (List Bytes)) :
    (laneOutputs d dir prev (withStarts b slices)).flatten = (run d dir prev b slices.flatten).out := by
  induction slices generalizing b with
  | nil => rfl
  | cons xs slices ih =>
    have hrest := ih (b + BitVec.ofNat 64 xs.length)
    rw [laneOutputs] at hrest
    rw [List.flatten_cons, run_append, run_independent hd, run_index, ← hrest]
    rfl

/-- Settles O54: the full table is the lanes' outputs in order, and they join to the ordered run's. -/
theorem laneOrderIsInvisible : Obligations.LaneOrderIsInvisible := by
  unfold Obligations.LaneOrderIsInvisible
  intro d dir prev b slices order hd hdone
  have hjobs := withStarts_length b slices
  rw [parallelRun, laneTable_of_all_done d dir prev (by rw [List.length_map, hjobs]) (hjobs ▸ hdone),
    laneOutputs_flatten hd]

/-! ### Internal chunks -/

/-- Settles O55, by induction on the chunks: `run_append` at each boundary. -/
theorem internalChunksAreInvisible : Obligations.InternalChunksAreInvisible := by
  unfold Obligations.InternalChunksAreInvisible
  intro d dir prev b chunks
  induction chunks generalizing prev b with
  | nil => rfl
  | cons xs chunks ih => simp only [chunkedRun, ih, List.flatten_cons, run_append]

/-! ### The update step -/

/-- R288's class of streams, as a proposition. -/
theorem paddedDecrypt_iff {mode : Mode} {dir : Direction} :
    paddedDecrypt mode dir = true ↔ padded mode = true ∧ dir = .dec := by
  simp [paddedDecrypt]

theorem blocksNow_eq (size : Nat) (mode : Mode) (dir : Direction) (len : Nat) :
    blocksNow size mode dir len =
      if padded mode = true ∧ dir = .dec then (if len = 0 then 0 else (len - 1) / size) else len / size := by
  simp only [blocksNow, paddedDecrypt_iff]

/-- An update runs over the blocks it processes now and withholds the rest (R291). -/
theorem updateStep_eq_run {d : Driver} {dir : Direction} {w : Carried} {m : Bytes} {n : Nat} {r : RunResult}
    (hn : n = blocksNow d.size d.mode dir (w.hold ++ m).length)
    (hr : r = run d dir w.prev w.index (segments d.size ((w.hold ++ m).take (n * d.size)))) :
    updateStep d dir w m = (r.out, ⟨r.prev, r.index, (w.hold ++ m).drop (n * d.size)⟩) := by
  subst hn hr
  simp only [updateStep, slice_zero, slice_to_end]

/-- Settles O57: the update is its run, and `blocksNow` leaves the bytes R290 allows. -/
theorem updateWithholdsTheRightBytes : Obligations.UpdateWithholdsTheRightBytes := by
  unfold Obligations.UpdateWithholdsTheRightBytes
  intro P ks c delta dir w m d b n r u h
  have hn : n = blocksNow P.S c.mode dir b.length := (blocksNow_eq ..).symm
  have hu : u = (r.out, ⟨r.prev, r.index, b.drop (n * P.S)⟩) := updateStep_eq_run hn rfl
  have hhold : h = b.drop (n * P.S) := congrArg (·.2.hold) hu
  have hle : n * P.S ≤ b.length := hn ▸ blocksNow_le P.S_pos
  have hlen : h.length = b.length - n * P.S := by rw [hhold, List.length_drop]
  obtain ⟨hplain, hpadded⟩ := blocksNow_rest (mode := c.mode) (dir := dir) (len := b.length) P.S_pos
  rw [← hn, ← hlen, ← Bool.not_eq_true, paddedDecrypt_iff] at hplain
  rw [← hn, ← hlen, paddedDecrypt_iff] at hpadded
  refine ⟨congrArg (·.1) hu, congrArg (·.2.prev) hu, congrArg (·.2.index) hu, ?split, by omega, hplain,
    fun hclass => ?bounds⟩
  case split => rw [hhold, List.take_append_drop]
  case bounds =>
    obtain ⟨hsome, hblock⟩ := hpadded hclass
    refine ⟨fun hb => hsome (List.length_pos_of_ne_nil hb).ne', hblock, fun hb => ?_⟩
    rw [hlen, hb, List.length_nil, Nat.zero_sub]

/-! ### STREAM_BEGIN -/

/-- A command whose first failing check reports `code` leaves that failure's record and nothing else
(60_exceptions.md R402, R403). -/
theorem exec_of_failed_check {i : Instr} {l : Latch} {s : State} {code : ErrorCode} (hp : s.pending = some l)
    (hcode : code ≠ .none) (h : firstFailure (checksOf Config.chip i l s) = some code) :
    exec i s = .next (afterFailure code s) := by
  rw [exec_eq_withChecks i hp, withChecks_fail s _ h]
  exact fail_eq_afterFailure hcode s

/-- A command whose checks pass has its effect. -/
theorem exec_of_checks_pass {i : Instr} {l : Latch} {s : State} (hp : s.pending = some l)
    (h : firstFailure (checksOf Config.chip i l s) = none) : exec i s = effectOf Config.chip i l s := by
  rw [exec_eq_withChecks i hp, withChecks_pass s _ h]

/-- R336's checks in their order: NO_CONTEXT, STREAM_STATE, NO_KEY. -/
theorem streamBegin_firstFailure (P : Params) (dir : Direction) (l : Latch) (s : State) :
    firstFailure (checksOf P (.streamBegin dir) l s) =
      if s.ctx = none then some .noContext
      else if s.streamOpen = true then some .streamState
      else if s.ks = none then some .noKey
      else none := by
  cases hctx : s.ctx with
  | none => simp [checksOf, firstFailure, hctx]
  | some c => simp [checksOf, firstFailure, hctx, State.keyValid]

/-- Settles O21: the first failing check of R336 is reported, and with none the stream opens from the context's
IV. -/
theorem streamBeginOpensTheStream : Obligations.StreamBeginOpensTheStream := by
  unfold Obligations.StreamBeginOpensTheStream
  refine ⟨by decide, by decide, fun s l dir hp => ⟨fun hctx => ?noContext, fun hctx hopen => ?streamState,
    fun hctx hopen hks => ?noKey⟩, fun s l c dir hp hctx hopen hks => ?opened⟩
  case noContext =>
    exact exec_of_failed_check hp (by decide) (by simp [streamBegin_firstFailure, hctx])
  case streamState =>
    exact exec_of_failed_check hp (by decide) (by simp [streamBegin_firstFailure, hctx, hopen])
  case noKey =>
    exact exec_of_failed_check hp (by decide) (by simp [streamBegin_firstFailure, hctx, hopen, hks])
  case opened =>
    rw [exec_of_checks_pass hp (by simp [streamBegin_firstFailure, hctx, hopen, hks]), effectOf,
      withContext_some _ hctx]
    rfl

end Sys2Proof.Machine
end

section
/-! Issue, and the context and key commands (43_commands.md R320, R330-R333, R340): what each leaves of the state,
and what leaves the context and the key as they were. -/

namespace Sys2Proof.Machine

/-! ### Issue and NOP -/

/-- Settles O11: a write to CMD is `issue`, which latches into an idle engine and sets REJ in a busy one. -/
theorem commandWriteIssuesOrIsRejected : Obligations.CommandWriteIssuesOrIsRejected := by
  unfold Obligations.CommandWriteIssuesOrIsRejected
  intro s w
  have hwrite : hostRegWrite 0x000 4 w s = .next (issue s w) := hostRegWrite_regOffset .cmd w s
  rw [hwrite]
  refine ⟨fun hidle => ?issued, fun l hp => ?rejected⟩
  case issued => rw [issue_idle hidle]; rfl
  case rejected => simp [issue, hp]

/-- NOP's only word is 0 (30_encoding.md R142). -/
theorem decode_error_of_nop_opcode {w : Word} (hop : w.extractLsb' 0 8 = 0#8) (hw : w ≠ 0#32) :
    ∃ e, decode w = .error e := by
  have hrest : w.extractLsb' 8 24 ≠ 0#24 := by
    have hfields : w.extractLsb' 8 24 ++ w.extractLsb' 0 8 = w := by
      rw [BitVec.extractLsb'_append_extractLsb'_eq_extractLsb' (by decide)]
      exact BitVec.extractLsb'_eq_self
    contrapose! hw
    rw [← hfields, hw, hop]
    rfl
  exact (decode_error_iff w).mpr (by simp [opField, hop, hrest])

/-- Settles O14: NOP has no check and no effect but completion, and R146 rejects every other word with OP = 0. -/
theorem nopOnlyCompletes : Obligations.NopOnlyCompletes := by
  unfold Obligations.NopOnlyCompletes
  refine ⟨fun s l hp => ⟨_, exec_of_checks_pass hp rfl, rfl, rfl⟩, by decide, fun s l hp hop hw => ?_⟩
  obtain ⟨e, he⟩ := decode_error_of_nop_opcode hop hw
  exact engineTurn_illegal hp he

/-! ### CTX_CLEAR -/

/-- Settles O17: CTX_CLEAR has no check; it closes an open stream and drops the context, which CTX_CFG mirrors. -/
theorem ctxClearEndsTheSession : Obligations.CtxClearEndsTheSession := by
  unfold Obligations.CtxClearEndsTheSession
  refine ⟨by decide, fun s l hp => ⟨_, exec_of_checks_pass hp rfl, ?_, rfl⟩⟩
  cases hopen : s.streamOpen <;> simp [closeStream, complete, hopen]

/-! ### SET_KEY -/

/-- R332's checks in their order: STREAM_STATE, KEY_ERROR. -/
theorem setKey_firstFailure (P : Params) (l : Latch) (s : State) :
    firstFailure (checksOf P .setKey l s) =
      if s.streamOpen = true then some .streamState
      else if MAXKEY < l.keyLen.toNat then some .keyError
      else none := by
  simp [checksOf, firstFailure]

theorem keyOperand_eq_some_iff {l : Latch} (hlen : l.keyLen.toNat ≤ MAXKEY) (key : Bytes) :
    keyOperand l = some key ↔
      key.length = l.keyLen.toNat ∧ ∀ j, j < l.keyLen.toNat → windowByte l.key j = key[j]? :=
  windowBytes_eq_some l.key key hlen

/-- Settles O18: the first failing check of R332 is reported, and with none the cipher core decides on the key
operand. -/
theorem setKeyFollowsTheCipherCore : Obligations.SetKeyFollowsTheCipherCore := by
  unfold Obligations.SetKeyFollowsTheCipherCore
  refine ⟨by decide, fun s l hp => ⟨fun hopen => ?streamState, fun hopen hlen => ?keyError⟩,
    fun s l key hp hopen hlen hkeyLen hkey => ?verdict⟩
  case streamState => exact exec_of_failed_check hp (by decide) (by simp [setKey_firstFailure, hopen])
  case keyError =>
    exact exec_of_failed_check hp (by decide) (by simp [setKey_firstFailure, hopen, MAXKEY, hlen])
  case verdict =>
    have hoperand : keyOperand l = some key := (keyOperand_eq_some_iff hlen key).mpr ⟨hkeyLen, hkey⟩
    rw [exec_of_checks_pass hp (by simp [setKey_firstFailure, hopen, MAXKEY, hlen.not_gt])]
    simp only [effectOf, hoperand, Config.chip]
    cases Config.setKey key with
    | none => rfl
    | some ks => rfl

/-! ### CTX_INIT -/

/-- MODE = 7 names no mode, which is R330's first check. -/
theorem ctxInit_firstFailure_reservedMode (P : Params) {mode : BitVec 3} (hmode : mode = 7) (pad : PaddingKind)
    (l : Latch) (s : State) : firstFailure (checksOf P (.ctxInit mode pad) l s) = some .badCmd := by
  simp [checksOf, (mode_none_iff mode).mpr hmode, firstFailure]

/-- R330's checks for a defined mode in their order: CTX_LOCKED, IV_LENGTH, DELTA_LENGTH. -/
theorem ctxInit_firstFailure (P : Params) {mode : BitVec 3} {m : Mode} (hm : Mode.ofBits mode = some m)
    (pad : PaddingKind) (l : Latch) (s : State) :
    firstFailure (checksOf P (.ctxInit mode pad) l s) =
      if s.ctx ≠ none then some .ctxLocked
      else if m ≠ .ecb ∧ l.ivLen.toNat ≠ 0 ∧ l.ivLen.toNat ≠ P.S then some .ivLength
      else if m = .randomDelta ∧ l.deltaLen.toNat ≠ P.S then some .deltaLength
      else none := by
  simp [checksOf, hm, firstFailure, State.ctxValid, Option.isSome_iff_ne_none, ivLengthFails_iff,
    deltaLengthFails_iff]

theorem ivOperand_eq_some_iff {P : Params} {m : Mode} {l : Latch} {iv : Bytes} :
    ivOperand P m l = some iv ↔
      if m ≠ .ecb ∧ l.ivLen.toNat = P.S then
        iv.length = P.S ∧ ∀ j, j < P.S → windowByte l.iv j = iv[j]?
      else iv = zeros P.S := by
  unfold ivOperand
  simp only [latchesIv_iff]
  split
  · exact windowBytes_eq_some l.iv iv P.S_le
  · rw [Option.some.injEq, eq_comm]

theorem deltaOperand_eq_some_iff {P : Params} {m : Mode} {l : Latch} {delta : Option Bytes} :
    deltaOperand P m l = some delta ↔
      if m = .randomDelta then
        ∃ x, delta = some x ∧ x.length = P.S ∧ ∀ j, j < P.S → windowByte l.delta j = x[j]?
      else delta = none := by
  unfold deltaOperand
  split
  · simp only [Option.map_eq_some_iff, windowBytes_eq_some l.delta _ P.S_le, and_comm, eq_comm (b := delta)]
  · rw [Option.some.injEq, eq_comm]

/-- The context that CTX_INIT creates from its operands. -/
theorem ctxInit_effect {P : Params} {mode : BitVec 3} {m : Mode} {l : Latch} {iv : Bytes} {delta : Option Bytes}
    (hm : Mode.ofBits mode = some m) (hiv : ivOperand P m l = some iv)
    (hdelta : deltaOperand P m l = some delta) (pad : PaddingKind) (s : State) :
    effectOf P (.ctxInit mode pad) l s =
      .next (complete .none 0 { s with ctx := some ⟨m, pad, latchesIv P m l, iv, delta⟩ }) := by
  simp only [effectOf, hm, hiv, hdelta]

/-- Settles O15: the first failing check of R330 is reported, and with none the context is made of the latched
operands. -/
theorem ctxInitCreatesTheContext : Obligations.CtxInitCreatesTheContext := by
  unfold Obligations.CtxInitCreatesTheContext
  refine ⟨fun s l mode pad hp => ⟨fun hmode => ?badCmd, fun hmode hctx => ?ctxLocked,
    fun hmode hctx hecb hzero hsize => ?ivLength, fun hmode hctx hiv hdelta => ?deltaLength⟩,
    fun s l mode pad m iv delta hp hctx hm hivLen hdeltaLen hiv hdelta => ?created⟩
  case badCmd =>
    exact exec_of_failed_check hp (by decide) (ctxInit_firstFailure_reservedMode _ hmode pad l s)
  case ctxLocked =>
    obtain ⟨m, hm⟩ := Option.ne_none_iff_exists'.mp (mt (mode_none_iff mode).mp hmode)
    exact exec_of_failed_check hp (by decide) (by simp [ctxInit_firstFailure _ hm, hctx])
  case ivLength =>
    obtain ⟨m, hm⟩ := Option.ne_none_iff_exists'.mp (mt (mode_none_iff mode).mp hmode)
    have hnotEcb : m ≠ .ecb := by
      rintro rfl
      exact hecb ((mode_ecb_iff mode).mp hm)
    exact exec_of_failed_check hp (by decide)
      (by simp [ctxInit_firstFailure _ hm, hctx, hnotEcb, hzero, hsize])
  case deltaLength =>
    have hm := (mode_randomDelta_iff mode).mpr hmode
    have hivPasses : ¬(l.ivLen.toNat ≠ 0 ∧ l.ivLen.toNat ≠ Config.chip.S) := by tauto
    exact exec_of_failed_check hp (by decide)
      (by rw [ctxInit_firstFailure _ hm]; simp [hctx, hivPasses, hdelta])
  case created =>
    have hpass : firstFailure (checksOf Config.chip (.ctxInit mode pad) l s) = none := by
      rw [ctxInit_firstFailure _ hm, if_neg (by simp [hctx]), if_neg (by tauto), if_neg (by tauto)]
    have hlatch : latchesIv Config.chip m l = decide (m ≠ .ecb ∧ l.ivLen.toNat = Config.chip.S) := by
      rw [Bool.eq_iff_iff, latchesIv_iff, decide_eq_true_iff]
    rw [exec_of_checks_pass hp hpass,
      ctxInit_effect hm (ivOperand_eq_some_iff.mpr hiv) (deltaOperand_eq_some_iff.mpr hdelta), hlatch]
    rfl

/-! ### The key across a command -/

/-- The DMA transfer of a data command leaves st.KS, after a bus error too. -/
theorem transfer_ks {P : Params} {l : Latch} {count wlen : Nat} {body : Bytes → State → Bytes × State}
    {s t : State} (hb : BodyFrame body) (h : transfer P l count wlen body s = .next t) : t.ks = s.ks := by
  obtain ⟨a, rfl⟩ | ⟨x, s1, a, bi, pv, hd, so, f, n, -, rfl⟩ := transfer_frame hb h
  · exact busError_ks P l wlen _
  · rfl

/-- The commands that move data end in a transfer within the frame of a body. -/
theorem transfer_of_data_effect {P : Params} {i : Instr} {l : Latch} {s t : State}
    (hdata : hasSource i ∨ i = .streamFinal) (hctx : s.ctx ≠ none) (h : effectOf P i l s = .next t) :
    ∃ count wlen body, BodyFrame body ∧ transfer P l count wlen body s = .next t := by
  cases i with
  | encrypt =>
    obtain ⟨c, ks, -, -, -, htransfer⟩ := encrypt_effect hctx h
    exact ⟨_, _, _, encryptBody_frame _ _, htransfer⟩
  | decrypt =>
    obtain ⟨c, ks, -, -, -, htransfer⟩ := decrypt_effect hctx h
    exact ⟨_, _, _, decryptBody_frame _, htransfer⟩
  | streamUpdate =>
    obtain ⟨c, ks, p, -, -, -, -, htransfer⟩ := update_effect hctx h
    exact ⟨_, _, _, updateBody_frame _ _, htransfer⟩
  | streamFinal =>
    obtain ⟨c, ks, p, -, -, -, -, htransfer⟩ := final_effect hctx h
    exact ⟨_, _, _, finalBody_frame _ _ _, htransfer⟩
  | _ => simp [hasSource] at hdata

/-- What a CTX_INIT that answers leaves. -/
theorem ctxInit_effect_next {P : Params} {mode : BitVec 3} {pad : PaddingKind} {l : Latch} {s t : State}
    (h : effectOf P (.ctxInit mode pad) l s = .next t) :
    t = complete .badCmd 0 s ∨ ∃ c, t = complete .none 0 { s with ctx := some c } := by
  simp only [effectOf] at h
  split at h
  · cases h; exact .inl rfl
  · split at h <;> cases h
    exact .inr ⟨_, rfl⟩

/-- Every command but SET_KEY leaves st.KS: a failed one by its completion record, a data command by the frame of
its transfer. -/
theorem exec_ks {i : Instr} {s t : State} (h : exec i s = .next t) (hkey : i ≠ .setKey) : t.ks = s.ks := by
  obtain ⟨l, -, ⟨code, -, rfl⟩ | ⟨hchecks, heffect⟩⟩ := exec_next h
  · exact complete_ks code 0 s
  · have hdata : hasSource i ∨ i = .streamFinal → needsContext i → t.ks = s.ks := fun hi hneeds => by
      obtain ⟨count, wlen, body, hb, htransfer⟩ :=
        transfer_of_data_effect hi (ctx_of_checks hneeds hchecks) heffect
      exact transfer_ks hb htransfer
    cases i with
    | nop => cases heffect; rfl
    | ctxInit mode pad => obtain rfl | ⟨c, rfl⟩ := ctxInit_effect_next heffect <;> rfl
    | ctxClear => cases heffect; exact closeStream_ks s
    | setKey => exact absurd rfl hkey
    | streamBegin dir =>
      obtain ⟨-, rfl⟩ | ⟨c, -, hbegin⟩ := withContext_next heffect
      · rfl
      · cases hbegin; rfl
    | encrypt | decrypt | streamUpdate => exact hdata (.inl trivial) trivial
    | streamFinal => exact hdata (.inr rfl) trivial

/-- Settles O25: the context by `exec_ctx`, the key by `exec_ks`. -/
theorem contextAndKeyChangeOnlyByTheirCommands : Obligations.ContextAndKeyChangeOnlyByTheirCommands := by
  unfold Obligations.ContextAndKeyChangeOnlyByTheirCommands
  exact fun i s t h => ⟨exec_ctx h, exec_ks h⟩

end Sys2Proof.Machine
end

section
/-! Failed checks, the interrupt line, and a CMD write beside a perform (60_exceptions.md R401-R405, R410): every
command that answers ends in the completion record, and no command sees the host's own registers. -/

namespace Sys2Proof.Machine

/-! ### Completion -/

/-- A command that moves data and whose checks pass completes with no error or with BUS_ERROR. -/
theorem data_effect_completes {P : Params} {i : Instr} {l : Latch} {s t : State}
    (h : effectOf P i l s = .next t) (hdata : hasSource i ∨ i = .streamFinal) (hctx : s.ctx ≠ none) :
    ∃ code n u, t = complete code n u ∧ (code = .none ∨ code = .busError) := by
  obtain ⟨count, wlen, body, -, htransfer⟩ := transfer_of_data_effect hdata hctx h
  obtain ⟨-, rfl⟩ | ⟨-, work, -, rfl⟩ := transfer_next htransfer
  · exact ⟨.busError, 0, _, rfl, .inr rfl⟩
  · exact ⟨.none, _, _, rfl, .inl rfl⟩

/-- A command whose checks pass and that answers completes with no error, with BUS_ERROR, or, at SET_KEY, with the
cipher core's KEY_ERROR, which leaves the rest of the state. -/
theorem effect_completes {P : Params} {i : Instr} {l : Latch} {s t : State}
    (hchecks : firstFailure (checksOf P i l s) = none) (h : effectOf P i l s = .next t) :
    ∃ code n u, t = complete code n u ∧
      (code = .none ∨ code = .busError ∨ (i = .setKey ∧ code = .keyError ∧ u = s)) := by
  have hctx : needsContext i → s.ctx ≠ none := fun hneeds => ctx_of_checks hneeds hchecks
  cases i with
  | nop => cases h; exact ⟨_, _, _, rfl, .inl rfl⟩
  | ctxInit mode pad =>
    obtain ⟨c, rfl⟩ : ∃ c, t = complete .none 0 { s with ctx := some c } := by
      cases hm : Mode.ofBits mode with
      | none => simp [checksOf, hm, firstFailure] at hchecks
      | some m =>
        simp only [effectOf, hm] at h
        split at h <;> cases h
        exact ⟨_, rfl⟩
    exact ⟨_, _, _, rfl, .inl rfl⟩
  | ctxClear => cases h; exact ⟨_, _, _, rfl, .inl rfl⟩
  | setKey =>
    obtain rfl | ⟨ks, rfl⟩ := setKey_effect h
    · exact ⟨_, _, _, rfl, .inr (.inr ⟨rfl, rfl, rfl⟩)⟩
    · exact ⟨_, _, _, rfl, .inl rfl⟩
  | streamBegin dir =>
    obtain ⟨hnone, -⟩ | ⟨c, -, hbegin⟩ := withContext_next h
    · exact absurd hnone (hctx trivial)
    · cases hbegin; exact ⟨_, _, _, rfl, .inl rfl⟩
  | encrypt | decrypt | streamUpdate =>
    obtain ⟨code, n, u, ht, hcode⟩ := data_effect_completes h (.inl trivial) (hctx trivial)
    exact ⟨code, n, u, ht, hcode.imp_right .inl⟩
  | streamFinal =>
    obtain ⟨code, n, u, ht, hcode⟩ := data_effect_completes h (.inr rfl) (hctx trivial)
    exact ⟨code, n, u, ht, hcode.imp_right .inl⟩

/-- Every command that answers ends in the completion record (43_commands.md R323). -/
theorem exec_completes {i : Instr} {s t : State} (h : exec i s = .next t) :
    ∃ code n u, t = complete code n u := by
  obtain ⟨l, -, ⟨code, -, rfl⟩ | ⟨hchecks, heffect⟩⟩ := exec_next h
  · exact ⟨code, 0, s, rfl⟩
  · obtain ⟨code, n, u, ht, -⟩ := effect_completes hchecks heffect
    exact ⟨code, n, u, ht⟩

/-- So does the perform of any word, legal or not (30_encoding.md R146). -/
theorem engineTurn_completes {s t : State} {l : Latch} (hp : s.pending = some l)
    (h : engineTurn exec s = .next t) : ∃ code n u, t = complete code n u := by
  rw [engineTurn_pending hp] at h
  split at h
  · exact exec_completes h
  · exact ⟨_, _, _, (fail_eq_next.mp h).symm⟩

/-! ### The lowest cause and its record -/

theorem complete_eq_afterFailure {code : ErrorCode} (hcode : code ≠ .none) (n : Nat) (s : State) :
    complete code n s = afterFailure code s := by
  simp [complete, afterFailure, hcode]

/-- A cause that no lower one precedes is the first check to fail. -/
theorem firstFailure_of_lowest_cause {i : Instr} {l : Latch} {s : State} {code : ErrorCode}
    (hcause : Cause Config.chip i l s code)
    (hlowest : ∀ c, ErrorCode.before c code → ¬ Cause Config.chip i l s c) :
    firstFailure (checksOf Config.chip i l s) = some code :=
  firstFailure_of_fires (fires_of_cause i l s code hcause hlowest)
    fun c hbefore hfires => hlowest c hbefore (cause_of_fires i l s c hfires)

/-- No code that a check reports is NONE. -/
theorem ne_none_of_firstFailure {P : Params} {i : Instr} {l : Latch} {s : State} {code : ErrorCode}
    (h : firstFailure (checksOf P i l s) = some code) : code ≠ .none := by
  obtain ⟨before, after, hsplit, -⟩ := firstFailure_some h
  exact ((checksOf_codes P i l s).2 (code, true) (by simp [hsplit])).1

/-- Settles O12: the checks of a command fail exactly on their causes, so that the first failing check is the lowest
cause, and an error past all checks is SET_KEY's verdict or a bus error. -/
theorem lowestCauseIsReported : Obligations.LowestCauseIsReported := by
  unfold Obligations.LowestCauseIsReported
  refine ⟨fun i l s code hp hcause hlowest => ?reported, fun i l s t hp h herror => ?caused⟩
  case reported =>
    have hfirst := firstFailure_of_lowest_cause hcause hlowest
    exact exec_of_failed_check hp (ne_none_of_firstFailure hfirst) hfirst
  case caused =>
    rw [exec_eq_withChecks i hp] at h
    obtain ⟨code, hfirst, rfl⟩ | ⟨hchecks, heffect⟩ := withChecks_next h
    · exact .inl (cause_of_firstFailure hfirst)
    · have hno := noCause_iff.mpr hchecks
      obtain ⟨code, n, u, rfl, hnone | hbus | ⟨hi, hkey, -⟩⟩ := effect_completes hchecks heffect
      · exact absurd hnone herror
      · exact .inr (.inr ⟨hno, hbus⟩)
      · exact .inr (.inl ⟨hno, hi, hkey⟩)

/-- Settles O13: a failing check, and the cipher core's refusal of a key, complete from the state as it was. -/
theorem failedCheckChangesOnlyTheRecord : Obligations.FailedCheckChangesOnlyTheRecord := by
  unfold Obligations.FailedCheckChangesOnlyTheRecord
  intro i s t h herror hnotBus
  obtain ⟨l, -, ⟨code, -, rfl⟩ | ⟨hchecks, heffect⟩⟩ := exec_next h
  · exact complete_eq_afterFailure herror 0 s
  · obtain ⟨code, n, u, rfl, hnone | hbus | ⟨-, -, rfl⟩⟩ := effect_completes hchecks heffect
    · exact absurd hnone herror
    · exact absurd hbus hnotBus
    · exact complete_eq_afterFailure herror n u

/-! ### A perform beside the host's own registers -/

/-- A change of the fields that no perform reads or writes: REJ, DONE_IE, the staging registers and windows
(10_state.md R54), and the model's own events and answer. -/
structure HostEdit where
  rej : Bool → Bool := id
  doneIe : Bool → Bool := id
  srcAddr : Word → Word := id
  srcLen : Word → Word := id
  dstAddr : Word → Word := id
  dstCap : Word → Word := id
  ivLen : Word → Word := id
  deltaLen : Word → Word := id
  keyLen : Word → Word := id
  iv : Window 32 → Window 32 := id
  delta : Window 32 → Window 32 := id
  key : Window 64 → Window 64 := id
  events : List Event → List Event := id
  answer : Option Answer → Option Answer := id

/-- The state after a host edit. -/
def HostEdit.apply (e : HostEdit) (s : State) : State :=
  { s with
    rej := e.rej s.rej
    doneIe := e.doneIe s.doneIe
    srcAddr := e.srcAddr s.srcAddr
    srcLen := e.srcLen s.srcLen
    dstAddr := e.dstAddr s.dstAddr
    dstCap := e.dstCap s.dstCap
    ivLen := e.ivLen s.ivLen
    deltaLen := e.deltaLen s.deltaLen
    keyLen := e.keyLen s.keyLen
    iv := e.iv s.iv
    delta := e.delta s.delta
    key := e.key s.key
    events := e.events s.events
    answer := e.answer s.answer }

section
variable (e : HostEdit)

@[simp] theorem HostEdit.apply_ctx (s : State) : (e.apply s).ctx = s.ctx := rfl
@[simp] theorem HostEdit.apply_ks (s : State) : (e.apply s).ks = s.ks := rfl
@[simp] theorem HostEdit.apply_prev (s : State) : (e.apply s).prev = s.prev := rfl
@[simp] theorem HostEdit.apply_pending (s : State) : (e.apply s).pending = s.pending := rfl

theorem closeStream_hostEdit (s : State) : closeStream (e.apply s) = e.apply (closeStream s) := by
  simp only [closeStream, apply_ite e.apply]
  rfl

theorem busError_hostEdit (P : Params) (l : Latch) (wlen : Nat) (s : State) :
    busError P l wlen (e.apply s) = e.apply (busError P l wlen s) := by
  rw [busError_eq, busError_eq]
  rfl

theorem answered_hostEdit (s : State) (n : Nat) : (e.apply s).answered n = e.apply (s.answered n) := by
  simp only [State.answered, apply_ite e.apply]
  rfl

theorem rangesAnswered_hostEdit (s : State) (count wlen : Nat) :
    (e.apply s).rangesAnswered count wlen = e.apply (s.rangesAnswered count wlen) := by
  simp only [State.rangesAnswered, answered_hostEdit]

theorem rangesAnswer_hostEdit (s : State) (count wlen : Nat) :
    rangesAnswer (e.apply s) count wlen = rangesAnswer s count wlen := by
  simp only [rangesAnswer, answered_hostEdit]
  rfl

/-- A transfer whose body does not see the edit does not see it either. -/
theorem transfer_hostEdit {P : Params} {l : Latch} {count wlen : Nat} {body : Bytes → State → Bytes × State}
    {s : State} (hbody : ∀ x u, body x (e.apply u) = ((body x u).1, e.apply (body x u).2)) :
    transfer P l count wlen body (e.apply s) = mapNext e.apply (transfer P l count wlen body s) := by
  cases hanswer : rangesAnswer s count wlen with
  | sideEffects =>
    rw [transfer_sideEffects hanswer, transfer_sideEffects ((rangesAnswer_hostEdit e s count wlen).trans hanswer)]
    rfl
  | refuses =>
    rw [transfer_refused hanswer, transfer_refused ((rangesAnswer_hostEdit e s count wlen).trans hanswer),
      rangesAnswered_hostEdit, busError_hostEdit]
    rfl
  | admits =>
    rw [transfer_admitted hanswer, transfer_admitted ((rangesAnswer_hostEdit e s count wlen).trans hanswer),
      rangesAnswered_hostEdit, hbody]
    rfl

theorem withContext_hostEdit {s : State} {k k' : Context → Result} (hk : ∀ c, k' c = mapNext e.apply (k c)) :
    withContext (e.apply s) k' = mapNext e.apply (withContext s k) := by
  unfold withContext
  simp only [HostEdit.apply_ctx]
  split
  · rfl
  · exact hk _

theorem withDriver_hostEdit {P : Params} {s : State} {c : Context} {k k' : Driver → Result}
    (hk : ∀ d, k' d = mapNext e.apply (k d)) :
    withDriver P (e.apply s) c k' = mapNext e.apply (withDriver P s c k) := by
  unfold withDriver
  simp only [HostEdit.apply_ks]
  split
  · rfl
  · split
    · rfl
    · exact hk _

theorem withCarried_hostEdit {s : State} {k k' : Carried → Result} (hk : ∀ w, k' w = mapNext e.apply (k w)) :
    withCarried (e.apply s) k' = mapNext e.apply (withCarried s k) := by
  unfold withCarried
  simp only [HostEdit.apply_prev]
  split
  · rfl
  · exact hk _

theorem checksOf_hostEdit (P : Params) (i : Instr) (l : Latch) (s : State) :
    checksOf P i l (e.apply s) = checksOf P i l s := rfl

theorem effectOf_hostEdit (P : Params) (i : Instr) (l : Latch) (s : State) :
    effectOf P i l (e.apply s) = mapNext e.apply (effectOf P i l s) := by
  cases i with
  | nop => rfl
  | ctxInit mode pad =>
    simp only [effectOf]
    split
    · rfl
    · split <;> rfl
  | ctxClear => simp only [effectOf, closeStream_hostEdit]; rfl
  | setKey =>
    simp only [effectOf]
    split
    · rfl
    · split <;> rfl
  | streamBegin dir => exact withContext_hostEdit e fun c => rfl
  | encrypt =>
    exact withContext_hostEdit e fun c => withDriver_hostEdit e fun d => transfer_hostEdit e fun x u => rfl
  | decrypt =>
    exact withContext_hostEdit e fun c => withDriver_hostEdit e fun d => transfer_hostEdit e fun x u => rfl
  | streamUpdate =>
    exact withContext_hostEdit e fun c => withDriver_hostEdit e fun d => withCarried_hostEdit e fun w =>
      transfer_hostEdit e fun x u => rfl
  | streamFinal =>
    exact withContext_hostEdit e fun c => withDriver_hostEdit e fun d => withCarried_hostEdit e fun w =>
      transfer_hostEdit e fun x u => rfl

/-- A host edit before a perform is the same edit after it. -/
theorem exec_hostEdit (i : Instr) (s : State) : exec i (e.apply s) = mapNext e.apply (exec i s) := by
  cases hp : s.pending with
  | none => rw [exec_idle i hp, exec_idle i (s := e.apply s) hp]; rfl
  | some l =>
    rw [exec_eq_withChecks i hp, exec_eq_withChecks i (s := e.apply s) hp, checksOf_hostEdit, effectOf_hostEdit]
    unfold withChecks
    split <;> rfl

theorem engineTurn_hostEdit (s : State) :
    engineTurn exec (e.apply s) = mapNext e.apply (engineTurn exec s) := by
  cases hp : s.pending with
  | none => simp only [engineTurn, HostEdit.apply_pending, hp]; rfl
  | some l =>
    rw [engineTurn_pending hp, engineTurn_pending (s := e.apply s) hp]
    cases decode l.word with
    | ok i => exact exec_hostEdit e i s
    | error _ => rfl

end

/-- A perform leaves DONE_IE: an edit that sets it to the value it has changes nothing before the perform, and so
nothing after it. -/
theorem engineTurn_doneIe {s t : State} (h : engineTurn exec s = .next t) : t.doneIe = s.doneIe := by
  have hsame : engineTurn exec s = mapNext (HostEdit.apply { doneIe := fun _ => s.doneIe }) (engineTurn exec s) :=
    engineTurn_hostEdit { doneIe := fun _ => s.doneIe } s
  rw [h] at hsame
  have hfixed : t = HostEdit.apply { doneIe := fun _ => s.doneIe } t := Host.Outcome.next.inj hsame
  rw [hfixed]
  rfl

/-! ### The interrupt line -/

/-- Settles O33: a perform raises DONE and leaves DONE_IE; the host's writes, issue and reset clear one of the
two. -/
theorem interruptLineFollowsDone : Obligations.InterruptLineFollowsDone := by
  unfold Obligations.InterruptLineFollowsDone
  refine ⟨fun s => rfl, fun s t l hp h => ?performed, fun s t v h hbit => ?acknowledged,
    fun s t v h hbit => ?masked, fun s t w hidle h => ?issued, fun s => rfl⟩
  case performed =>
    have hdoneIe := engineTurn_doneIe h
    obtain ⟨code, n, u, rfl⟩ := engineTurn_completes hp h
    simp [State.irq, ← hdoneIe]
  case acknowledged =>
    obtain rfl : t = writeReg s .status v := hostRegWrite_next h
    simp only [State.irq, writeReg, hbit, Bool.not_true, Bool.and_false, Bool.false_and]
  case masked =>
    obtain rfl : t = writeReg s .irqEn v := hostRegWrite_next h
    simp only [State.irq, writeReg, hbit, Bool.and_false]
  case issued =>
    obtain rfl : t = issue s w := hostRegWrite_next h
    simp [State.irq, issue_idle hidle]

/-! ### A CMD write and a perform together -/

/-- Settles O38: a write first only sets REJ, which no perform sees; a perform first leaves no command in flight. -/
theorem commandWriteAndPerformInBothOrders : Obligations.CommandWriteAndPerformInBothOrders := by
  unfold Obligations.CommandWriteAndPerformInBothOrders
  intro s l w hp
  refine ⟨⟨(commandWriteIssuesOrIsRejected s w).2 l hp, ?performed⟩, fun t h => ?issued⟩
  case performed => exact engineTurn_hostEdit { rej := fun _ => true } s
  case issued =>
    obtain ⟨code, n, u, rfl⟩ := engineTurn_completes hp h
    exact (commandWriteIssuesOrIsRejected _ w).1 (complete_pending code n u)

end Sys2Proof.Machine
end

section
/-! Re-keying and reset (70_reset_and_hazards.md R450, R460): what one step can do to st.KS, and what reset leaves
with no legal command to abandon. -/

namespace Sys2Proof.Machine

/-! ### Re-keying -/

@[simp] theorem writeReg_ks (s : State) (r : Reg) (v : Word) : (writeReg s r v).ks = s.ks := by
  cases r with
  | cmd => simp only [writeReg, issue]; split <;> rfl
  | _ => rfl

/-- SET_KEY inside a stream fails its first check (43_commands.md R332). -/
theorem exec_setKey_streamOpen {s : State} {l : Latch} (hp : s.pending = some l) (hopen : s.streamOpen = true) :
    exec .setKey s = .next (afterFailure .streamState s) :=
  exec_of_failed_check hp (by decide) (by simp [setKey_firstFailure, hopen])

/-- A perform changes st.KS only outside a stream: by `exec_ks` it is SET_KEY's, which an open stream fails. -/
theorem exec_ks_or_streamClosed {i : Instr} {s t : State} (h : exec i s = .next t) :
    t.ks = s.ks ∨ s.streamOpen = false := by
  by_cases hkey : i = .setKey
  · subst hkey
    obtain ⟨l, hp, -⟩ := exec_next h
    cases hopen : s.streamOpen with
    | false => exact .inr rfl
    | true =>
      rw [exec_setKey_streamOpen hp hopen] at h
      cases h
      exact .inl rfl
  · exact .inl (exec_ks h hkey)

/-- A step that changes st.KS leaves no command in flight, and no stream is open across it: it performs SET_KEY, or
it is a reset. -/
theorem step_ks_cases {s t : State} (h : step s = .next t) :
    t.ks = s.ks ∨ t.pending = none ∧ (s.streamOpen = false ∨ t.streamOpen = false) := by
  obtain ⟨s0, l, i, -, -, hexec, hs0⟩ | ⟨s0, l, -, rfl, hs0⟩ | ⟨rest, -, rfl⟩ |
    ⟨rest, off, b, hread⟩ | ⟨rest, r, v, rfl⟩ | ⟨rest, a, hread⟩ | ⟨rest, a, b, hwrite⟩ | ⟨rest, rfl⟩ :=
    step_cases h
  · have hsame : s0.ks = s.ks ∧ s0.streamOpen = s.streamOpen := by
      obtain rfl | ⟨rest, rfl⟩ := hs0 <;> exact ⟨rfl, rfl⟩
    obtain ⟨code, n, u, ht⟩ := exec_completes hexec
    rw [← hsame.1, ← hsame.2]
    exact (exec_ks_or_streamClosed hexec).imp_right fun hclosed => ⟨by rw [ht, complete_pending], .inl hclosed⟩
  · obtain rfl | ⟨rest, rfl⟩ := hs0 <;> exact .inl rfl
  · exact .inl rfl
  · obtain ⟨answer, rfl⟩ := hostRegRead_next hread
    exact .inl rfl
  · exact .inl (writeReg_ks _ r v)
  · obtain ⟨answer, free, rfl⟩ := hostMemRead_next hread
    exact .inl rfl
  · obtain rfl := hostMemWrite_next hwrite
    exact .inl rfl
  · exact .inr ⟨rfl, .inr rfl⟩

/-- Settles O39: a busy engine discards any word with REJ, an open stream fails SET_KEY, and a step that changes
st.KS has a closed stream on one side and no command in flight after it. -/
theorem rekeyNeverOverlaps : Obligations.RekeyNeverOverlaps := by
  unfold Obligations.RekeyNeverOverlaps
  refine ⟨fun s l hp => (commandWriteIssuesOrIsRejected s _).2 l hp,
    fun s l hp hopen => exec_setKey_streamOpen hp hopen, fun s t h hbefore hafter => ?stream,
    fun s t h hbefore hafter => ?command⟩
  case stream =>
    obtain hks | ⟨-, hclosed | hclosed⟩ := step_ks_cases h
    · exact hks
    · simp [hbefore] at hclosed
    · simp [hafter] at hclosed
  case command =>
    obtain hks | ⟨hidle, -⟩ := step_ks_cases h
    · exact hks
    · exact absurd hidle hafter

/-! ### Reset -/

theorem legalInFlight_eq_none {s : State} (h : ∀ l i, s.pending = some l → decode l.word ≠ .ok i) :
    legalInFlight s = none := by
  unfold legalInFlight
  split
  · rfl
  · split
    · exact absurd ‹_› (h _ _ ‹_›)
    · rfl

/-- With no legal command to abandon, reset changes no byte of memory and draws no free value. -/
theorem resetAction_idle {P : Params} {s : State} (h : legalInFlight s = none) :
    resetAction P s = { State.reset with
      mem := s.mem, free := s.free, busAnswers := s.busAnswers, events := s.events, answer := s.answer } := by
  simp only [resetAction, abandon, h]

/-- A window never written holds no byte (10_state.md R64). -/
theorem windowByte_unwritten (n j : Nat) : windowByte (Vector.replicate n none) j = none := by
  by_cases hj : j < n <;> simp [windowByte, hj]

theorem windowWord_unwritten (n k : Nat) : windowWord (Vector.replicate n none) k = none := by
  simp only [windowWord, windowByte_unwritten]

/-- Settles O34: with no legal command to abandon, the reset event is `State.reset` over the memory as it was; that
state's windows are unwritten, and every other register of it is a numeral. -/
theorem resetSetsEveryRegister : Obligations.ResetSetsEveryRegister := by
  unfold Obligations.ResetSetsEveryRegister
  refine ⟨fun s hlegal => ?reset, rfl, rfl, rfl, rfl, rfl, rfl, rfl, rfl, rfl,
    fun j => ⟨windowByte_unwritten 32 j, windowByte_unwritten 32 j, windowByte_unwritten 64 j⟩,
    fun r => ?registers⟩
  case reset =>
    have hnone := legalInFlight_eq_none hlegal
    exact ⟨_, (hostReset_idle hnone).trans (congrArg _ (resetAction_idle hnone)), rfl⟩
  case registers =>
    cases r with
    | ivWord k => exact windowWord_unwritten 32 k
    | deltaWord k => exact windowWord_unwritten 32 k
    | _ => rfl

end Sys2Proof.Machine
end

section
/-! The decoder and the encoder (30_encoding.md R140-R148): a command word is its fields, the decoder reads them
back, and a word that decodes has no other bit. -/

namespace Sys2Proof.Machine

/-! ### The fields of a command word -/

/-- Each bit of a command word comes from at most one of its fields (30_encoding.md R140). -/
theorem getLsbD_commandWord (op : BitVec 8) (mode : BitVec 3) (pad : BitVec 2) (dir : BitVec 1) {j : Nat}
    (hj : j < 32) : (commandWord (op.setWidth 32) mode pad dir).getLsbD j =
      if j < 8 then op.getLsbD j
      else if j < 12 then mode.getLsbD (j - 8)
      else if j < 16 then pad.getLsbD (j - 12)
      else dir.getLsbD (j - 16) := by
  have hop : 8 ≤ j → op.getLsbD j = false := BitVec.getLsbD_of_ge op j
  have hmode : 3 ≤ j - 8 → mode.getLsbD (j - 8) = false := BitVec.getLsbD_of_ge mode _
  have hpad : 2 ≤ j - 12 → pad.getLsbD (j - 12) = false := BitVec.getLsbD_of_ge pad _
  simp only [commandWord, BitVec.getLsbD_or, BitVec.getLsbD_setWidth, BitVec.getLsbD_shiftLeft]
  grind

section
variable (op : BitVec 8) (mode : BitVec 3) (pad : BitVec 2) (dir : BitVec 1)

theorem opField_commandWord : opField (commandWord (op.setWidth 32) mode pad dir) = op := by
  refine BitVec.eq_of_getLsbD_eq fun j hj => ?_
  simp (disch := omega) only [opField, BitVec.getLsbD_extractLsb', getLsbD_commandWord, if_pos, hj,
    if_true, Nat.zero_add, decide_true, Bool.true_and]

theorem modeField_commandWord : modeField (commandWord (op.setWidth 32) mode pad dir) = mode := by
  refine BitVec.eq_of_getLsbD_eq fun j hj => ?_
  simp (disch := omega) only [modeField, BitVec.getLsbD_extractLsb', getLsbD_commandWord, if_pos, if_neg, hj,
    Nat.add_sub_cancel_left, decide_true, Bool.true_and]

theorem padField_commandWord : padField (commandWord (op.setWidth 32) mode pad dir) = pad := by
  refine BitVec.eq_of_getLsbD_eq fun j hj => ?_
  simp (disch := omega) only [padField, BitVec.getLsbD_extractLsb', getLsbD_commandWord, if_pos, if_neg, hj,
    Nat.add_sub_cancel_left, decide_true, Bool.true_and]

theorem dirField_commandWord : dirField (commandWord (op.setWidth 32) mode pad dir) = dir := by
  refine BitVec.eq_of_getLsbD_eq fun j hj => ?_
  simp (disch := omega) only [dirField, BitVec.getLsbD_extractLsb', getLsbD_commandWord, if_neg, hj,
    Nat.add_sub_cancel_left, decide_true, Bool.true_and]

end

/-- The bits that no command uses (30_encoding.md R142). -/
theorem getLsbD_unusedBits {j : Nat} (hj : j < 32) : (~~~0x000137FF#32).getLsbD j =
    decide (j = 11 ∨ j = 14 ∨ j = 15 ∨ 17 ≤ j) := by
  revert j
  decide

/-- A word that is 0 outside the four fields is made of them. -/
theorem commandWord_of_fields {w : Word} (h : w &&& ~~~0x000137FF#32 = 0#32) :
    commandWord ((opField w).setWidth 32) (modeField w) (padField w) (dirField w) = w := by
  refine BitVec.eq_of_getLsbD_eq fun j hj => ?_
  have hunused : w.getLsbD j = true → ¬(j = 11 ∨ j = 14 ∨ j = 15 ∨ 17 ≤ j) := by
    have hbit := congrArg (BitVec.getLsbD · j) h
    simp only [BitVec.getLsbD_and, getLsbD_unusedBits hj, BitVec.getLsbD_zero, Bool.and_eq_false_imp,
      decide_eq_false_iff_not] at hbit
    exact hbit
  rw [getLsbD_commandWord _ _ _ _ hj]
  simp only [opField, modeField, padField, dirField, BitVec.getLsbD_extractLsb']
  split_ifs with hop hmode hpad
  all_goals
    simp (disch := omega) only [Nat.zero_add, Nat.add_sub_of_le]
    rw [Bool.and_eq_right_iff_imp, decide_eq_true_iff]
    intro hb
    have := hunused hb
    omega

/-! ### The decoder -/

theorem decode_eq_ok_iff {w : Word} {i : Instr} : decode w = .ok i ↔
    ∃ mask, allowedBits (opField w) = some mask ∧ w &&& ~~~mask = 0 ∧ commandOf w = .ok i := by
  cases hmask : allowedBits (opField w) with
  | none => simp [decode, hmask]
  | some mask => by_cases hbits : w &&& ~~~mask = 0#32 <;> simp [decode, hmask, hbits]

/-- A canonical word uses only the fields of its opcode, so that decoding it is reading its fields. -/
theorem decode_encode_eq_commandOf (i : Instr) : decode (encode i) = commandOf (encode i) := by
  obtain ⟨mask, hmask, hbits⟩ : Laws.FieldUse.Statement i := by
    cases i with
    | nop => exact Laws.FieldUse.nop
    | ctxInit mode pad => exact Laws.FieldUse.ctxInit mode pad
    | ctxClear => exact Laws.FieldUse.ctxClear
    | setKey => exact Laws.FieldUse.setKey
    | encrypt => exact Laws.FieldUse.encrypt
    | decrypt => exact Laws.FieldUse.decrypt
    | streamBegin dir => exact Laws.FieldUse.streamBegin dir
    | streamUpdate => exact Laws.FieldUse.streamUpdate
    | streamFinal => exact Laws.FieldUse.streamFinal
  simp only [decode, hmask, hbits, if_true]

@[simp] theorem PaddingKind_ofBits_bits (k : PaddingKind) : PaddingKind.ofBits k.bits = k := by
  cases k <;> rfl

theorem PaddingKind_bits_ofBits (b : BitVec 2) : (PaddingKind.ofBits b).bits = b := by
  revert b
  decide

@[simp] theorem Direction_ofBits_bits (dir : Direction) : Direction.ofBits dir.bits = dir := by
  cases dir <;> rfl

theorem Direction_bits_ofBits (b : BitVec 1) : (Direction.ofBits b).bits = b := by
  revert b
  decide

/-- The fields of the canonical word of a well-formed command name that command. -/
theorem commandOf_encode {i : Instr} (hi : i.wellFormed = true) : commandOf (encode i) = .ok i := by
  cases i with
  | ctxInit mode pad =>
    have hmode : mode ≠ 7#3 := by simpa [Instr.wellFormed, Instr.modeDefined] using hi
    have hop : opField (encode (.ctxInit mode pad)) = 0x01#8 := opField_commandWord 0x01 mode pad.bits 0
    have hmodeField : modeField (encode (.ctxInit mode pad)) = mode :=
      modeField_commandWord 0x01 mode pad.bits 0
    have hpadField : padField (encode (.ctxInit mode pad)) = pad.bits :=
      padField_commandWord 0x01 mode pad.bits 0
    simp [commandOf, hop, hmodeField, hpadField, hmode]
  | streamBegin dir => cases dir <;> rfl
  | _ => rfl

/-- Settles O2: decoding a canonical word is reading its fields, and they name the command. -/
theorem decodeOfEncode : Obligations.DecodeOfEncode := by
  unfold Obligations.DecodeOfEncode
  intro i hi
  rw [decode_encode_eq_commandOf, commandOf_encode hi]

theorem and_eq_zero_of_subset {w a b : Word} (h : w &&& a = 0#32) (hb : a &&& b = b) : w &&& b = 0#32 := by
  rw [← hb, ← BitVec.and_assoc, h, BitVec.zero_and]

/-- A field outside the mask of the opcode is 0 (30_encoding.md R142). -/
theorem unusedField_eq_zero {w mask : Word} (h : w &&& ~~~mask = 0#32) (i n : Nat) (hn : i + n ≤ 32)
    (hfield : ~~~mask &&& fieldMask i n = fieldMask i n) : w.extractLsb' i n = 0#n :=
  (and_fieldMask_eq_zero_iff hn).mp (and_eq_zero_of_subset h hfield)

/-- No opcode uses a bit outside the four fields (30_encoding.md R140, R142). -/
theorem unusedBits_of_allowedBits {op : BitVec 8} {mask : Word} (h : allowedBits op = some mask) :
    ~~~mask &&& ~~~0x000137FF#32 = ~~~0x000137FF#32 := by
  obtain ⟨-, hmask⟩ | ⟨-, hmask⟩ | ⟨-, hmask⟩ | ⟨-, -, -, hmask⟩ := allowedBits_cases op <;>
    rw [hmask] at h <;> cases h <;> decide

/-- A command that a word names has as its canonical word the fields of that word, where the ones its opcode does
not use are 0. -/
theorem encode_of_commandOf {w mask : Word} {i : Instr} (hmask : allowedBits (opField w) = some mask)
    (hbits : w &&& ~~~mask = 0#32) (h : commandOf w = .ok i) :
    encode i = commandWord ((opField w).setWidth 32) (modeField w) (padField w) (dirField w)
      ∧ i.wellFormed = true := by
  have hplain : mask = 0x000000FF#32 → modeField w = 0 ∧ padField w = 0 ∧ dirField w = 0 := by
    rintro rfl
    exact ⟨unusedField_eq_zero hbits 8 3 (by decide) (by decide),
      unusedField_eq_zero hbits 12 2 (by decide) (by decide),
      unusedField_eq_zero hbits 16 1 (by decide) (by decide)⟩
  have hopcode : ∀ k, (opField w).toNat = k → opField w = BitVec.ofNat 8 k := by
    rintro k rfl
    simp
  unfold commandOf at h
  split at h
  case h_2 hop =>
    rw [hopcode _ hop] at hmask ⊢
    obtain rfl : 0x000037FF#32 = mask := Option.some.inj hmask
    have hdir : dirField w = 0 := unusedField_eq_zero hbits 16 1 (by decide) (by decide)
    split at h
    · cases h
    · cases h
      rw [encode, PaddingKind_bits_ofBits, hdir]
      exact ⟨rfl, by simpa [Instr.wellFormed, Instr.modeDefined] using ‹modeField w ≠ 7›⟩
  case h_7 hop =>
    rw [hopcode _ hop] at hmask ⊢
    obtain rfl : 0x000100FF#32 = mask := Option.some.inj hmask
    have hmode : modeField w = 0 := unusedField_eq_zero hbits 8 3 (by decide) (by decide)
    have hpad : padField w = 0 := unusedField_eq_zero hbits 12 2 (by decide) (by decide)
    cases h
    rw [encode, Direction_bits_ofBits, hmode, hpad]
    exact ⟨rfl, rfl⟩
  case h_10 => cases h
  all_goals
    rename_i hop
    rw [hopcode _ hop] at hmask ⊢
    obtain ⟨hmode, hpad, hdir⟩ := hplain (Option.some.inj hmask).symm
    cases h
    rw [hmode, hpad, hdir]
    exact ⟨rfl, rfl⟩

/-- Settles O3: a word that decodes has no bit outside the fields, so that it is made of them, and the command it
decodes to has those fields. -/
theorem encodeOfDecode : Obligations.EncodeOfDecode := by
  unfold Obligations.EncodeOfDecode
  intro w i h
  obtain ⟨mask, hmask, hbits, hcommand⟩ := decode_eq_ok_iff.mp h
  obtain ⟨hencode, hwell⟩ := encode_of_commandOf hmask hbits hcommand
  rw [hencode, commandWord_of_fields (and_eq_zero_of_subset hbits (unusedBits_of_allowedBits hmask))]
  exact ⟨rfl, hwell⟩

/-- Settles O1: the sixteen words, decoded. -/
theorem sampleWordsDecode : Obligations.SampleWordsDecode := by
  unfold Obligations.SampleWordsDecode
  decide

end Sys2Proof.Machine
end

section
/-! The scheduler's path and whole streams (42_scheduler_streaming.md R280-R293): both are the ordered run, and a
block step is undone without any assumption on the context (41_mode_drivers.md R234-R247). -/

namespace Sys2Proof.Machine

/-! ### The scheduler's path -/

/-- Slices of at least one segment join to the segments they were cut from (R281, R285). -/
theorem flatten_cut {n : Nat} (hn : 0 < n) (xs : List Bytes) : (cut n xs).flatten = xs :=
  cut_flatten hn xs.length xs le_rfl

theorem chunkSegments_pos (P : Params) : 0 < chunkSegments P := le_max_left 1 _

/-- Every slice is dealt to a lane, and every lane finishes. -/
theorem mem_laneOrder (P : Params) {n j : Nat} (hj : j < n) : j ∈ laneOrder P n := by
  have hlane : laneOf P j < P.numLanes := Nat.mod_lt j (Nat.succ_pos _)
  exact List.mem_flatMap.mpr ⟨laneOf P j, List.mem_range.mpr hlane, by simp [hj]⟩

/-- Settles O56: the lanes' outputs join to the ordered run's (O54) and ECB and CTR keep the chaining register; the
chunks of the other modes are the ordered run (O55). -/
theorem schedulerRefinesTheOrderedRun : Obligations.SchedulerRefinesTheOrderedRun := by
  unfold Obligations.SchedulerRefinesTheOrderedRun
  intro P d dir prev b xs
  unfold engineRun
  split_ifs with hindependent hdirect
  · have hout := laneOrderIsInvisible d dir prev b (cut P.chunkCeil xs) _ hindependent
      (fun j => mem_laneOrder P)
    have hchunk : 0 < P.chunkCeil := Nat.succ_pos _
    rw [flatten_cut hchunk] at hout
    simp only [hout, ← run_index d dir xs prev b]
    exact congrArg (RunResult.mk _ · _) (run_independent hindependent dir prev b xs).symm
  · rfl
  · rw [internalChunksAreInvisible, flatten_cut (chunkSegments_pos P)]

/-! ### Streams -/

/-- The whole blocks of `m` processed so far: running on from the carried state is running from the start over those
blocks and the rest. -/
theorem StreamAfter.processed {d : Driver} (hS : 0 < d.size) {dir : Direction} {m out : Bytes} {c : Carried}
    (h : StreamAfter d dir m c out) :
    ∃ n, n * d.size ≤ m.length ∧ c.hold = m.drop (n * d.size) ∧ c.index = BitVec.ofNat 64 n ∧
      c.prev = (run d dir d.iv 0 (segments d.size (m.take (n * d.size)))).prev ∧
      ∀ rest, run d dir d.iv 0 (segments d.size (m.take (n * d.size) ++ rest)) =
        { run d dir c.prev c.index (segments d.size rest) with
          out := out ++ (run d dir c.prev c.index (segments d.size rest)).out } := by
  obtain ⟨n, hhold, hle, hout, hprev, hindex, hrun⟩ := h.n
  refine ⟨n, hle, hhold, hindex, hprev, fun rest => ?_⟩
  have hblocks : (m.take (n * d.size)).length % d.size = 0 := by simp [hle]
  rw [segments_append hS _ _ hblocks, run_append, ← hprev, ← hrun, ← hout]

/-- A hold of less than a block is no segment or one. -/
theorem segments_hold {n : Nat} {x : Bytes} (h : x.length < n) :
    segments n x = if x = [] then [] else [x] := by
  split_ifs with hx
  · rw [hx, segments_nil]
  · exact segments_single hx h.le

/-- The last run of a stream in a mode without padding covers the withheld bytes (R292). -/
theorem StreamAfter.final_unpadded {d : Driver} (hS : 0 < d.size) {dir : Direction} {m out : Bytes} {c : Carried}
    (h : StreamAfter d dir m c out) (hp : padded d.mode = false) (fill : Nat → Byte) :
    (out ++ (finalStep d dir fill c).1, (finalStep d dir fill c).2) =
      ((run d dir d.iv 0 (segments d.size m)).out, (run d dir d.iv 0 (segments d.size m)).index) := by
  have hclass : paddedDecrypt d.mode dir = false := by simp [paddedDecrypt, hp]
  obtain ⟨n, -, hhold, -, -, hrun⟩ := h.processed hS
  have hwhole := hrun c.hold
  rw [hhold, List.take_append_drop, ← hhold, segments_hold (h.plain hclass)] at hwhole
  simp only [finalStep, hclass, hp, Bool.false_eq_true, if_false, hwhole]

/-- What R292 still pads and processes at the end of an encryption stream completes the padded message. The position
tells an empty message from whole blocks only while it does not wrap. -/
theorem StreamAfter.padApply_eq {d : Driver} (hS : 0 < d.size) {m out : Bytes} {c : Carried}
    (h : StreamAfter d .enc m c out) (hm : m.length < 2 ^ 64) (fill : Nat → Byte) {n : Nat}
    (hle : n * d.size ≤ m.length) (hhold : c.hold = m.drop (n * d.size)) (hindex : c.index = BitVec.ofNat 64 n) :
    padApply d.size d.pad fill m = m.take (n * d.size) ++ finalTail d fill c := by
  have hlt : (m.drop (n * d.size)).length < d.size := hhold ▸ h.plain (by simp [paddedDecrypt])
  unfold finalTail
  by_cases hk : d.pad = .zeros
  · obtain ⟨-, hrest⟩ := blocks_and_rest hS hle hlt
    rw [← hhold] at hrest
    have hn : n < 2 ^ 64 := ((Nat.le_mul_of_pos_right n hS).trans hle).trans_lt hm
    have hstart : c.index = 0 ↔ n = 0 := by
      rw [hindex, ← BitVec.toNat_inj, BitVec.toNat_ofNat, Nat.mod_eq_of_lt hn]
      rfl
    have hempty : m.length = 0 ↔ n = 0 ∧ c.hold = [] := by
      rw [← List.length_eq_zero_iff, hhold, List.length_drop]
      constructor
      · intro h0
        exact ⟨by_contra fun hne => by have := Nat.mul_pos (Nat.pos_of_ne_zero hne) hS; omega, by omega⟩
      · rintro ⟨rfl, h0⟩
        simpa using h0
    have hjoin : m = m.take (n * d.size) ++ c.hold := by rw [hhold, List.take_append_drop]
    simp only [hk, if_true, padApply, padApplyZeros, hstart, ← hempty, padLength, ← hrest,
      List.length_eq_zero_iff]
    split_ifs with hnil hwhole
    · simp [hnil]
    · rwa [hwhole] at hjoin
    · rw [← List.append_assoc, ← hjoin]
  · rw [if_neg hk, hhold]
    exact padApply_split hS hle hlt hk

/-- The last run of a padded encryption stream covers what is left of the padded message (R292). -/
theorem StreamAfter.final_padded_enc {d : Driver} (hS : 0 < d.size) {m out : Bytes} {c : Carried}
    (h : StreamAfter d .enc m c out) (hm : m.length < 2 ^ 64) (hp : padded d.mode = true) (fill : Nat → Byte) :
    (out ++ (finalStep d .enc fill c).1, (finalStep d .enc fill c).2) = encMsg d fill m := by
  obtain ⟨n, hle, hhold, hindex, -, hrun⟩ := h.processed hS
  have hclass : paddedDecrypt d.mode .enc = false := by simp [paddedDecrypt]
  simp only [encMsg, encSegments, finalStep, hp, hclass, Bool.false_eq_true, if_true, if_false,
    h.padApply_eq hS hm fill hle hhold hindex, hrun]

/-- The final step of a padded decryption stream decrypts the withheld block and removes the padding from it, which
is where the whole message has its padding (R292, 40_padding.md R207). -/
theorem StreamAfter.final_padded_dec {d : Driver} (hd : d.Sized) {m out : Bytes} {c : Carried}
    (h : StreamAfter d .dec m c out) (hm : m.length % d.size = 0) (hp : padded d.mode = true) (fill : Nat → Byte) :
    (out ++ (finalStep d .dec fill c).1, (finalStep d .dec fill c).2) = decMsg d m := by
  obtain ⟨n, hle, hhold, -, hprev, hrun⟩ := h.processed hd.pos
  have hclass : paddedDecrypt d.mode .dec = true := by simp [paddedDecrypt, hp]
  obtain ⟨hsome, hblock⟩ := h.pd hclass
  have hwhole := hrun c.hold
  rw [hhold, List.take_append_drop, ← hhold] at hwhole
  simp only [finalStep, decMsg, hclass, hp, if_true, hwhole]
  split_ifs with hnil
  · have hmnil : m = [] := by_contra fun hne => by simpa [hnil] using hsome hne
    have hout : out = [] := by
      have hlen := congrArg RunResult.out hwhole
      simpa [hnil, hmnil, run] using hlen.symm
    simp [hnil, hout, run, padRemove]
  · have hpos := List.length_pos_of_ne_nil hnil
    have hlen : c.hold.length = d.size := by
      have hmod : c.hold.length % d.size = 0 := by
        rw [hhold, List.length_drop, ← hm, Nat.mul_comm]
        exact Nat.sub_mul_mod (Nat.mul_comm n d.size ▸ hle)
      exact le_antisymm hblock (Nat.le_of_dvd hpos (Nat.dvd_of_mod_eq_zero hmod))
    have hfirst : padded d.mode = true → (m.take (n * d.size)).length % d.size = 0 := fun _ => by simp [hle]
    obtain ⟨-, hprevLen⟩ := run_segments_length hd .dec d.iv 0 _ hd.iv hfirst
    obtain ⟨houtLen, -⟩ := run_segments_length hd .dec c.prev c.index c.hold (hprev ▸ hprevLen)
      (fun _ => by rw [hlen, Nat.mod_self])
    rw [segments_single hnil hblock] at houtLen ⊢
    rw [padRemove_append d.pad hd.pos (houtLen.trans hlen)]

/-- Settles O58: after the last chunk the carried state stands for one run over the whole blocks taken so far
(`streamFrom_after`), and the final step finishes the run over the whole message. -/
theorem streamEqualsSingleShot : Obligations.StreamEqualsSingleShot := by
  unfold Obligations.StreamEqualsSingleShot
  intro P ks c delta fill ms hiv hdelta hm
  have hd := driverOf_sized (ks := ks) hiv hdelta
  have hfinal : ∀ dir, ∃ w out, StreamAfter (driverOf P ks c delta) dir ms.flatten w out ∧
      streamFrom (driverOf P ks c delta) dir fill (streamStart (driverOf P ks c delta)) ms =
        (out ++ (finalStep (driverOf P ks c delta) dir fill w).1,
          (finalStep (driverOf P ks c delta) dir fill w).2) :=
    fun dir => streamFrom_after hd.pos dir fill ms [] _ [] (streamAfter_start _ hd.pos dir)
  refine ⟨?enc, fun hblocks => ?dec⟩
  case enc =>
    obtain ⟨w, out, hafter, hstream⟩ := hfinal .enc
    rw [hstream]
    cases hp : padded c.mode with
    | true => exact hafter.final_padded_enc hd.pos hm hp fill
    | false =>
      rw [hafter.final_unpadded hd.pos hp fill]
      simp [encMsg, encSegments, hp]
  case dec =>
    obtain ⟨w, out, hafter, hstream⟩ := hfinal .dec
    rw [hstream]
    cases hp : padded c.mode with
    | true => exact hafter.final_padded_dec hd (hblocks hp) hp fill
    | false =>
      rw [hafter.final_unpadded hd.pos hp fill]
      simp [decMsg, hp]

/-! ### One block step -/

/-- Settles O48: the decrypt formulas (O47) on what the encrypt formulas (O46) give. A chained mode takes the chaining
register off again after `D`, and the others add the same keystream twice. -/
theorem decryptStepUndoesEncryptStep : Obligations.DecryptStepUndoesEncryptStep := by
  unfold Obligations.DecryptStepUndoesEncryptStep
  intro P key ks c delta prev x i hlaw hkey hprev hx hfull
  have hundo := driverOf_decUndoesEnc hlaw hkey c delta
  have hkeystream : ∀ b, x.length ≤ ((driverOf P ks c delta).enc b).length := by simpa [driverOf] using hx
  obtain ⟨eEcb, eCbc, ePcbc, eCfb, eOfb, eCtr, eDelta⟩ :=
    encryptStepFormulas (driverOf P ks c delta) prev x i
  obtain ⟨dEcb, dCbc, dPcbc, dCfb, dOfb, dCtr, dDelta⟩ :=
    decryptStepFormulas (driverOf P ks c delta) prev (blockStep (driverOf P ks c delta) .enc prev i x).1 i
  cases hm : c.mode with
  | ecb => rw [dEcb hm, eEcb hm, hundo x (hfull (by rw [hm]; rfl))]
  | cbc => rw [dCbc hm, eCbc hm, xorBytes_dec_enc_xorBytes hundo hprev (hfull (by rw [hm]; rfl))]
  | pcbc => rw [dPcbc hm, ePcbc hm, xorBytes_dec_enc_xorBytes hundo hprev (hfull (by rw [hm]; rfl))]
  | randomDelta => rw [dDelta hm, eDelta hm, xorBytes_dec_enc_xorBytes hundo hprev (hfull (by rw [hm]; rfl))]
  | cfb =>
    rw [dCfb hm, eCfb hm]
    exact congrArg (Prod.mk · _) (xorBytes_keystream_twice (hkeystream prev))
  | ofb =>
    obtain ⟨-, hdec, -⟩ := dOfb hm
    rw [hdec, eOfb hm]
    exact congrArg (Prod.mk · _) (xorBytes_keystream_twice (hkeystream prev))
  | ctr =>
    obtain ⟨-, hdec, -⟩ := dCtr hm
    rw [hdec, eCtr hm]
    exact congrArg (Prod.mk · _) (xorBytes_keystream_twice (hkeystream _))

end Sys2Proof.Machine
end

section
/-! The data commands in one shape: ENCRYPT, DECRYPT, STREAM_UPDATE and STREAM_FINAL are a DMA transfer over their
ranges (20_memory.md R106) with a body of their own (43_commands.md R334, R335, R337, R338). -/

namespace Sys2Proof.Machine

/-! ### A data command is a transfer -/

/-- The commands with a source or a write range (20_memory.md R106). -/
def movesData (i : Instr) : Prop := hasSource i ∨ i = .streamFinal

/-- What a data command computes under context `c`, key schedule `ks` and, in a stream, chaining register `p`. -/
def bodyOf (P : Params) (i : Instr) (s : State) (c : Context) (ks p : Bytes) : Bytes → State → Bytes × State :=
  match i with
  | .encrypt => encryptBody P (driverOf P ks c (c.delta.getD []))
  | .decrypt => decryptBody (driverOf P ks c (c.delta.getD []))
  | .streamUpdate => updateBody (driverOf P ks c (c.delta.getD [])) ⟨p, s.blkIdx, s.hold⟩
  | .streamFinal => fun _ s1 => finalBody P (driverOf P ks c (c.delta.getD [])) ⟨p, s.blkIdx, s.hold⟩ s1
  | _ => fun _ s1 => ([], s1)

/-- The values that a data command consumes are there (10_state.md R64). -/
structure Ready (i : Instr) (s : State) (c : Context) (ks p : Bytes) : Prop where
  ctx : s.ctx = some c
  key : s.ks = some ks
  delta : c.mode = .randomDelta → c.delta.isSome = true
  prev : i = .streamUpdate ∨ i = .streamFinal → s.prev = some p

/-- With its values there, the effect of a data command is its transfer. -/
theorem effectOf_eq_transfer {P : Params} {i : Instr} {l : Latch} {s : State} {c : Context} {ks p : Bytes}
    (hi : movesData i) (hr : Ready i s c ks p) :
    effectOf P i l s = transfer P l (sourceCount i l) (writeBound P i l s) (bodyOf P i s c ks p) s := by
  cases i with
  | encrypt | decrypt =>
    simp only [effectOf, withContext_some _ hr.ctx, withDriver_some _ hr.key hr.delta, writeBound, hr.ctx]
    rfl
  | streamUpdate =>
    simp only [effectOf, withContext_some _ hr.ctx, withDriver_some _ hr.key hr.delta,
      withCarried_some _ (hr.prev (.inl rfl)), writeBound, hr.ctx]
    rfl
  | streamFinal =>
    simp only [effectOf, withContext_some _ hr.ctx, withDriver_some _ hr.key hr.delta,
      withCarried_some _ (hr.prev (.inr rfl)), writeBound, hr.ctx]
    rfl
  | _ => simp [movesData, hasSource] at hi

/-- A data command that had its effect found its values. -/
theorem ready_of_effect {P : Params} {i : Instr} {l : Latch} {s t : State} (hi : movesData i) (hctx : s.ctx ≠ none)
    (h : effectOf P i l s = .next t) : ∃ c ks p, Ready i s c ks p := by
  cases i with
  | encrypt =>
    obtain ⟨c, ks, hc, hks, hdelta, -⟩ := encrypt_effect hctx h
    exact ⟨c, ks, [], hc, hks, hdelta, by simp⟩
  | decrypt =>
    obtain ⟨c, ks, hc, hks, hdelta, -⟩ := decrypt_effect hctx h
    exact ⟨c, ks, [], hc, hks, hdelta, by simp⟩
  | streamUpdate =>
    obtain ⟨c, ks, p, hc, hks, hp, hdelta, -⟩ := update_effect hctx h
    exact ⟨c, ks, p, hc, hks, hdelta, fun _ => hp⟩
  | streamFinal =>
    obtain ⟨c, ks, p, hc, hks, hp, hdelta, -⟩ := final_effect hctx h
    exact ⟨c, ks, p, hc, hks, hdelta, fun _ => hp⟩
  | _ => simp [movesData, hasSource] at hi

theorem needsContext_of_movesData {i : Instr} (hi : movesData i) : needsContext i := by
  cases i <;> simp [movesData, hasSource, needsContext] at hi ⊢

/-- What a data command whose checks passed and that answers came through. -/
theorem transfer_of_effect {P : Params} {i : Instr} {l : Latch} {s t : State} (hi : movesData i)
    (hchecks : firstFailure (checksOf P i l s) = none) (h : effectOf P i l s = .next t) :
    ∃ c ks p, Ready i s c ks p ∧
      transfer P l (sourceCount i l) (writeBound P i l s) (bodyOf P i s c ks p) s = .next t := by
  obtain ⟨c, ks, p, hr⟩ := ready_of_effect hi (ctx_of_checks (needsContext_of_movesData hi) hchecks) h
  exact ⟨c, ks, p, hr, effectOf_eq_transfer hi hr ▸ h⟩

theorem bodyOf_frame (P : Params) (i : Instr) (s : State) (c : Context) (ks p : Bytes) :
    BodyFrame (bodyOf P i s c ks p) := by
  cases i with
  | encrypt => exact encryptBody_frame P _
  | decrypt => exact decryptBody_frame _
  | streamUpdate => exact updateBody_frame _ _
  | streamFinal => exact finalBody_frame P _ _
  | _ => exact fun _ s1 => ⟨s1.prev, s1.blkIdx, s1.hold, s1.streamOpen, s1.free, rfl⟩

/-! ### What the checks and the invariant give a data command -/

/-- From a state with the invariant a data command whose checks pass finds its values, the blocks of the context
and of the chaining register as long as they should be. -/
theorem ready_of_inv {i : Instr} {l : Latch} {s : State} (hinv : s.Inv Config.chip) (hi : movesData i)
    (hno : NoCause Config.chip i l s) :
    ∃ c ks p, Ready i s c ks p ∧ c.Ok Config.chip ∧
      (i = .streamUpdate ∨ i = .streamFinal →
        s.streamOpen = true ∧ p.length = Config.chip.S ∧ HoldOk Config.chip c s) := by
  have hctx : s.ctx ≠ none := fun hnone => hno .noContext ⟨needsContext_of_movesData hi, hnone⟩
  obtain ⟨c, hc⟩ := Option.ne_none_iff_exists'.mp hctx
  have hok := hinv.context c hc
  have hdelta : c.mode = .randomDelta → c.delta.isSome = true := hok.deltaMode.mpr
  by_cases hstream : i = .streamUpdate ∨ i = .streamFinal
  · have hopen : s.streamOpen = true := by
      rw [← Bool.not_eq_false]
      exact fun hclosed => hno .streamState (.inr ⟨hstream, hclosed⟩)
    obtain ⟨c', p, hc', hks, hp, hlen, hhold⟩ := hinv.openStream hopen
    obtain rfl : c = c' := Option.some.inj (hc.symm.trans hc')
    obtain ⟨ks, hks⟩ := Option.isSome_iff_exists.mp hks
    exact ⟨c, ks, p, ⟨hc, hks, hdelta, fun _ => hp⟩, hok, fun _ => ⟨hopen, hlen, hhold⟩⟩
  · have hneeds : needsKey i := by
      cases i <;> simp [movesData, hasSource, needsKey] at hi hstream ⊢
    have hks : s.ks ≠ none := fun hnone => hno .noKey ⟨hneeds, hnone⟩
    obtain ⟨ks, hks⟩ := Option.ne_none_iff_exists'.mp hks
    exact ⟨c, ks, [], ⟨hc, hks, hdelta, fun h => absurd h hstream⟩, hok, fun h => absurd h hstream⟩

/-- The write range of a command whose checks pass lies in the address space (20_memory.md R106). -/
theorem writeBound_in_space {i : Instr} {l : Latch} {s : State} (hno : NoCause Config.chip i l s) :
    writeBound Config.chip i l s = 0 ∨ l.dstAddr.toNat + writeBound Config.chip i l s ≤ addressLimit := by
  by_contra! h
  exact hno .addrRange (.inr ⟨Nat.pos_of_ne_zero h.1, h.2⟩)

/-- ENCRYPT's output fills its write range (43_commands.md R322, R334). -/
theorem encMsg_length_eq_encryptBound {P : Params} {ks : Bytes} {c : Context} (hok : c.Ok P) {l : Latch}
    (fill : Nat → Byte) {m : Bytes} (hm : m.length = l.srcLen.toNat) :
    (encMsg (driverOf P ks c (c.delta.getD [])) fill m).1.length = encryptBound P c l := by
  rw [encMsg_length hok.sized, hm]
  rfl

/-- An update's output fills its write range (43_commands.md R322, R337). -/
theorem updateStep_length_eq_updateBound {P : Params} {ks : Bytes} {c : Context} (hok : c.Ok P) {l : Latch}
    {s : State} {p m : Bytes} (hp : p.length = P.S) (hm : m.length = l.srcLen.toNat) :
    (updateStep (driverOf P ks c (c.delta.getD [])) s.streamDir ⟨p, s.blkIdx, s.hold⟩ m).1.length
      = updateBound P c s l := by
  obtain ⟨hlen, -⟩ := updateStep_length (hok.sized (ks := ks)) s.streamDir hp s.blkIdx s.hold m
  rw [hlen, List.length_append, hm]
  rfl

/-- R335's LENGTH check: whole blocks in a padded mode. -/
theorem decrypt_blocks_of_noCause {l : Latch} {s : State} {c : Context} (hc : s.ctx = some c)
    (hno : NoCause Config.chip .decrypt l s) : padded c.mode = true → l.srcLen.toNat % Config.chip.S = 0 := by
  intro hp
  by_contra hrest
  exact hno .length ⟨c, hc, hp, .inl ⟨rfl, hrest⟩⟩

/-- R338's LENGTH check: a padded-decrypt stream holds nothing or a whole block. -/
theorem finalLengthFails_of_noCause {l : Latch} {s : State} {c : Context} (hc : s.ctx = some c)
    (hno : NoCause Config.chip .streamFinal l s) : finalLengthFails Config.chip c s = false := by
  rw [← Bool.not_eq_true, finalLengthFails_iff]
  rintro ⟨⟨hp, hdir⟩, hsome, hblock⟩
  exact hno .length ⟨c, hc, hp, .inr ⟨rfl, hdir, hsome, hblock⟩⟩

/-- The output of a data command fits its write range (43_commands.md R322). -/
theorem bodyOf_length_le {i : Instr} {l : Latch} {s s1 : State} {c : Context} {ks p m : Bytes} (hi : movesData i)
    (hr : Ready i s c ks p) (hok : c.Ok Config.chip) (hno : NoCause Config.chip i l s)
    (hstream : i = .streamUpdate ∨ i = .streamFinal →
      s.streamOpen = true ∧ p.length = Config.chip.S ∧ HoldOk Config.chip c s)
    (hm : m.length = sourceCount i l) (hdir : s1.streamDir = s.streamDir) :
    (bodyOf Config.chip i s c ks p m s1).1.length ≤ writeBound Config.chip i l s := by
  cases i with
  | encrypt =>
    simp only [writeBound, hr.ctx]
    exact (encMsg_length_eq_encryptBound hok _ hm).le
  | decrypt =>
    simp only [writeBound, hr.ctx]
    have hblocks := decrypt_blocks_of_noCause hr.ctx hno
    exact (decMsg_length_le m (hm ▸ hblocks)).trans hm.le
  | streamUpdate =>
    obtain ⟨-, hp, -⟩ := hstream (.inl rfl)
    simp only [writeBound, hr.ctx, bodyOf, updateBody, hdir]
    exact (updateStep_length_eq_updateBound hok hp hm).le
  | streamFinal =>
    obtain ⟨-, hp, hhold⟩ := hstream (.inr rfl)
    simp only [writeBound, hr.ctx, bodyOf, finalBody, hdir]
    exact (finalStep_length hok s _ hp hhold (finalLengthFails_of_noCause hr.ctx hno)).1
  | _ => simp [movesData, hasSource] at hi

/-! ### Confinement -/

/-- The commands without a write range have an empty one. -/
theorem writeBound_eq_zero {P : Params} {i : Instr} (hi : ¬ movesData i) (l : Latch) (s : State) :
    writeBound P i l s = 0 := by
  unfold writeBound
  cases s.ctx with
  | none => rfl
  | some c => cases i <;> simp [movesData, hasSource] at hi ⊢

end Sys2Proof.Machine
end

section
/-! Frames and confinement (20_memory.md R109, 43_commands.md R339): what a command leaves alone, and which memory it
reads and writes. -/

namespace Sys2Proof.Machine

/-! ### The host's side -/

/-- The edit that sets the fields no perform touches to what they are in `s`. -/
def HostEdit.keep (s : State) : HostEdit where
  rej _ := s.rej
  doneIe _ := s.doneIe
  srcAddr _ := s.srcAddr
  srcLen _ := s.srcLen
  dstAddr _ := s.dstAddr
  dstCap _ := s.dstCap
  ivLen _ := s.ivLen
  deltaLen _ := s.deltaLen
  keyLen _ := s.keyLen
  iv _ := s.iv
  delta _ := s.delta
  key _ := s.key
  events _ := s.events
  answer _ := s.answer

/-- A command leaves the host's side: the edit that keeps it is no change before the command, and so none after it. -/
theorem exec_keeps_host_side {i : Instr} {s t : State} (h : exec i s = .next t) : t = (HostEdit.keep s).apply t := by
  have hsame : exec i s = mapNext (HostEdit.keep s).apply (exec i s) := exec_hostEdit (HostEdit.keep s) i s
  rw [h] at hsame
  exact Host.Outcome.next.inj hsame

/-- A command without a transfer leaves memory, and st.STREAM_DIR but for STREAM_BEGIN, and sees no bus error. -/
theorem effect_of_not_movesData {P : Params} {i : Instr} {l : Latch} {s t : State} (hi : ¬ movesData i)
    (h : effectOf P i l s = .next t) :
    t.mem = s.mem ∧ t.ecode ≠ .busError ∧ ((∀ d, i ≠ .streamBegin d) → t.streamDir = s.streamDir) := by
  cases i with
  | nop => cases h; exact ⟨rfl, nofun, fun _ => rfl⟩
  | ctxInit mode pad => obtain rfl | ⟨c, rfl⟩ := ctxInit_effect_next h <;> exact ⟨rfl, nofun, fun _ => rfl⟩
  | ctxClear => cases h; exact ⟨closeStream_mem s, nofun, fun _ => closeStream_streamDir s⟩
  | setKey => obtain rfl | ⟨ks, rfl⟩ := setKey_effect h <;> exact ⟨rfl, nofun, fun _ => rfl⟩
  | streamBegin dir =>
    obtain ⟨-, rfl⟩ | ⟨c, -, hbegin⟩ := withContext_next h
    · exact ⟨rfl, nofun, fun _ => rfl⟩
    · cases hbegin; exact ⟨rfl, nofun, fun hdir => absurd rfl (hdir dir)⟩
  | _ => exact absurd (by simp [movesData, hasSource]) hi

theorem transfer_streamDir {P : Params} {l : Latch} {count wlen : Nat} {body : Bytes → State → Bytes × State}
    {s t : State} (hb : BodyFrame body) (h : transfer P l count wlen body s = .next t) :
    t.streamDir = s.streamDir := by
  obtain ⟨a, rfl⟩ | ⟨x, s1, a, bi, pv, hd, so, f, n, -, rfl⟩ := transfer_frame hb h
  · exact busError_streamDir P l wlen _
  · rfl

/-- Settles O26: no command sees or changes the host's side (`exec_hostEdit`), and a failed check, a command without a
transfer and a transfer each leave the rest. -/
theorem commandsLeaveTheHostSideAlone : Obligations.CommandsLeaveTheHostSideAlone := by
  unfold Obligations.CommandsLeaveTheHostSideAlone
  intro i s t h
  have hkeep := exec_keeps_host_side h
  suffices hrest : ((∀ d, i ≠ .streamBegin d) → t.streamDir = s.streamDir) ∧
      (¬ movesData i → t.mem = s.mem) by
    refine ⟨?_, ?_, ?_, ?_, ?_, ?_, ?_, ?_, ?_, ?_, ?_, ?_, ?_, ?_, hrest.1,
      fun hsource hfinal => hrest.2 (not_or.mpr ⟨hsource, hfinal⟩)⟩ <;> (rw [hkeep]; rfl)
  obtain ⟨l, -, ⟨code, -, rfl⟩ | ⟨hchecks, heffect⟩⟩ := exec_next h
  · exact ⟨fun _ => rfl, fun _ => rfl⟩
  · by_cases hi : movesData i
    · obtain ⟨c, ks, p, -, htransfer⟩ := transfer_of_effect hi hchecks heffect
      exact ⟨fun _ => transfer_streamDir (bodyOf_frame _ _ _ _ _ _) htransfer, fun hno => absurd hi hno⟩
    · obtain ⟨hmem, -, hdir⟩ := effect_of_not_movesData hi heffect
      exact ⟨hdir, fun _ => hmem⟩

/-! ### Confinement of writes -/

/-- Settles O27: a failed check and a command without a transfer leave memory, and a transfer's output and free values
stay in the write range. -/
theorem writesStayInTheWriteRange : Obligations.WritesStayInTheWriteRange := by
  unfold Obligations.WritesStayInTheWriteRange
  intro i l s t hinv hp h a ha
  rw [exec_eq_withChecks i hp] at h
  obtain ⟨code, -, rfl⟩ | ⟨hchecks, heffect⟩ := withChecks_next h
  · rfl
  · by_cases hi : movesData i
    · have hno := noCause_iff.mpr hchecks
      obtain ⟨c, ks, p, hr, hok, hstream⟩ := ready_of_inv hinv hi hno
      rw [effectOf_eq_transfer hi hr] at heffect
      exact transfer_confined (bodyOf_frame _ _ _ _ _ _)
        (fun _ => bodyOf_length_le hi hr hok hno hstream (Memory.readRange_length ..) rfl) heffect a ha
    · obtain ⟨hmem, -⟩ := effect_of_not_movesData hi heffect
      rw [hmem]

/-! ### Bus errors -/

/-- A check never reports BUS_ERROR. -/
theorem firstFailure_ne_busError {P : Params} {i : Instr} {l : Latch} {s : State} {code : ErrorCode}
    (h : firstFailure (checksOf P i l s) = some code) : code ≠ .busError := by
  obtain ⟨before, after, heq, -⟩ := firstFailure_some h
  exact ((checksOf_codes P i l s).2 (code, true) (by simp [heq])).2

/-- A command that ends in BUS_ERROR is a data command whose transfer was refused. -/
theorem eq_busError_of_exec {i : Instr} {l : Latch} {s t : State} (hp : s.pending = some l)
    (h : exec i s = .next t) (hcode : t.ecode = .busError) :
    ∃ a, t = busError Config.chip l (writeBound Config.chip i l s) { s with busAnswers := a } := by
  rw [exec_eq_withChecks i hp] at h
  obtain ⟨code, hfirst, rfl⟩ | ⟨hchecks, heffect⟩ := withChecks_next h
  · exact absurd hcode (firstFailure_ne_busError hfirst)
  · by_cases hi : movesData i
    · obtain ⟨c, ks, p, -, htransfer⟩ := transfer_of_effect hi hchecks heffect
      obtain ⟨a, ha⟩ := rangesAnswered_frame s (sourceCount i l) (writeBound Config.chip i l s)
      obtain ⟨-, rfl⟩ | ⟨-, work, -, rfl⟩ := transfer_next htransfer
      · exact ⟨a, by rw [ha]⟩
      · cases hcode
    · obtain ⟨-, hnot, -⟩ := effect_of_not_movesData hi heffect
      exact absurd hcode hnot

/-- Settles O24: BUS_ERROR is `busError` over the write range, and a data command whose checks pass is a transfer, which
the memory agent's two answers refuse, fail or admit. -/
theorem busErrorIsConfined : Obligations.BusErrorIsConfined := by
  unfold Obligations.BusErrorIsConfined
  refine ⟨fun i l s t hp h hcode => ?record, fun i l s hinv hp hi hno => ?answers⟩
  case record =>
    obtain ⟨a, rfl⟩ := eq_busError_of_exec hp h hcode
    refine ⟨by rw [busError_eq], fun a ha => ?_⟩
    have hout : a < l.dstAddr.toNat ∨ l.dstAddr.toNat + writeBound Config.chip i l s ≤ a := range_has_false.mp ha
    rw [busError_mem]
    exact Memory.read_writeRange_outside _ _ (by rwa [freeBytes_length])
  case answers =>
    intro read write
    obtain ⟨c, ks, p, hr, -, -⟩ := ready_of_inv hinv hi hno
    obtain ⟨hsideIff, hadmitIff⟩ := rangesAnswer_cases s (sourceCount i l) (writeBound Config.chip i l s)
    rw [exec_of_noCause hp hno, effectOf_eq_transfer hi hr]
    refine ⟨fun hside => transfer_sideEffects (hsideIff.mpr hside), fun hread hwrite hrefused => ?_⟩
    have hanswer : rangesAnswer s (sourceCount i l) (writeBound Config.chip i l s) = .refuses := by
      cases hcase : rangesAnswer s (sourceCount i l) (writeBound Config.chip i l s) with
      | refuses => rfl
      | sideEffects => exact absurd (hsideIff.mp hcase) (not_or.mpr ⟨hread, hwrite⟩)
      | admits =>
        obtain ⟨hreadAdmits, hwriteAdmits⟩ := hadmitIff.mp hcase
        simp [read, write, hreadAdmits, hwriteAdmits] at hrefused
    exact ⟨_, transfer_refused hanswer, busError_ecode ..⟩

/-! ### What a command reads -/

theorem bodyOf_mem {P : Params} {i : Instr} {s : State} {c : Context} {ks p : Bytes} (x : Bytes) (s1 : State) :
    (bodyOf P i s c ks p x s1).2.mem = s1.mem := by
  obtain ⟨_, _, _, _, _, h⟩ := bodyOf_frame P i s c ks p x s1
  rw [h]

/-- The computation of a data command sees of memory only the source bytes it is given. -/
theorem bodyOf_withMem {P : Params} {i : Instr} {s : State} {c : Context} {ks p : Bytes} (x : Bytes) (s1 : State)
    (m : Memory) : bodyOf P i s c ks p x (withMem s1 m) =
      ((bodyOf P i s c ks p x s1).1, withMem (bodyOf P i s c ks p x s1).2 m) := by
  cases i <;> rfl

@[simp] theorem withMem_ctx (s : State) (m : Memory) : (withMem s m).ctx = s.ctx := rfl

theorem closeStream_withMem (s : State) (m : Memory) : closeStream (withMem s m) = withMem (closeStream s) m := by
  simp only [closeStream, apply_ite (withMem · m)]
  rfl

theorem checksOf_withMem (P : Params) (i : Instr) (l : Latch) (s : State) (m : Memory) :
    checksOf P i l (withMem s m) = checksOf P i l s := rfl

/-- A command without a transfer does not see memory. -/
theorem effectOf_withMem {P : Params} {i : Instr} (hi : ¬ movesData i) (l : Latch) (s : State) (m : Memory) :
    effectOf P i l (withMem s m) = mapNext (withMem · m) (effectOf P i l s) := by
  cases i with
  | nop => rfl
  | ctxInit mode pad =>
    simp only [effectOf]
    split
    · rfl
    · split <;> rfl
  | ctxClear => simp only [effectOf, closeStream_withMem]; rfl
  | setKey =>
    simp only [effectOf]
    split
    · rfl
    · split <;> rfl
  | streamBegin dir =>
    simp only [effectOf, withContext, withMem_ctx]
    split <;> rfl
  | _ => exact absurd (by simp [movesData, hasSource]) hi

/-- Settles O28: checks and commands without a transfer do not see memory, and a transfer is the same over the same
source bytes (`transfer_other_memory`). -/
theorem outputDependsOnlyOnTheSourceRange : Obligations.OutputDependsOnlyOnTheSourceRange := by
  unfold Obligations.OutputDependsOnlyOnTheSourceRange
  intro i l s t m hp hs hm hagree h
  rw [exec_eq_withChecks i hp] at h
  suffices hother : ∃ m', withChecks (checksOf Config.chip i l s) (withMem s m)
      (effectOf Config.chip i l (withMem s m)) = .next (withMem t m') ∧
      ∀ a, (writeRange Config.chip i l s).has a = true → m'.read a = t.mem.read a ∨ (m' = m ∧ t.mem = s.mem) by
    obtain ⟨m', hexec, hread⟩ := hother
    exact ⟨m', (exec_eq_withChecks i (s := withMem s m) hp).trans hexec, hread⟩
  obtain ⟨code, hfirst, rfl⟩ | ⟨hchecks, heffect⟩ := withChecks_next h
  · exact ⟨m, withChecks_fail _ _ hfirst, fun _ _ => .inr ⟨rfl, rfl⟩⟩
  · rw [withChecks_pass _ _ hchecks]
    by_cases hi : movesData i
    · obtain ⟨c, ks, p, hr, htransfer⟩ := transfer_of_effect hi hchecks heffect
      have hsource : m.readRange l.srcAddr.toNat (sourceCount i l) =
          s.mem.readRange l.srcAddr.toNat (sourceCount i l) :=
        Memory.readRange_congr fun k hk => hagree _ (range_has.mpr ⟨Nat.le_add_right .., Nat.add_lt_add_left hk _⟩)
      obtain ⟨m', hnext, hread⟩ := transfer_other_memory hs hm bodyOf_withMem bodyOf_mem hsource htransfer
      have hr' : Ready i (withMem s m) c ks p := ⟨hr.ctx, hr.key, hr.delta, hr.prev⟩
      exact ⟨m', (effectOf_eq_transfer hi hr').trans hnext, fun a ha => .inl (hread a ha)⟩
    · obtain ⟨hmem, -⟩ := effect_of_not_movesData hi heffect
      rw [effectOf_withMem hi, heffect]
      exact ⟨m, rfl, fun _ _ => .inr ⟨rfl, hmem⟩⟩

end Sys2Proof.Machine
end

section
/-! The invariant of MOE (10_state.md R36, R54-R64): it holds at reset, every command and every event of the host keeps
it, and under it the only values a step can find absent are window bytes (93_implementation_defined.md U8). -/

namespace Sys2Proof.Machine

/-! ### One turn of the engine -/

/-- Settles O5: with a command in flight the turn is its perform, and the turn comes as log 6 says. -/
theorem stepPerformsTheCommandInFlight : Obligations.StepPerformsTheCommandInFlight := by
  unfold Obligations.StepPerformsTheCommandInFlight
  intro s l i hp hdecode
  refine ⟨fun hevents => ?_, fun rest hevents => ?_⟩
  · simp only [step, stepWith, hevents, engineTurn_pending hp, hdecode]
  · simp only [step, stepWith, runEvent, hevents, engineTurn_pending (s := { s with events := rest }) hp, hdecode]

/-- Settles O6: the placed word is the latched one, it decodes to its command (O2), and the engine's turn is next (O5). -/
theorem placedWordIsPerformedNext : Obligations.PlacedWordIsPerformedNext := by
  unfold Obligations.PlacedWordIsPerformedNext
  intro s i hi
  have hword : BitVec.ofNat 32 ((encode i).toNat % 2 ^ 32) = encode i := by
    rw [Nat.mod_eq_of_lt (encode i).isLt, BitVec.ofNat_toNat, BitVec.setWidth_eq]
  rw [State.withFetchWord, hword]
  obtain ⟨-, hturn⟩ := stepPerformsTheCommandInFlight (placeCommand s (encode i)) (latchOf s (encode i)) i rfl
    (decodeOfEncode i hi)
  exact hturn s.events rfl

/-! ### The invariant at reset and across a command -/

/-- Settles O8: at reset memory lists nothing and there is no context, key or stream. -/
theorem resetMeetsInvariant : Obligations.ResetMeetsInvariant := by
  unfold Obligations.ResetMeetsInvariant
  refine ⟨⟨rfl, rfl, rfl, nofun, nofun, nofun, fun _ => ⟨rfl, rfl⟩⟩, nofun⟩

/-- No clause of the invariant reads what a host edit changes. -/
theorem HostEdit.apply_keeps_inv {P : Params} {s : State} (e : HostEdit) (h : s.Inv P) : (e.apply s).Inv P :=
  ⟨h.memForm, h.memSpace, h.errCode, h.flight, h.context, h.openStream, h.closedStream⟩

/-- Before a step acts the model takes an event off the list. -/
theorem State.Inv.with_events {P : Params} {s : State} (h : s.Inv P) (events : List Event) :
    State.Inv P { s with events := events } :=
  HostEdit.apply_keeps_inv { events := fun _ => events } h

/-- CTX_INIT's operands make a context of the right shape (43_commands.md R330). -/
theorem context_ok_of_operands {P : Params} {m : Mode} {l : Latch} {iv : Bytes} {delta : Option Bytes}
    (hiv : ivOperand P m l = some iv) (hdelta : deltaOperand P m l = some delta) (pad : PaddingKind) :
    Context.Ok P ⟨m, pad, latchesIv P m l, iv, delta⟩ := by
  simp only [ivOperand_eq_some_iff, ← latchesIv_iff] at hiv
  rw [deltaOperand_eq_some_iff] at hdelta
  refine ⟨?ivBlock, fun d hd => ?deltaBlock, ?deltaMode, fun hnone => ?noIv, fun hecb => ?ecbNoIv⟩
  case ivBlock =>
    split at hiv
    · exact hiv.1
    · exact hiv ▸ zeros_length P.S
  case deltaBlock =>
    split at hdelta
    · obtain ⟨x, rfl, hlen, -⟩ := hdelta
      exact Option.some.inj hd ▸ hlen
    · exact absurd (hdelta.symm.trans hd) nofun
  case deltaMode =>
    split at hdelta
    · obtain ⟨x, rfl, -, -⟩ := hdelta
      exact iff_of_true rfl ‹_›
    · exact iff_of_false (by simp [hdelta]) ‹_›
  case noIv => rwa [if_neg (ne_true_of_eq_false hnone)] at hiv
  case ecbNoIv =>
    obtain rfl : m = .ecb := hecb
    rfl

/-- What a CTX_INIT whose checks passed found and left. -/
theorem ctxInit_effect_operands {P : Params} {mode : BitVec 3} {pad : PaddingKind} {l : Latch} {s t : State}
    (hchecks : firstFailure (checksOf P (.ctxInit mode pad) l s) = none)
    (h : effectOf P (.ctxInit mode pad) l s = .next t) :
    s.ctx = none ∧ ∃ c, c.Ok P ∧ t = complete .none 0 { s with ctx := some c } := by
  cases hm : Mode.ofBits mode with
  | none => rw [ctxInit_firstFailure_reservedMode P ((mode_none_iff mode).mp hm)] at hchecks; cases hchecks
  | some m =>
    rw [ctxInit_firstFailure P hm] at hchecks
    simp only [effectOf, hm] at h
    split at h <;> cases h
    rename_i iv delta hiv hdelta
    refine ⟨?_, _, context_ok_of_operands hiv hdelta pad, rfl⟩
    by_contra hctx
    simp [hctx] at hchecks

/-- An update keeps the bounds of an open stream: the chaining register a block, and the hold as R290 bounds it. -/
theorem updateStep_keeps_stream {P : Params} {c : Context} (hok : c.Ok P) (ks : Bytes) {s : State} {p : Bytes}
    (hp : p.length = P.S) (hhold : HoldOk P c s) (m : Bytes) {w : Carried}
    (hw : w = (updateStep (driverOf P ks c (c.delta.getD [])) s.streamDir ⟨p, s.blkIdx, s.hold⟩ m).2) :
    w.prev.length = P.S ∧
      HoldOk P c { s with prev := some w.prev, blkIdx := w.index, hold := w.hold } := by
  subst hw
  refine ⟨(updateStep_length hok.sized s.streamDir hp s.blkIdx s.hold m).2, ?_⟩
  obtain ⟨-, -, hindex, -, -, hplain, hpadded⟩ :=
    updateWithholdsTheRightBytes P ks c (c.delta.getD []) s.streamDir ⟨p, s.blkIdx, s.hold⟩ m
  unfold HoldOk at hhold ⊢
  simp only [paddedDecrypt_iff] at hhold ⊢
  split_ifs with hclass
  · rw [if_pos hclass] at hhold
    obtain ⟨hsome, hblock, -⟩ := hpadded hclass
    refine ⟨hblock, fun hnil => ?_⟩
    have hempty : s.hold ++ m = [] := by_contra fun hne => by simpa [hnil] using hsome hne
    have hstart : s.blkIdx = 0 := hhold.2 (List.append_eq_nil_iff.mp hempty).1
    rw [hindex, run_index, hempty]
    simpa using hstart
  · have := hplain hclass
    have := P.S_pos
    omega

/-- An encrypt, decrypt or final body leaves no stream open, an update leaves it within its bounds. -/
theorem bodyOf_keeps_stream {i : Instr} {l : Latch} {s s1 : State} {c : Context} {ks p m : Bytes}
    (hinv : s.Inv Config.chip) (hi : movesData i) (hr : Ready i s c ks p) (hok : c.Ok Config.chip)
    (hno : NoCause Config.chip i l s)
    (hstream : i = .streamUpdate ∨ i = .streamFinal →
      s.streamOpen = true ∧ p.length = Config.chip.S ∧ HoldOk Config.chip c s)
    (hs1 : ∃ answers, s1 = { s with busAnswers := answers }) :
    let s2 := (bodyOf Config.chip i s c ks p m s1).2
    (s2.streamOpen = true → ∃ c p, s2.ctx = some c ∧ s2.ks.isSome = true ∧ s2.prev = some p ∧
      p.length = Config.chip.S ∧ HoldOk Config.chip c s2) ∧
    (s2.streamOpen = false → s2.prev = none ∧ s2.hold = []) := by
  obtain ⟨answers, rfl⟩ := hs1
  have hclosed : needsNoStream i → s.streamOpen = false := fun hneeds =>
    Bool.not_eq_true _ ▸ fun hopen => hno .streamState (.inl ⟨hneeds, hopen⟩)
  cases i with
  | encrypt | decrypt => exact ⟨fun hopen => absurd hopen (by simp [bodyOf, encryptBody, decryptBody, hclosed trivial]),
      fun _ => hinv.closedStream (hclosed trivial)⟩
  | streamUpdate =>
    obtain ⟨hopen, hp, hhold⟩ := hstream (.inl rfl)
    obtain ⟨hprev, hhold⟩ := updateStep_keeps_stream hok ks hp hhold m rfl
    exact ⟨fun _ => ⟨c, _, hr.ctx, by simp [bodyOf, updateBody, hr.key], rfl, hprev, hhold⟩,
      fun hclosed => absurd hclosed (by simp [bodyOf, updateBody, hopen])⟩
  | streamFinal => exact ⟨nofun, fun _ => ⟨rfl, rfl⟩⟩
  | _ => simp [movesData, hasSource] at hi

/-- Closing a stream keeps the invariant. -/
theorem closeStream_keeps_inv {P : Params} {s : State} (hinv : s.Inv P) : (closeStream s).Inv P := by
  unfold closeStream
  split
  · exact { hinv with openStream := nofun, closedStream := fun _ => ⟨rfl, rfl⟩ }
  · exact hinv

/-- A stream that has just been opened withholds nothing (42_scheduler_streaming.md R287). -/
theorem holdOk_empty {P : Params} {c : Context} {s : State} (hhold : s.hold = []) (hidx : s.blkIdx = 0) :
    HoldOk P c s := by
  unfold HoldOk
  rw [hhold]
  split
  · exact ⟨Nat.zero_le _, fun _ => hidx⟩
  · exact P.S_pos

/-- Every command keeps the invariant: a failed check by its record, a command without a transfer by what it sets, and
a data command by its transfer. -/
theorem exec_keeps_inv {i : Instr} {s t : State} (hinv : s.Inv Config.chip) (h : exec i s = .next t) :
    t.Inv Config.chip := by
  obtain ⟨l, hp, ⟨code, -, rfl⟩ | ⟨hchecks, heffect⟩⟩ := exec_next h
  · exact complete_keeps_inv code 0 hinv
  · have hno := noCause_iff.mpr hchecks
    have hdata : movesData i → t.Inv Config.chip := fun hi => by
      obtain ⟨c, ks, p, hr, hok, hstream⟩ := ready_of_inv hinv hi hno
      rw [effectOf_eq_transfer hi hr] at heffect
      exact transfer_keeps_inv hinv (bodyOf_frame _ _ _ _ _ _)
        (fun _ => bodyOf_length_le hi hr hok hno hstream (Memory.readRange_length ..) rfl)
        (writeBound_in_space hno) (fun a => bodyOf_keeps_stream hinv hi hr hok hno hstream ⟨a, rfl⟩) heffect
    cases i with
    | nop => cases heffect; exact complete_keeps_inv .none 0 hinv
    | ctxInit mode pad =>
      obtain ⟨hctx, c, hok, rfl⟩ := ctxInit_effect_operands hchecks heffect
      have hclosed : s.streamOpen = false := by
        rw [← Bool.not_eq_true]
        intro hopen
        obtain ⟨c', p, hc', -⟩ := hinv.openStream hopen
        rw [hctx] at hc'
        cases hc'
      refine complete_keeps_inv .none 0 { hinv with
        context := fun c' hc' => Option.some.inj hc' ▸ hok
        openStream := fun hopen => absurd (hopen.symm.trans hclosed) nofun }
    | ctxClear =>
      cases heffect
      refine complete_keeps_inv .none 0 { closeStream_keeps_inv hinv with context := nofun, openStream := ?_ }
      exact fun hopen => absurd (hopen.symm.trans (closeStream_streamOpen s)) nofun
    | setKey =>
      obtain rfl | ⟨ks, rfl⟩ := setKey_effect heffect
      · exact complete_keeps_inv .keyError 0 hinv
      · refine complete_keeps_inv .none 0 { hinv with openStream := fun hopen => ?_ }
        obtain ⟨c, p, hc, -, hrest⟩ := hinv.openStream hopen
        exact ⟨c, p, hc, rfl, hrest⟩
    | streamBegin dir =>
      obtain ⟨-, rfl⟩ | ⟨c, hc, hbegin⟩ := withContext_next heffect
      · exact complete_keeps_inv .noContext 0 hinv
      · cases hbegin
        have hks : s.ks.isSome = true := by
          rw [Option.isSome_iff_ne_none]
          exact fun hnone => hno .noKey ⟨trivial, hnone⟩
        exact complete_keeps_inv .none 0 { hinv with
          openStream := fun _ => ⟨c, c.iv, hc, hks, rfl, (hinv.context c hc).ivBlock, holdOk_empty rfl rfl⟩
          closedStream := nofun }
    | encrypt | decrypt | streamUpdate => exact hdata (.inl trivial)
    | streamFinal => exact hdata (.inr rfl)

/-! ### The invariant across an event of the host -/

/-- A write of a staging register or window is a host edit, which no perform sees. -/
theorem writeReg_staging {r : Reg} (hr : staging r = true) (v : Word) :
    ∃ e : HostEdit, ∀ s, writeReg s r v = e.apply s := by
  cases r with
  | srcAddr => exact ⟨{ srcAddr := fun _ => v }, fun _ => rfl⟩
  | srcLen => exact ⟨{ srcLen := fun _ => v }, fun _ => rfl⟩
  | dstAddr => exact ⟨{ dstAddr := fun _ => v }, fun _ => rfl⟩
  | dstCap => exact ⟨{ dstCap := fun _ => v }, fun _ => rfl⟩
  | ivLen => exact ⟨{ ivLen := fun _ => v }, fun _ => rfl⟩
  | deltaLen => exact ⟨{ deltaLen := fun _ => v }, fun _ => rfl⟩
  | keyLen => exact ⟨{ keyLen := fun _ => v }, fun _ => rfl⟩
  | ivWord k => exact ⟨{ iv := fun w => setWindowWord w k.val v }, fun _ => rfl⟩
  | deltaWord k => exact ⟨{ delta := fun w => setWindowWord w k.val v }, fun _ => rfl⟩
  | keyWord k => exact ⟨{ key := fun w => setWindowWord w k.val v }, fun _ => rfl⟩
  | _ => cases hr

/-- Settles O37: a staging write is a host edit, and a host edit before a perform is the same edit after it. -/
theorem stagingWritesDoNotReachTheCommand : Obligations.StagingWritesDoNotReachTheCommand := by
  unfold Obligations.StagingWritesDoNotReachTheCommand
  intro i s r v hr
  obtain ⟨e, he⟩ := writeReg_staging hr v
  simp only [he, exec_hostEdit]

theorem accept_keeps_inv {P : Params} {s : State} (hinv : s.Inv P) (w : Word) : (accept s w).Inv P :=
  { hinv with errCode := rfl, flight := fun _ => ⟨rfl, rfl⟩ }

/-- A register write keeps the invariant: of what the invariant reads it can only issue a command or clear DONE. -/
theorem writeReg_keeps_inv {P : Params} {s : State} (hinv : s.Inv P) (r : Reg) (v : Word) :
    (writeReg s r v).Inv P := by
  cases hr : staging r with
  | true =>
    obtain ⟨e, he⟩ := writeReg_staging hr v
    exact he s ▸ e.apply_keeps_inv hinv
  | false =>
    cases r with
    | cmd =>
      simp only [writeReg, issue]
      split
      · exact HostEdit.apply_keeps_inv { rej := fun _ => true } hinv
      · exact accept_keeps_inv hinv v
    | status =>
      refine { hinv with flight := fun hbusy => ?_ }
      obtain ⟨hdone, hcode⟩ := hinv.flight hbusy
      exact ⟨by simp [writeReg, hdone], hcode⟩
    | irqEn => exact HostEdit.apply_keeps_inv { doneIe := fun _ => v.getLsbD 0 } hinv
    | srcAddr | srcLen | dstAddr | dstCap | ivLen | deltaLen | keyLen | ivWord | deltaWord | keyWord => cases hr
    | _ => exact hinv

/-- A reset abandons a command without leaving the canonical form or the address space (log 26). -/
theorem abandon_mem {P : Params} {s : State} (hform : s.mem.wf = true) (hspace : s.mem.inSpace = true) :
    (abandon P s).mem.wf = true ∧ (abandon P s).mem.inSpace = true := by
  unfold abandon
  split
  · exact ⟨hform, hspace⟩
  · rename_i i l _
    have hbase : l.dstAddr.toNat < addressLimit := l.dstAddr.isLt
    refine ⟨Memory.writeRange_wf _ _ hform, Memory.writeRange_inSpace (.inr ?_) hspace⟩
    simp only [abandonedBytes, List.length_map, List.length_range, writeRange]
    omega

theorem resetAction_keeps_inv {P : Params} {s : State} (hinv : s.Inv P) : (resetAction P s).Inv P := by
  obtain ⟨hform, hspace⟩ := abandon_mem (P := P) hinv.memForm hinv.memSpace
  exact ⟨hform, hspace, rfl, nofun, nofun, nofun, fun _ => ⟨rfl, rfl⟩⟩

/-- Settles O7: a step performs a command, fails an illegal word, or is one event of the host. -/
theorem stepKeepsInvariant : Obligations.StepKeepsInvariant := by
  unfold Obligations.StepKeepsInvariant
  intro s t hinv h
  have hturn : ∀ s0, (s0 = s ∨ ∃ rest, s0 = { s with events := rest }) → s0.Inv Config.chip := by
    rintro s0 (rfl | ⟨rest, rfl⟩)
    · exact hinv
    · exact hinv.with_events rest
  obtain ⟨s0, l, i, -, -, hexec, hs0⟩ | ⟨s0, l, -, rfl, hs0⟩ | ⟨rest, -, rfl⟩ |
    ⟨rest, off, b, hread⟩ | ⟨rest, r, v, rfl⟩ | ⟨rest, a, hread⟩ | ⟨rest, a, b, hwrite⟩ | ⟨rest, rfl⟩ :=
    step_cases h
  · exact exec_keeps_inv (hturn s0 hs0) hexec
  · exact complete_keeps_inv .badCmd 0 (hturn s0 hs0)
  · exact hinv.with_events rest
  · obtain ⟨answer, rfl⟩ := hostRegRead_next hread
    exact { hinv with }
  · exact writeReg_keeps_inv (hinv.with_events rest) r v
  · obtain ⟨answer, free, rfl⟩ := hostMemRead_next hread
    exact { hinv with }
  · obtain rfl := hostMemWrite_next hwrite
    exact { hinv with
      memForm := Memory.write_wf _ _ hinv.memForm
      memSpace := Memory.write_inSpace _ a.isLt hinv.memSpace }
  · exact resetAction_keeps_inv (hinv.with_events rest)

end Sys2Proof.Machine
end

section
/-! Values that are not there (10_state.md R64, 93_implementation_defined.md U7, U8), and where st.KS comes from
(10_state.md R56). -/

namespace Sys2Proof.Machine

/-! ### Windows with an unwritten byte -/

/-- The first `n` bytes of a window have no value exactly where one of them was never written. -/
theorem windowBytes_eq_none_iff {m n : Nat} (w : Window m) (hn : n ≤ m) :
    windowBytes w n = none ↔ ∃ j, j < n ∧ windowByte w j = none := by
  rw [windowBytes, allPresent_eq_none, List.mem_iff_getElem?]
  refine exists_congr fun j => ?_
  by_cases hj : j < n
  · have hjm : j < m := by omega
    simp [hj, windowByte, hjm]
  · simp [Nat.le_of_not_lt hj]

theorem ivOperand_eq_none_iff {P : Params} {m : Mode} {l : Latch} :
    ivOperand P m l = none ↔ (m ≠ .ecb ∧ l.ivLen.toNat = P.S) ∧ ∃ j, j < P.S ∧ windowByte l.iv j = none := by
  rw [ivOperand, ← latchesIv_iff, ← windowBytes_eq_none_iff l.iv P.S_le]
  split <;> simp_all

theorem deltaOperand_eq_none_iff {P : Params} {m : Mode} {l : Latch} :
    deltaOperand P m l = none ↔ m = .randomDelta ∧ ∃ j, j < P.S ∧ windowByte l.delta j = none := by
  rw [deltaOperand, ← windowBytes_eq_none_iff l.delta P.S_le]
  split <;> simp_all

/-- CTX_INIT's effect where an IV byte it would latch was never written. -/
theorem ctxInit_effect_noIv {P : Params} {mode : BitVec 3} {m : Mode} {l : Latch} (hm : Mode.ofBits mode = some m)
    (hiv : ivOperand P m l = none) (pad : PaddingKind) (s : State) :
    effectOf P (.ctxInit mode pad) l s = .fault (.noValue .ivWindow) := by
  simp only [effectOf, hm, hiv]

theorem ctxInit_effect_noDelta {P : Params} {mode : BitVec 3} {m : Mode} {l : Latch} (hm : Mode.ofBits mode = some m)
    (hiv : ivOperand P m l ≠ none) (hdelta : deltaOperand P m l = none) (pad : PaddingKind) (s : State) :
    effectOf P (.ctxInit mode pad) l s = .fault (.noValue .deltaWindow) := by
  obtain ⟨iv, hiv⟩ := Option.ne_none_iff_exists'.mp hiv
  simp only [effectOf, hm, hiv, hdelta]

/-- Settles O16: with the checks passed the command has its effect, whose operand has no value. -/
theorem unwrittenWindowBytesFault : Obligations.UnwrittenWindowBytesFault := by
  unfold Obligations.UnwrittenWindowBytesFault
  refine ⟨fun s l mode pad j hp hno hmode hlen hj hbyte => ?iv, fun s l pad j hp hno hiv hj hbyte => ?delta,
    fun s l j hp hno hj hbyte => ?key⟩
  case iv =>
    have hdefined : Mode.ofBits mode ≠ none := fun hnone =>
      hno .badCmd ⟨pad, by rw [(mode_none_iff mode).mp hnone]⟩
    obtain ⟨m, hm⟩ := Option.ne_none_iff_exists'.mp hdefined
    have hecb : m ≠ .ecb := by
      rintro rfl
      exact hmode ((mode_ecb_iff mode).mp hm)
    rw [exec_of_noCause hp hno]
    exact ctxInit_effect_noIv hm (ivOperand_eq_none_iff.mpr ⟨⟨hecb, hlen⟩, j, hj, hbyte⟩) pad s
  case delta =>
    have hpresent : ivOperand Config.chip .randomDelta l ≠ none := fun hnone => by
      obtain ⟨⟨-, hlen⟩, k, hk, hkbyte⟩ := ivOperand_eq_none_iff.mp hnone
      exact hiv (by rw [hlen]; exact Config.chip.S_pos.ne') k hk hkbyte
    rw [exec_of_noCause hp hno]
    exact ctxInit_effect_noDelta rfl hpresent (deltaOperand_eq_none_iff.mpr ⟨rfl, j, hj, hbyte⟩) pad s
  case key =>
    have hlen : l.keyLen.toNat ≤ 64 := by
      by_contra! hlong
      exact hno .keyError ⟨rfl, hlong⟩
    have hnone : keyOperand l = none := (windowBytes_eq_none_iff l.key hlen).mpr ⟨j, hj, hbyte⟩
    rw [exec_of_noCause hp hno]
    simp only [effectOf, hnone]

/-! ### Faults -/

/-- The faults of an unwritten window byte. -/
def WindowFault (r : Fault) : Prop :=
  r = .noValue .ivWindow ∨ r = .noValue .deltaWindow ∨ r = .noValue .keyWindow

/-- A register without a value is a word of a window. -/
theorem windowFault_absentOf (r : Reg) : WindowFault (.noValue (absentOf r)) := by
  cases r <;> simp [WindowFault, absentOf]

/-- Under the invariant a command that faults misses a window byte: the values that a data command consumes are there
(`ready_of_inv`), and its transfer does not fault. -/
theorem exec_fault {i : Instr} {l : Latch} {s : State} {r : Fault} (hinv : s.Inv Config.chip) (hp : s.pending = some l)
    (h : exec i s = .fault r) : WindowFault r := by
  rw [exec_eq_withChecks i hp] at h
  cases hchecks : firstFailure (checksOf Config.chip i l s) with
  | some code => rw [withChecks_fail _ _ hchecks] at h; cases h
  | none =>
    rw [withChecks_pass _ _ hchecks] at h
    have hdata : movesData i → WindowFault r := fun hi => by
      obtain ⟨c, ks, p, hr, -, -⟩ := ready_of_inv hinv hi (noCause_iff.mpr hchecks)
      rw [effectOf_eq_transfer hi hr] at h
      exact absurd h transfer_ne_fault
    cases i with
    | nop | ctxClear => cases h
    | ctxInit mode pad =>
      simp only [effectOf] at h
      split at h
      · cases h
      · split at h <;> cases h
        · exact .inl rfl
        · exact .inr (.inl rfl)
    | setKey =>
      simp only [effectOf] at h
      split at h
      · cases h; exact .inr (.inr rfl)
      · split at h <;> cases h
    | streamBegin dir =>
      simp only [effectOf, withContext] at h
      split at h <;> cases h
    | encrypt | decrypt | streamUpdate => exact hdata (.inl trivial)
    | streamFinal => exact hdata (.inr rfl)

theorem engineTurn_fault {s : State} {r : Fault} (hinv : s.Inv Config.chip) (h : engineTurn exec s = .fault r) :
    WindowFault r := by
  cases hp : s.pending with
  | none => simp [engineTurn, hp] at h
  | some l =>
    rw [engineTurn_pending hp] at h
    split at h
    · exact exec_fault hinv hp h
    · cases h

/-- Of the events of the host only a read of the register window faults. -/
theorem runEvent_fault {s : State} {e : Event} {r : Fault} (hinv : s.Inv Config.chip)
    (h : runEvent Config.chip exec e s = .fault r) : WindowFault r := by
  cases e with
  | regRead off bytes =>
    simp only [runEvent, hostRegRead] at h
    split at h
    · split at h <;> cases h
      exact windowFault_absentOf _
    · cases h
  | regWrite off bytes v =>
    simp only [runEvent, hostRegWrite] at h
    split at h <;> cases h
  | memRead a =>
    simp only [runEvent, hostMemRead] at h
    split at h <;> cases h
  | memWrite a b =>
    simp only [runEvent, hostMemWrite] at h
    split at h <;> cases h
  | engine => exact engineTurn_fault hinv h
  | reset =>
    simp only [runEvent, hostReset] at h
    split at h
    · cases h
    · split at h <;> cases h

/-- Settles O10: a step is the engine's turn or an event, and either faults only for want of a window byte. -/
theorem onlyWindowBytesCanBeAbsent : Obligations.OnlyWindowBytesCanBeAbsent := by
  unfold Obligations.OnlyWindowBytesCanBeAbsent
  intro s hinv r h
  simp only [step, stepWith] at h
  split at h
  · exact engineTurn_fault hinv h
  · exact runEvent_fault (hinv.with_events _) h

/-! ### The key schedule -/

/-- A SET_KEY whose checks passed reports a key error or installs what the cipher core returned for a key of at most
MAXKEY bytes (43_commands.md R332). -/
theorem setKey_effect_key {P : Params} {l : Latch} {s t : State} (hchecks : firstFailure (checksOf P .setKey l s) = none)
    (h : effectOf P .setKey l s = .next t) :
    t.ks = s.ks ∨ ∃ key, key.length ≤ MAXKEY ∧ P.setKey key = t.ks := by
  have hlen : l.keyLen.toNat ≤ MAXKEY := by
    rw [setKey_firstFailure] at hchecks
    split_ifs at hchecks with hopen hlong
    exact Nat.le_of_not_lt hlong
  simp only [effectOf] at h
  split at h
  · cases h
  · rename_i key hkey
    split at h <;> cases h
    · exact .inl rfl
    · obtain ⟨hkeyLen, -⟩ := (keyOperand_eq_some_iff hlen key).mp hkey
      exact .inr ⟨key, hkeyLen ▸ hlen, ‹_›⟩

/-- Every command keeps st.KS or installs what the cipher core returned. -/
theorem exec_key {i : Instr} {s t : State} (h : exec i s = .next t) :
    t.ks = s.ks ∨ ∃ key, key.length ≤ MAXKEY ∧ Config.chip.setKey key = t.ks := by
  by_cases hkey : i = .setKey
  · subst hkey
    obtain ⟨l, -, ⟨code, -, rfl⟩ | ⟨hchecks, heffect⟩⟩ := exec_next h
    · exact .inl rfl
    · exact setKey_effect_key hchecks heffect
  · exact .inl (exec_ks h hkey)

/-- Settles O9: a perform keeps st.KS or installs SetKey's result, an event of the host keeps it, and a reset drops it. -/
theorem stepKeepsKeyFromCore : Obligations.StepKeepsKeyFromCore := by
  unfold Obligations.StepKeepsKeyFromCore
  intro s t hcore h
  have hsame : t.ks = s.ks → t.KeyFromCore Config.chip := fun hks ks ht => hcore ks (hks ▸ ht)
  obtain ⟨s0, l, i, -, -, hexec, hs0⟩ | ⟨s0, l, -, rfl, hs0⟩ | ⟨rest, -, rfl⟩ |
    ⟨rest, off, b, hread⟩ | ⟨rest, r, v, rfl⟩ | ⟨rest, a, hread⟩ | ⟨rest, a, b, hwrite⟩ | ⟨rest, rfl⟩ :=
    step_cases h
  · have hs0ks : s0.ks = s.ks := by obtain rfl | ⟨rest, rfl⟩ := hs0 <;> rfl
    obtain hks | ⟨key, hlen, hkey⟩ := exec_key hexec
    · exact hsame (hks.trans hs0ks)
    · exact fun ks ht => ⟨key, hlen, hkey.trans ht⟩
  · obtain rfl | ⟨rest, rfl⟩ := hs0 <;> exact hsame rfl
  · exact hsame rfl
  · obtain ⟨answer, rfl⟩ := hostRegRead_next hread
    exact hsame rfl
  · exact hsame (writeReg_ks _ r v)
  · obtain ⟨answer, free, rfl⟩ := hostMemRead_next hread
    exact hsame rfl
  · obtain rfl := hostMemWrite_next hwrite
    exact hsame rfl
  · exact nofun

end Sys2Proof.Machine
end

section
/-! The effect of each data command with its checks passed and its accesses admitted (43_commands.md R334, R335, R337,
R338), and what two ENCRYPTs have in common (10_state.md R58). -/

namespace Sys2Proof.Machine

/-! ### A data command that completes -/

/-- A data command with its checks passed and its accesses admitted completes: the output stands at DST_ADDR, memory
outside the write range is as it was, and the rest is what the body leaves and the completion record. -/
theorem exec_data_completes {i : Instr} {l : Latch} {s : State} {c : Context} {ks p out : Bytes} {s2 : State}
    (hp : s.pending = some l) (hi : movesData i) (hr : Ready i s c ks p) (hmem : s.mem.wf = true)
    (hno : NoCause Config.chip i l s) (hadmits : Admits s)
    (hout : ∀ s1 : State, s1.free = s.free → s1.streamDir = s.streamDir →
      (bodyOf Config.chip i s c ks p (s.mem.readRange l.srcAddr.toNat (sourceCount i l)) s1).1 = out)
    (hs2 : (bodyOf Config.chip i s c ks p (s.mem.readRange l.srcAddr.toNat (sourceCount i l)) s).2 = s2)
    (hle : out.length ≤ writeBound Config.chip i l s) :
    ∃ t, exec i s = .next t ∧
      t = { s2 with
        mem := t.mem, busAnswers := t.busAnswers, outLen := BitVec.ofNat 32 out.length
        ecode := .none, err := false, done := true, pending := none
        free := s2.free + (writeBound Config.chip i l s - out.length) } ∧
      (∀ k (h : k < out.length), t.mem.read (l.dstAddr.toNat + k) = out[k]) ∧
      (∀ a, (writeRange Config.chip i l s).has a = false → t.mem.read a = s.mem.read a) := by
  obtain ⟨a0, a1, t, hnext, ht, hread, hframe⟩ := transfer_completes hmem hadmits (bodyOf_frame _ i s c ks p) out
    (fun s1 _ => hout s1) hle
  rw [exec_of_noCause hp hno, effectOf_eq_transfer hi hr]
  refine ⟨t, hnext, ?_, hread, hframe⟩
  have hanswers : t.busAnswers = a1 := by rw [ht]
  subst hs2
  rw [hanswers]
  refine ht.trans ?_
  cases i <;> rfl

/-- The draws of a command are numbered from the free counter on (log 22). -/
theorem fillFrom_congr {P : Params} {s s' : State} (h : s'.free = s.free) : fillFrom P s' = fillFrom P s :=
  funext fun k => congrArg (fun n => P.freeByte (n + k)) h

/-- The positions of a run over the segments of a message are as many as the segments of its output. -/
theorem run_segments_index {d : Driver} (hS : 0 < d.size) (dir : Direction) (prev : Bytes) {m : Bytes} {n : Nat}
    (hn : m.length = n) :
    (run d dir prev 0 (segments d.size m)).index = BitVec.ofNat 64 ((n + d.size - 1) / d.size) := by
  rw [run_index, segments_length hS, hn]
  exact BitVec.zero_add _

/-- BLKIDX after EncMsg: the blocks of the ciphertext (43_commands.md R334). -/
theorem encMsg_index {d : Driver} (hd : d.Sized) (fill : Nat → Byte) (m : Bytes) :
    (encMsg d fill m).2 = BitVec.ofNat 64 (((encMsg d fill m).1.length + d.size - 1) / d.size) := by
  have hlen := encMsg_length hd fill m
  unfold encMsg encSegments at hlen ⊢
  simp only at hlen ⊢
  rw [hlen]
  split_ifs with hp
  · exact run_segments_index hd.pos .enc d.iv (padApply_length hd.pos ..)
  · exact run_segments_index hd.pos .enc d.iv rfl

/-! ### ENCRYPT and DECRYPT -/

/-- Settles O19: ENCRYPT's body is EncMsg, whose length is the write bound. -/
theorem encryptWritesTheCiphertext : Obligations.EncryptWritesTheCiphertext := by
  unfold Obligations.EncryptWritesTheCiphertext
  intro s l c ks hp hctx hok hks hmem hno hadmits d m out
  have hlen : out.length = encryptBound Config.chip c l :=
    encMsg_length_eq_encryptBound hok _ (Memory.readRange_length ..)
  have hbound : out.length = writeBound Config.chip .encrypt l s := by simp only [writeBound, hctx, hlen]
  have hr : Ready .encrypt s c ks [] := ⟨hctx, hks, hok.deltaMode.mpr, by simp⟩
  obtain ⟨t, hnext, ht, hread, hframe⟩ := exec_data_completes (i := .encrypt) (out := out) hp (.inl trivial) hr hmem hno
    hadmits (fun s1 hfree _ => by simp only [bodyOf, encryptBody, fillFrom_congr hfree]; rfl) rfl hbound.le
  refine ⟨hbound, t, hnext, ht.trans ?_, hread, hframe⟩
  have hindex : (encMsg d (fillFrom Config.chip s) m).2 =
      BitVec.ofNat 64 ((out.length + Config.chip.S - 1) / Config.chip.S) := encMsg_index hok.sized _ m
  simp only [bodyOf, encryptBody, sourceCount, Memory.readRange_length, ← hbound, Nat.sub_self, Nat.add_zero, ← hindex]
  rfl

/-- Settles O20: DECRYPT's body is DecMsg, which is no longer than its input. -/
theorem decryptWritesThePlaintext : Obligations.DecryptWritesThePlaintext := by
  unfold Obligations.DecryptWritesThePlaintext
  intro s l c ks hp hctx hks hdelta hmem hno hadmits d out
  have hm := Memory.readRange_length s.mem l.srcAddr.toNat l.srcLen.toNat
  have hle : out.length ≤ l.srcLen.toNat :=
    (decMsg_length_le _ (by rw [hm]; exact decrypt_blocks_of_noCause hctx hno)).trans hm.le
  have hbound : writeBound Config.chip .decrypt l s = l.srcLen.toNat := by simp only [writeBound, hctx]
  have hr : Ready .decrypt s c ks [] := ⟨hctx, hks, hdelta, by simp⟩
  obtain ⟨t, hnext, ht, hread, hframe⟩ := exec_data_completes (i := .decrypt) (out := out) hp (.inl trivial) hr hmem hno
    hadmits (fun s1 _ _ => rfl) rfl (hbound.symm ▸ hle)
  refine ⟨hle, t, hnext, ht.trans ?_, hread, hframe⟩
  have hindex : (decMsg d (s.mem.readRange l.srcAddr.toNat l.srcLen.toNat)).2 =
      BitVec.ofNat 64 ((l.srcLen.toNat + Config.chip.S - 1) / Config.chip.S) :=
    run_segments_index (d := d) Config.chip.S_pos .dec d.iv hm
  simp only [bodyOf, decryptBody, sourceCount, hbound, ← hindex]
  rfl

/-! ### STREAM_UPDATE and STREAM_FINAL -/

/-- Settles O22: STREAM_UPDATE's body is the update step, whose output is as long as the write bound. -/
theorem streamUpdateProcessesWholeBlocks : Obligations.StreamUpdateProcessesWholeBlocks := by
  unfold Obligations.StreamUpdateProcessesWholeBlocks
  intro s l c ks p hp hctx hok hks hprev hlen hmem hno hadmits d u
  have hbound : u.1.length = writeBound Config.chip .streamUpdate l s := by
    simp only [writeBound, hctx]
    exact updateStep_length_eq_updateBound hok hlen (Memory.readRange_length ..)
  have hr : Ready .streamUpdate s c ks p := ⟨hctx, hks, hok.deltaMode.mpr, fun _ => hprev⟩
  obtain ⟨t, hnext, ht, hread, hframe⟩ := exec_data_completes (i := .streamUpdate) (out := u.1) hp (.inl trivial) hr hmem
    hno hadmits (fun s1 _ hdir => by simp only [bodyOf, updateBody, hdir]; rfl) rfl hbound.le
  refine ⟨hbound, t, hnext, ht.trans ?_, hread, hframe⟩
  simp only [bodyOf, updateBody, ← hbound, Nat.sub_self, Nat.add_zero]
  rfl

/-- Settles O23: STREAM_FINAL's body is the final step, which gives at most the write bound and closes the stream. -/
theorem streamFinalFlushesTheHold : Obligations.StreamFinalFlushesTheHold := by
  unfold Obligations.StreamFinalFlushesTheHold
  intro s l c ks p hp hctx hok hks hprev hlen hhold hmem hno hadmits d r
  have hle : r.1.length ≤ writeBound Config.chip .streamFinal l s := by
    simp only [writeBound, hctx]
    exact (finalStep_length hok s _ hlen hhold (finalLengthFails_of_noCause hctx hno)).1
  have hr : Ready .streamFinal s c ks p := ⟨hctx, hks, hok.deltaMode.mpr, fun _ => hprev⟩
  obtain ⟨t, hnext, ht, hread, hframe⟩ := exec_data_completes (out := r.1) hp (.inr rfl) hr hmem hno hadmits
    (fun s1 hfree hdir => by simp only [bodyOf, finalBody, fillFrom_congr hfree, hdir]; rfl) rfl hle
  refine ⟨hle, t, hnext, ht.trans ?_, hread, hframe⟩
  have hfree := congrArg State.free ht
  simp only at hfree
  rw [hfree]
  rfl

/-! ### Two ENCRYPTs -/

/-- A range just written reads back as what stands first in it. -/
theorem Memory.readRange_writeRange {m : Memory} (hm : m.wf = true) (a : Nat) (out rest : Bytes) :
    (m.writeRange a (out ++ rest)).readRange a out.length = out := by
  refine List.ext_getElem (by simp) fun k hk hout => ?_
  simp only [Memory.readRange, List.getElem_map, List.getElem_range]
  exact read_writeRange_prefix hm a out rest k hout

/-- What an ENCRYPT that succeeds leaves, in whatever way its accesses were admitted. -/
theorem encrypt_success {s t : State} {l : Latch} {c : Context} (hinv : s.Inv Config.chip) (hp : s.pending = some l)
    (hc : s.ctx = some c) (h : exec .encrypt s = .next t) (hcode : t.ecode = .none) :
    ∃ ks fill, s.ks = some ks ∧
      let r := encMsg (driverOf Config.chip ks c (c.delta.getD [])) fill
        (s.mem.readRange l.srcAddr.toNat l.srcLen.toNat)
      t.outLen.toNat = r.1.length ∧ t.blkIdx = r.2 ∧ t.mem.readRange l.dstAddr.toNat t.outLen.toNat = r.1 := by
  rw [exec_eq_withChecks _ hp] at h
  obtain ⟨code, hfirst, rfl⟩ | ⟨hchecks, heffect⟩ := withChecks_next h
  · exact absurd hcode (ne_none_of_firstFailure hfirst)
  · have hno := noCause_iff.mpr hchecks
    obtain ⟨c', ks, p, hr, hok, -⟩ := ready_of_inv (i := .encrypt) hinv (.inl trivial) hno
    obtain rfl : c = c' := Option.some.inj (hc.symm.trans hr.ctx)
    rw [effectOf_eq_transfer (i := .encrypt) (.inl trivial) hr] at heffect
    obtain ⟨-, rfl⟩ | ⟨-, work, hwork, rfl⟩ := transfer_next heffect
    · rw [busError_ecode] at hcode; cases hcode
    · refine ⟨ks, fillFrom Config.chip (s.rangesAnswered l.srcLen.toNat (writeBound Config.chip .encrypt l s)),
        hr.key, ?_⟩
      intro r
      have hout : work.1 = r.1 := congrArg Prod.fst hwork
      have hindex : work.2.blkIdx = r.2 := congrArg (fun w => w.2.blkIdx) hwork
      have hmem : work.2.mem = s.mem := by rw [hwork, bodyOf_mem, rangesAnswered_mem]
      have hbound : r.1.length = writeBound Config.chip .encrypt l s := by
        simp only [writeBound, hc]
        exact encMsg_length_eq_encryptBound hok _ (Memory.readRange_length ..)
      have hfits : r.1.length < 2 ^ 32 := by
        rw [hbound]
        exact (Nat.le_of_not_lt (hno .capacity)).trans_lt l.dstCap.isLt
      have hlen : (BitVec.ofNat 32 r.1.length).toNat = r.1.length := by
        rw [BitVec.toNat_ofNat, Nat.mod_eq_of_lt hfits]
      simp only [complete_outLen, complete_blkIdx, complete_mem, writeOutput_blkIdx, writeOutput_mem, if_true, hout,
        hindex, hmem, hlen, true_and]
      exact Memory.readRange_writeRange hinv.memForm ..

/-- Only ISO10126 pads with draws (40_padding.md R204). -/
theorem padApply_fill_irrelevant (size : Nat) {k : PaddingKind} (hk : k ≠ .iso10126) (fill fill' : Nat → Byte)
    (m : Bytes) : padApply size k fill m = padApply size k fill' m := by
  cases k with
  | iso10126 => exact absurd rfl hk
  | _ => rfl

theorem encMsg_fill_irrelevant {d : Driver} (h : padded d.mode = true → d.pad ≠ .iso10126)
    (fill fill' : Nat → Byte) (m : Bytes) : encMsg d fill m = encMsg d fill' m := by
  unfold encMsg encSegments
  split_ifs with hp
  · rw [padApply_fill_irrelevant d.size (h hp) fill fill']
  · rfl

/-- Settles O53: both leave EncMsg of the same bytes under the same context and key, and no draw is used. -/
theorem encryptIsDeterministic : Obligations.EncryptIsDeterministic := by
  unfold Obligations.EncryptIsDeterministic
  intro s s' t t' l l' c hinv hinv' hp hp' hc hc' hks hpad hsource h h' hcode hcode'
  obtain ⟨ks, fill, hkey, hlen, hindex, hout⟩ := encrypt_success hinv hp hc h hcode
  obtain ⟨ks', fill', hkey', hlen', hindex', hout'⟩ := encrypt_success hinv' hp' hc' h' hcode'
  obtain rfl : ks = ks' := Option.some.inj (hkey.symm.trans (hks.trans hkey'))
  have hsame := encMsg_fill_irrelevant (d := driverOf Config.chip ks c (c.delta.getD [])) hpad fill fill'
    (s.mem.readRange l.srcAddr.toNat l.srcLen.toNat)
  rw [← hsource, ← hsame] at hlen' hindex' hout'
  exact ⟨BitVec.eq_of_toNat_eq (hlen.trans hlen'.symm), hindex.trans hindex'.symm, hout.trans hout'.symm⟩

end Sys2Proof.Machine
end

section
/-! The host's side (10_state.md R33-R50, 20_memory.md R110, 70_reset_and_hazards.md R451): the register window by
offset, memory accesses beside a command in flight, and a reset that abandons one. -/

namespace Sys2Proof.Machine

/-! ### STATUS -/

theorem getLsbD_flagAt {k j : Nat} (hj : j < 32) (b : Bool) : (flagAt k b).getLsbD j = (decide (j = k) && b) := by
  cases b with
  | false => simp [flagAt]
  | true =>
    simp only [flagAt, if_true, BitVec.getLsbD_shiftLeft, BitVec.getLsbD_one, hj, decide_true, Bool.true_and,
      Bool.and_true]
    rw [Bool.eq_iff_iff]
    simp
    omega

/-- Every bit of STATUS is that of the field it lies in, or 0 (10_state.md R36). -/
theorem getLsbD_statusWord (s : State) {j : Nat} (hj : j < 32) : (statusWord s).getLsbD j =
    (decide (j = 0) && s.busy || decide (j = 1) && s.done || decide (j = 2) && s.err
      || decide (4 ≤ j) && s.ecode.code.getLsbD (j - 4) || decide (j = 8) && s.rej
      || decide (j = 16) && s.ctxValid || decide (j = 17) && s.keyValid || decide (j = 18) && s.streamOpen
      || decide (j = 19) && s.decryptStream) := by
  have hcode : (s.ecode.code.zeroExtend 32 <<< 4).getLsbD j =
      (decide (4 ≤ j) && s.ecode.code.getLsbD (j - 4)) := by
    by_cases h : j < 4
    · simp [h]
    · simp [hj, h, show 4 ≤ j by omega]
  simp only [statusWord, BitVec.getLsbD_or, getLsbD_flagAt hj, hcode]

/-- A field of STATUS whose bits are 0. -/
theorem statusWord_reserved (s : State) (i n : Nat) (h : 9 ≤ i ∧ i + n ≤ 16 ∨ 20 ≤ i ∧ i + n ≤ 32) :
    (statusWord s).extractLsb' i n = 0#n := by
  refine BitVec.eq_of_getLsbD_eq fun j hj => ?_
  have hcode : s.ecode.code.getLsbD (i + j - 4) = false := BitVec.getLsbD_of_ge _ _ (by omega)
  rw [BitVec.getLsbD_extractLsb', getLsbD_statusWord s (by omega), hcode]
  simp
  omega

theorem statusWord_ecode (s : State) : (statusWord s).extractLsb' 4 4 = s.ecode.code := by
  refine BitVec.eq_of_getLsbD_eq fun j hj => ?_
  rw [BitVec.getLsbD_extractLsb', getLsbD_statusWord s (by omega)]
  have hother : ∀ k, k < 4 ∨ 8 ≤ k → ¬ 4 + j = k := by omega
  simp (disch := decide) [hj, hother]

/-- Settles O29: every bit of STATUS is its field's, a read of offset 0x004 answers `statusWord`, and a write of it is
`writeReg`'s. -/
theorem statusFieldsReadAndClear : Obligations.StatusFieldsReadAndClear := by
  unfold Obligations.StatusFieldsReadAndClear
  refine ⟨fun s => ?read, fun s v => ?write⟩
  case read =>
    have hread : hostRegRead Config.chip 0x004 4 s = .next { s with answer := some (.word (statusWord s)) } :=
      hostRegRead_regOffset_some (r := .status) rfl
    refine ⟨?_, ?_, ?_, ?_, statusWord_ecode s, ?_, statusWord_reserved s 9 7 (by decide), ?_, ?_, ?_, ?_,
      statusWord_reserved s 20 12 (by decide), hread⟩
    all_goals rw [getLsbD_statusWord s (by decide)]; simp [State.busy, State.ctxValid, State.keyValid, State.decryptStream]
  case write =>
    have hwrite : hostRegWrite 0x004 4 v s = .next (writeReg s .status v) := hostRegWrite_regOffset .status v s
    have hclear : ∀ held clears : Bool, (held && !clears) = if clears then false else held := by decide
    rw [hwrite]
    simp only [writeReg, hclear]

/-! ### Access rules of the window -/

theorem wordAccess_iff (off : BitVec 12) (bytes : Nat) :
    wordAccess off bytes = true ↔ bytes = 4 ∧ off.toNat % 4 = 0 := by
  simp [wordAccess]

theorem hostRegRead_aligned {P : Params} {off : BitVec 12} {s : State} {w : Word} (hoff : off.toNat % 4 = 0)
    (h : readReg P s (regAt off) = some w) :
    hostRegRead P off 4 s = .next { s with answer := some (.word w) } := by
  simp only [hostRegRead, (wordAccess_iff off 4).mpr ⟨rfl, hoff⟩, if_true, h]

theorem hostRegWrite_aligned {off : BitVec 12} (hoff : off.toNat % 4 = 0) (v : Word) (s : State) :
    hostRegWrite off 4 v s = .next (writeReg s (regAt off) v) := by
  simp only [hostRegWrite, (wordAccess_iff off 4).mpr ⟨rfl, hoff⟩, if_true]

/-- The reserved offsets of the window (10_state.md R33). -/
theorem regAt_reserved {off : BitVec 12} (h : (0x044 ≤ off.toNat ∧ off.toNat ≤ 0x07C) ∨ 0x100 ≤ off.toNat) :
    regAt off = .reserved := by
  unfold regAt
  split
  case h_18 => rw [if_neg, if_neg, if_neg] <;> (clear * - h; omega)
  all_goals omega

/-- Settles O31: an access goes through `wordAccess`, and the register its offset selects decides. -/
theorem windowAccessRules : Obligations.WindowAccessRules := by
  unfold Obligations.WindowAccessRules
  refine ⟨fun s off bytes v hbad => ?refused, fun s off v hoff hreserved => ?reserved,
    fun s off v hoff => ?readOnly, fun s t off bytes h => ?read⟩
  case refused =>
    have haccess : ¬ wordAccess off bytes = true := mt (wordAccess_iff off bytes).mp hbad
    exact ⟨if_neg haccess, if_neg haccess⟩
  case reserved =>
    have hreg := regAt_reserved hreserved
    exact ⟨hostRegRead_aligned hoff (by rw [hreg]; rfl), by rw [hostRegWrite_aligned hoff, hreg]; rfl⟩
  case readOnly =>
    have hoff4 : off.toNat % 4 = 0 := by
      have hall : ∀ n ∈ [0x00C, 0x020, 0x030, 0x034, 0x038, 0x03C, 0x040], n % 4 = 0 := by decide
      exact hall _ hoff
    rw [hostRegWrite_aligned hoff4]
    simp only [List.mem_cons, List.not_mem_nil, or_false] at hoff
    rcases hoff with h | h | h | h | h | h | h <;> simp [regAt, h, writeReg]
  case read =>
    obtain ⟨answer, rfl⟩ := hostRegRead_next h
    rfl

/-! ### The plain registers -/

/-- A flag at bit 0 is the word's bit 0 alone. -/
theorem flagAt_zero_getLsbD (v : Word) : flagAt 0 (v.getLsbD 0) = v &&& 1 := by
  refine BitVec.eq_of_getLsbD_eq fun j hj => ?_
  rw [getLsbD_flagAt hj, BitVec.getLsbD_and]
  by_cases h : j = 0
  · subst h
    exact (Bool.and_true _).symm
  · simp [h]

/-- HOLDLEN's number of withheld bytes is in bits 5:0 (10_state.md R50). -/
theorem holdLen_reserved (n : Nat) : (BitVec.ofNat 32 (n % 64)).extractLsb' 6 26 = 0#26 := by
  have hlt := Nat.mod_lt n (show 0 < 64 by decide)
  apply BitVec.eq_of_toNat_eq
  simp
  omega

/-- Settles O59: the offset of each register selects that register, and what it reads is read off its fields. -/
theorem registersHoldWhatIsWritten : Obligations.RegistersHoldWhatIsWritten := by
  unfold Obligations.RegistersHoldWhatIsWritten
  intro s v
  refine ⟨rfl, rfl, rfl, rfl, rfl, rfl, rfl, rfl, fun off hoff => ?readBack, ⟨_, rfl, ?irqEn⟩,
    _, _, _, _, _, rfl, rfl, rfl, rfl, rfl, rfl, rfl, rfl, rfl, rfl, rfl, rfl, rfl, rfl, rfl,
    ?doneIe, ?irqReserved, ?blkSz, ?blkIdxLo, ?blkIdxHi, holdLen_reserved _, fun hhold => ?holdLen⟩
  case readBack => fin_cases hoff <;> exact ⟨_, rfl, rfl⟩
  case irqEn => exact hostRegRead_regOffset_some (r := .irqEn) (congrArg some (flagAt_zero_getLsbD v))
  case doneIe => rw [getLsbD_flagAt (by decide)]; exact Bool.true_and _
  case irqReserved =>
    refine BitVec.eq_of_getLsbD_eq fun j hj => ?_
    rw [BitVec.getLsbD_extractLsb', getLsbD_flagAt (by omega)]
    simp
  case blkSz =>
    have := Config.chip.S_le
    rw [BitVec.toNat_ofNat, Nat.mod_eq_of_lt (by omega)]
  case blkIdxLo => simp
  case blkIdxHi => have := s.blkIdx.isLt; simp [Nat.shiftRight_eq_div_pow]; omega
  case holdLen =>
    have := Config.chip.S_le
    rw [BitVec.toNat_ofNat, Nat.mod_eq_of_lt (by omega), Nat.mod_eq_of_lt (by omega)]

/-! ### Memory beside a command in flight -/

theorem legalInFlight_eq_some {s : State} {l : Latch} {i : Instr} (hp : s.pending = some l)
    (hdecode : decode l.word = .ok i) : legalInFlight s = some (i, l) := by
  simp only [legalInFlight, hp, hdecode]

theorem inWriteRange_of_legal {P : Params} {s : State} {l : Latch} {i : Instr} (h : legalInFlight s = some (i, l))
    (a : Nat) : inWriteRange P s a = (writeRange P i l s).has a := by
  simp only [inWriteRange, h]

theorem inSourceRange_of_legal {s : State} {l : Latch} {i : Instr} (h : legalInFlight s = some (i, l)) (a : Nat) :
    inSourceRange s a = (sourceRange i l).has a := by
  simp only [inSourceRange, h]

/-- A host read of a byte that the command in flight does not write (20_memory.md R110). -/
theorem hostMemRead_outside {P : Params} {a : Word} {s : State} (h : inWriteRange P s a.toNat = false) :
    hostMemRead P a s = .next { s with answer := some (.byte (s.mem.read a.toNat)) } := by
  simp only [hostMemRead, h, Bool.false_eq_true, if_false]

/-- A host write of a byte in neither range of the command in flight (20_memory.md R110). -/
theorem hostMemWrite_outside {P : Params} {a : Word} {b : Byte} {s : State} (hmem : s.mem.wf = true)
    (hsource : inSourceRange s a.toNat = false) (hwrite : inWriteRange P s a.toNat = false) :
    ∃ t, hostMemWrite P a b s = .next t ∧ t = { s with mem := t.mem } ∧
      ∀ x, t.mem.read x = if x = a.toNat then b else s.mem.read x := by
  refine ⟨{ s with mem := s.mem.write a.toNat b }, by simp [hostMemWrite, hsource, hwrite], rfl, fun x => ?_⟩
  split_ifs with hx
  · rw [hx]
    exact Memory.read_write_self a.toNat b hmem
  · exact Memory.read_write_ne s.mem b hx

/-- Settles O36: the ranges of the legal command in flight decide each access, and with none there are no ranges. -/
theorem hostMemoryAccessInFlight : Obligations.HostMemoryAccessInFlight := by
  unfold Obligations.HostMemoryAccessInFlight
  refine ⟨fun s l i a b hp hdecode hmem => ?legal, fun s a b hillegal hmem => ?idle⟩
  case legal =>
    have hlegal := legalInFlight_eq_some hp hdecode
    rw [← inWriteRange_of_legal hlegal, ← inSourceRange_of_legal hlegal]
    refine ⟨fun hw => ?_, fun hw => hostMemRead_outside hw, fun hranges => ?_,
      fun hw hsource => hostMemWrite_outside hmem hsource hw⟩
    · simp only [hostMemRead, hw, if_true]
      rfl
    · exact if_pos (by rwa [Bool.or_eq_true, or_comm])
  case idle =>
    have hnone := legalInFlight_eq_none hillegal
    have hw : inWriteRange Config.chip s a.toNat = false := by simp only [inWriteRange, hnone]
    have hsource : inSourceRange s a.toNat = false := by simp only [inSourceRange, hnone]
    exact ⟨hostMemRead_outside hw, hostMemWrite_outside hmem hsource hw⟩

/-! ### Reset beside a command in flight -/

/-- A reset gives free values to bytes of the write range of the command it abandons, and to none of its source range
(70_reset_and_hazards.md R451). -/
theorem abandon_read {P : Params} {s : State} {l : Latch} {i : Instr} (hmem : s.mem.wf = true)
    (h : legalInFlight s = some (i, l)) {a : Nat}
    (ha : (writeRange P i l s).has a = false ∨ (sourceRange i l).has a = true) :
    (abandon P s).mem.read a = s.mem.read a := by
  simp only [abandon, h]
  generalize hn : min (writeRange P i l s).len (addressLimit - (writeRange P i l s).base) = n
  have hlen : (abandonedBytes P (sourceRange i l) (writeRange P i l s).base n s).length = n := by
    simp [abandonedBytes]
  by_cases hin : (writeRange P i l s).base ≤ a ∧ a < (writeRange P i l s).base + n
  · obtain ⟨k, rfl⟩ := Nat.exists_eq_add_of_le hin.1
    have hkeep : (sourceRange i l).has ((writeRange P i l s).base + k) = true :=
      ha.resolve_left (by rw [range_has_false]; omega)
    rw [Memory.read_writeRange_inside hmem (by omega)]
    simp [abandonedBytes, hkeep]
  · exact Memory.read_writeRange_outside _ _ (by omega)

/-- Settles O35: a reset that is not refused is `resetAction`, which is `State.reset` over what `abandon` leaves of
memory. -/
theorem resetAbandonsTheCommand : Obligations.ResetAbandonsTheCommand := by
  unfold Obligations.ResetAbandonsTheCommand
  intro s l hp hmem
  refine ⟨fun hplain => ?abandoned, fun i hdecode hside => ?refused⟩
  case abandoned =>
    have hreset : hostReset Config.chip s = .next (resetAction Config.chip s) := by
      cases hdecode : decode l.word with
      | ok i => simp only [hostReset, legalInFlight_eq_some hp hdecode, if_neg (hplain i hdecode)]
      | error e =>
        have hnone : legalInFlight s = none := by simp only [legalInFlight, hp, hdecode]
        simp only [hostReset, hnone]
    refine ⟨resetAction Config.chip s, hreset, rfl, rfl, rfl, rfl, fun i hdecode => ?_, fun hillegal => ?_⟩
    · have hlegal := legalInFlight_eq_some hp hdecode
      exact ⟨fun a ha => abandon_read hmem hlegal (.inl ha), fun a ha => abandon_read hmem hlegal (.inr ha)⟩
    · rw [resetAction_idle (legalInFlight_eq_none fun l' i hp' => ?_)]
      obtain rfl : l = l' := Option.some.inj (hp.symm.trans hp')
      exact hillegal i
  case refused =>
    show hostReset Config.chip s = _
    simp only [hostReset, legalInFlight_eq_some hp hdecode, hside, if_true]

end Sys2Proof.Machine
end
